-- ==== Sys2Proof/Word.lean ====
section
/-! DEFINITION. The machine's words and the four-fold tuples built from them (00_scope.md R8, R9). -/
namespace Sys2Proof

/-- A word is 64 bits (R9). -/
abbrev Word := BitVec 64

/-- A byte of the destination space (R60). -/
abbrev Byte := BitVec 8

/-- Four like things in order: the words of a double-lane or of the counter, the double-lanes of a
block (R9, R20), the four seed words (R36), the rows of the seed map (R233). -/
structure Quad (α : Type) where
  e0 : α
  e1 : α
  e2 : α
  e3 : α
  deriving DecidableEq, Repr

/-- Entry `j` of a tuple: `d.w[j]`, `S[k]`, `C.w[j]` of R9. -/
def Quad.nth {α : Type} (q : Quad α) : Fin 4 → α
  | 0 => q.e0
  | 1 => q.e1
  | 2 => q.e2
  | 3 => q.e3

/-- The tuple whose entry `j` is `f j`. -/
def Quad.ofFn {α : Type} (f : Fin 4 → α) : Quad α := ⟨f 0, f 1, f 2, f 3⟩

/-- `q` with entry `j` replaced. -/
def Quad.set {α : Type} (q : Quad α) (j : Fin 4) (x : α) : Quad α :=
  match j with
  | 0 => { q with e0 := x }
  | 1 => { q with e1 := x }
  | 2 => { q with e2 := x }
  | 3 => { q with e3 := x }

/-- The same function on every entry. -/
def Quad.map {α β : Type} (f : α → β) (q : Quad α) : Quad β := ⟨f q.e0, f q.e1, f q.e2, f q.e3⟩

/-- Entry by entry. -/
def Quad.zipWith {α β γ : Type} (f : α → β → γ) (a : Quad α) (b : Quad β) : Quad γ :=
  ⟨f a.e0 b.e0, f a.e1 b.e1, f a.e2 b.e2, f a.e3 b.e3⟩

/-- Four equal entries. -/
def Quad.replicate {α : Type} (x : α) : Quad α := ⟨x, x, x, x⟩

/-- The entries in order. -/
def Quad.toList {α : Type} (q : Quad α) : List α := [q.e0, q.e1, q.e2, q.e3]

/-- A double-lane: four words, 256 bits (R9, R13, R21). -/
abbrev DoubleLane := Quad Word

/-- A block: four double-lanes, 128 bytes (R9, R13). -/
abbrev Block := Quad DoubleLane

end Sys2Proof
end

