-- ==== Sys2Proof/Machine/Memory.lean ====
section
/-! DEFINITION. The destination space as plain data (20_memory.md R60): a list of (address, byte) pairs with
strictly rising addresses. An unlisted address has NO value of its own (log 6), so an entry is never redundant. -/
namespace Sys2Proof.Machine

/-- Destination memory: the bytes written so far, by rising address. -/
abbrev Memory := List Host.Cell

/-- What an unlisted address reads as: no value, since the spec leaves the contents to the platform (R78). -/
def unlisted : Option Byte := none

/-- The byte at an address. -/
def memRead (m : Memory) (a : Nat) : Option Byte :=
  match m with
  | [] => unlisted
  | c :: rest => if c.1 = a then some c.2 else memRead rest a

/-- Store a byte (R71: "a write stores its byte"), keeping the addresses strictly rising. -/
def memWrite (m : Memory) (a : Nat) (b : Byte) : Memory :=
  match m with
  | [] => [(a, b)]
  | c :: rest =>
    if a < c.1 then (a, b) :: c :: rest
    else if a = c.1 then (a, b) :: rest
    else c :: memWrite rest a b

/-- The bytes of a list at successive addresses. -/
def memWriteBytes (m : Memory) (a : Nat) (bs : List Byte) : Memory :=
  match bs with
  | [] => m
  | b :: rest => memWriteBytes (memWrite m a b) (a + 1) rest

/-- Every listed address is above `lo` and they rise strictly. -/
def risesFrom (lo : Nat) (m : Memory) : Bool :=
  match m with
  | [] => true
  | c :: rest => decide (lo ≤ c.1) && risesFrom (c.1 + 1) rest

/-- The canonical form: addresses strictly rising. No entry can equal what an unlisted address reads as, because
that is no value. -/
def memWf (m : Memory) : Bool := risesFrom 0 m

/-- The n-byte little-endian spelling of a word, least significant byte first (R11, R62). -/
def bytesLE (n : Nat) (v : Word) : List Byte := (List.range n).map (fun i => v.extractLsb' (8 * i) 8)

/-- The 32 bytes of a double-lane: word j at offset 8j (R63). -/
def laneBytes (d : DoubleLane) : List Byte := d.toList.flatMap (bytesLE 8)

/-- The 128 bytes of a block: double-lane k at offset 32k (R63). -/
def blockBytesOf (b : Block) : List Byte := b.toList.flatMap laneBytes

/-- `WriteBlock(a, B)` (R63). -/
def writeBlock (m : Memory) (a : Nat) (b : Block) : Memory := memWriteBytes m a (blockBytesOf b)

end Sys2Proof.Machine
end

