-- ==== Sys2Proof/Syntax.lean ====
section
/-! DEFINITION. The commands (spec/opcode_table.json, 30_encoding.md R94), the variants (00_scope.md R7), and
the reasons a command word is illegal (R95). -/
namespace Sys2Proof

/-- The commands, one constructor per row of the opcode table. `select` carries the two bits of the field
`ENG` (R92); `eng = 3` is reserved and is no well-formed command. -/
inductive Instr where
  /-- `NOP`, 44_control_commands.md R260. -/
  | nop
  /-- `INIT`, 43_initialize.md R230. -/
  | init
  /-- `GEN`, 42_generate.md R200. -/
  | gen
  /-- `SKIP`, 42_generate.md R202. -/
  | skip
  /-- `SELECT e`, 44_control_commands.md R261. -/
  | select (eng : BitVec 2)
  deriving DecidableEq, Repr

/-- The three realizations of the engine (R2, R7). -/
inductive Variant where
  /-- Identifier 0: individual 64-bit words. -/
  | scalar
  /-- Identifier 1: pairs of 64-bit lanes. -/
  | v128
  /-- Identifier 2: quadruples of 64-bit lanes. -/
  | v256
  deriving DecidableEq, Repr

/-- Why a command word matches no row of the opcode table: the four clauses of R95. -/
inductive Illegal where
  /-- A nonzero bit in 63:10. -/
  | reservedBits
  /-- `SELECT` with `ENG = 3`. -/
  | reservedVariant
  /-- A nonzero `ENG` with an `OP` other than 0x04. -/
  | engOutsideSelect
  /-- `OP` in 0x05..0xFF. -/
  | unassignedOpcode
  deriving DecidableEq, Repr

/-- A row of the opcode table: a word stands for the row when it agrees with `pattern` on the bits of
`mask` (R94). -/
structure OpcodeRow where
  mnemonic : String
  pattern : Word
  mask : Word
  deriving DecidableEq, Repr

end Sys2Proof
end

