-- ==== Sys2Proof/Config.lean ====
section
/-! DEFINITION. What a build or a platform fixes (00_scope.md R6), as plain data that the state carries and no
step changes (log 3), and the free values of the model (log 6, log 7). -/
namespace Sys2Proof

/-- The destination addresses `base`, ..., `base + size - 1`. -/
structure Region where
  base : Nat
  size : Nat
  deriving DecidableEq, Repr

/-- Which seed word, if any, is XORed into each of the sixteen words: row k, column j is `S[k].w[j]` (R233). -/
abbrev SeedMap := Quad (Quad (Option (Fin 4)))

/-- The parameters a model takes (R6). -/
structure Config where
  /-- The sixteen constants, `PHI[4k + j]` in row k, column j (R231, R232). -/
  phi : Block
  /-- `SEED_MAP` (R231, R233). -/
  seedMap : SeedMap
  /-- `CAP_MASK`: bit e is 1 exactly when variant e is built in (R7). -/
  capMask : BitVec 3
  /-- `PA_WIDTH`: the destination space has `2^PA_WIDTH` bytes (R60). -/
  paWidth : Nat
  /-- `BASE`: the host address of the register window (R32). The spec gives host addresses no width; that they have 64
  bits is the model's choice, DESIGN CHOICE, unsafe (log 24). -/
  base : Word
  /-- `DST_ADMIT`: the destination bytes the platform has (R69), as the union of these regions. -/
  dstAdmit : List Region
  /-- The destination addresses to which the platform maps the engine's own registers (R70). -/
  engineRegs : List Region
  /-- `HOST_FENCE`: whether the host's ISA needs a fence between reading `BUSY = 0` and reading the buffer (R74). -/
  fenceNeeded : Bool
  deriving DecidableEq, Repr

/-- The n-th free byte: what a byte that 'holds any value' turns out to be (20_memory.md R68, 70_reset_and_hazards.md
R322). It has no body, so nothing can be proved of its value (log 7). -/
opaque Config.freeByte : Nat → Byte

/-- What the platform's memory holds at a destination address that nothing in the model has written (R78 leaves the
contents to the platform). It has no body (log 6). -/
opaque Config.initialByte : Nat → Byte

end Sys2Proof
end

