-- ==== Sys2Proof/WellFormed.lean ====
section
/-! DEFINITION. Which commands are well formed: those that some command word stands for (30_encoding.md R92, R95). -/
namespace Sys2Proof

/-- `ENG = 3` is reserved and decodes as illegal (R92); every other command is well formed. -/
def Instr.wellFormed : Instr → Bool
  | .nop => true
  | .init => true
  | .gen => true
  | .skip => true
  | .select eng => eng != 3#2

end Sys2Proof
end

