-- ==== Sys2Proof/Decode.lean ====
section
/-! DEFINITION. From a command word to a command and back (30_encoding.md R90 to R96), and the variant
identifiers (00_scope.md R7). -/
namespace Sys2Proof

/-- The variant an identifier names; identifier 3 is reserved (R7). -/
def Variant.ofId? (e : BitVec 2) : Option Variant :=
  if e = 0#2 then some .scalar
  else if e = 1#2 then some .v128
  else if e = 2#2 then some .v256
  else none

/-- The identifier of a variant (R7). -/
def Variant.id : Variant → BitVec 2
  | .scalar => 0#2
  | .v128 => 1#2
  | .v256 => 2#2

/-- The field `OP`, bits 7:0 (R90, R91). -/
def fieldOp (v : Word) : BitVec 8 := v.extractLsb' 0 8

/-- The field `ENG`, bits 9:8 (R90, R92). -/
def fieldEng (v : Word) : BitVec 2 := v.extractLsb' 8 2

/-- The reserved bits 63:10 (R90). -/
def fieldReserved (v : Word) : BitVec 54 := v.extractLsb' 10 54

/-- `Decode(v)` of R96: total, and an illegal word is rejected with the clause of R95 it falls under. -/
def decode (v : Word) : Except Illegal Instr :=
  if fieldReserved v ≠ 0#54 then .error .reservedBits
  else if fieldOp v = 0x04#8 then
    if fieldEng v = 3#2 then .error .reservedVariant else .ok (.select (fieldEng v))
  else if fieldEng v ≠ 0#2 then .error .engOutsideSelect
  else if fieldOp v = 0x00#8 then .ok .nop
  else if fieldOp v = 0x01#8 then .ok .init
  else if fieldOp v = 0x02#8 then .ok .gen
  else if fieldOp v = 0x03#8 then .ok .skip
  else .error .unassignedOpcode

/-- The exact encodings of R94's table. -/
def encode : Instr → Word
  | .nop => 0x0000000000000000#64
  | .init => 0x0000000000000001#64
  | .gen => 0x0000000000000002#64
  | .skip => 0x0000000000000003#64
  | .select eng => 0x0000000000000004#64 ||| (eng.setWidth 64 <<< 8)

/-- The rows of the opcode table with their match and mask (R94; spec/opcode_table.json). -/
def opcodeTable : List OpcodeRow :=
  [⟨"NOP", 0x0000000000000000#64, 0xFFFFFFFFFFFFFFFF#64⟩,
   ⟨"INIT", 0x0000000000000001#64, 0xFFFFFFFFFFFFFFFF#64⟩,
   ⟨"GEN", 0x0000000000000002#64, 0xFFFFFFFFFFFFFFFF#64⟩,
   ⟨"SKIP", 0x0000000000000003#64, 0xFFFFFFFFFFFFFFFF#64⟩,
   ⟨"SELECT", 0x0000000000000004#64, 0xFFFFFFFFFFFFFCFF#64⟩]

/-- The word agrees with the row (R94). -/
def OpcodeRow.matchesWord (r : OpcodeRow) (v : Word) : Bool := v &&& r.mask == r.pattern

/-- The command in a word of `nbits` bits given as a number (bit 0 the least significant, bits above `nbits`
zero). A command is always one 64-bit write (R90), so a number of more than 64 bits is no command. -/
def decodeTableWord (nbits w : Nat) : Option Instr :=
  if w % 2 ^ nbits < 2 ^ 64 then
    match decode (BitVec.ofNat 64 (w % 2 ^ nbits)) with
    | .ok i => some i
    | .error _ => none
  else none

end Sys2Proof
end

