-- ==== Sys2Proof/Machine/Params.lean ====
section
/-! DEFINITION. The parameters' default values and well-formedness (00_scope.md R6, R7; 43_initialize.md R231 to
R233), the fixed constants, and the questions the machine asks of its parameters. -/
namespace Sys2Proof.Machine

/-- `BLOCK = 128` bytes (R6). -/
def blockBytes : Nat := 128

/-- `ROUNDS_INIT = 13` (R6, R235). -/
def roundsInit : Nat := 13

/-- `C_INIT = (0, 0, 0, 0)` (R6, R23, R234). PRESUMED by the spec from the published initializer (G3): unsafe, log 4. -/
def cInit : DoubleLane := Quad.replicate 0#64

/-- `INC = (7, 5, 3, 1)` (R6, R129). -/
def inc : DoubleLane := ⟨7#64, 5#64, 3#64, 1#64⟩

/-- The default table `PHI` (R232). PRESUMED by the spec from general knowledge (G1): unsafe, log 4. -/
def phiDefault : Block :=
  ⟨⟨0x9E3779B97F4A7C15#64, 0xF39CC0605CEDC834#64, 0x1082276BF3A27251#64, 0xF86C6A11D0C18E95#64⟩,
   ⟨0x2767F0B153D27B7F#64, 0x0347045B5BF1827F#64, 0x01886F0928403002#64, 0xC1D64BA40F335E36#64⟩,
   ⟨0xF06AD7AE9717877E#64, 0x85839D6EFFBD7DC6#64, 0x64D325D1C5371682#64, 0xCADD0CCCFDFFBBE1#64⟩,
   ⟨0x626E33B8D04B4331#64, 0xBBF73C790D94F79D#64, 0x471C4AB3ED3D82A5#64, 0xFEC507705E4AE6E5#64⟩⟩

/-- The default `SEED_MAP` (R233). PRESUMED by the spec from general knowledge (G2): unsafe, log 4. -/
def seedMapDefault : SeedMap :=
  ⟨⟨some 0, none, some 1, none⟩,
   ⟨some 2, none, some 3, none⟩,
   ⟨some 2, none, some 3, none⟩,
   ⟨some 0, none, some 1, none⟩⟩

/-- The build the model starts from: R6's defaults; for the parameters R6 gives no default, DESIGN CHOICE
(unsafe, log 3): `BASE = 0`, every destination byte admitted, no register mapped there, a fence needed. -/
def defaultConfig : Config where
  phi := phiDefault
  seedMap := seedMapDefault
  capMask := 0b111#3
  paWidth := 64
  base := 0#64
  dstAdmit := [⟨0, 2 ^ 64⟩]
  engineRegs := []
  fenceNeeded := true

/-- The three properties of R231: exactly eight of the sixteen words are seeded, two per seed word, and half of
each double-lane is seeded. -/
def seedMapWf (m : SeedMap) : Bool :=
  let cells := m.toList.flatMap Quad.toList
  cells.countP Option.isSome == 8
    && (List.finRange 4).all (fun i => cells.count (some i) == 2)
    && m.toList.all (fun row => row.toList.countP Option.isSome == 2)

/-- What R6 and R7 ask of the parameters. -/
def configWf (c : Config) : Bool :=
  seedMapWf c.seedMap
    && c.capMask != 0#3
    && decide (1 ≤ c.paWidth) && decide (c.paWidth ≤ 64)
    && c.base.extractLsb' 0 8 == 0#8

/-- `CAP_MASK[e]` (R7). -/
def supported (mask : BitVec 3) (v : Variant) : Bool := mask.getLsbD v.id.toNat

/-- The lowest variant whose `CAP_MASK` bit is 1 (10_state.md R43). `CAP_MASK` is never 0 (R7); of a mask of 0 the
model says SCALAR (log 23). -/
def lowestVariant (mask : BitVec 3) : Variant :=
  if supported mask .scalar then .scalar
  else if supported mask .v128 then .v128
  else if supported mask .v256 then .v256
  else .scalar

/-- The address lies in the region. -/
def inRegion (r : Region) (a : Nat) : Bool := decide (r.base ≤ a) && decide (a < r.base + r.size)

/-- `DST_ADMIT` of one byte address (20_memory.md R69). -/
def admitted (c : Config) (a : Nat) : Bool := c.dstAdmit.any (fun r => inRegion r a)

/-- The destination byte exists: it lies in the space of `2^PA_WIDTH` bytes (R60) and the platform admits it (R69). -/
def byteExists (c : Config) (a : Nat) : Bool := decide (a < 2 ^ c.paWidth) && admitted c a

/-- Every byte of `[a, a + n)` exists. -/
def rangeExists (c : Config) (a n : Nat) : Bool := (List.range n).all (fun i => byteExists c (a + i))

/-- `[a, a + n)` and the region have an address in common. -/
def meetsRegion (r : Region) (a n : Nat) : Bool :=
  decide (0 < n) && decide (0 < r.size) && decide (r.base < a + n) && decide (a < r.base + r.size)

/-- `[a, a + n)` meets an address to which the engine's own registers are mapped (20_memory.md R70). -/
def meetsEngineRegs (c : Config) (a n : Nat) : Bool := c.engineRegs.any (fun r => meetsRegion r a n)

end Sys2Proof.Machine
end

