-- ==== Sys2Proof/Machine/State.lean ====
section
/-! DEFINITION. The state of the machine as plain data (10_state.md), why a step can stop, and the state right after
reset (R43, 70_reset_and_hazards.md R320). -/
namespace Sys2Proof.Machine

/-- The generator state: exactly three components (R20). -/
structure GenState where
  /-- `S[0..3]`, the working state. -/
  s : Block
  /-- `O[0..3]`, the pending output. -/
  o : Block
  /-- `C`, the counter. -/
  c : DoubleLane
  deriving DecidableEq, Repr

/-- Result codes (60_exceptions.md R281). Codes 6 to 15 are never written, so they are not here. -/
inductive ErrCode where
  | ok
  | illegal
  | shape
  | cap
  | noState
  | range
  deriving DecidableEq, Repr

/-- The operand latch `L` of the long command in flight (R41): the constructor is `L.op`. -/
inductive Latch where
  /-- `L.seed[0..3]`. -/
  | init (seed : Quad Word)
  /-- `L.nblk` and `L.dst`. -/
  | gen (nblk : Nat) (dst : Word)
  /-- `L.nblk`. -/
  | skip (nblk : Nat)
  deriving DecidableEq, Repr

/-- One access or line of a host (30_encoding.md R97, R99; 95_test_vectors.md part 3). Host addresses have 64 bits:
DESIGN CHOICE, unsafe (log 24). -/
inductive HostOp where
  /-- A write of the low `bytes` bytes of `v` at a host address; `sd` is the 8-byte one. -/
  | write (bytes : Nat) (addr : Word) (v : Word)
  /-- A read of `bytes` bytes at a host address; `ld` is the 8-byte one. -/
  | read (bytes : Nat) (addr : Word)
  /-- `ldm A, N`: a read of N destination bytes at address A, in one step: DESIGN CHOICE, unsafe (log 25). -/
  | loadMem (addr n : Nat)
  /-- A write of one destination byte by a host (20_memory.md R68). -/
  | storeMem (addr : Nat) (b : Byte)
  /-- `poll`: `ld STATUS` until bit 0 is 0. -/
  | poll
  /-- `check_err C`: `ld STATUS`; the program fails unless bits 7:4 equal C. -/
  | checkErr (code : BitVec 4)
  /-- `HOST_FENCE` (20_memory.md R74). -/
  | fence
  deriving DecidableEq, Repr

/-- Whose turn it is, and the events from outside (60_exceptions.md R295, 70_reset_and_hazards.md R320). -/
inductive Turn where
  /-- Host number `h` performs its next access. -/
  | host (h : Nat)
  /-- The engine takes its completion step if it has one (R289). -/
  | engine
  /-- The platform asserts `RST`. -/
  | reset
  /-- Another agent writes a destination byte. -/
  | otherWrite (addr : Nat) (b : Byte)
  /-- Another agent reads destination bytes. -/
  | otherRead (addr n : Nat)
  deriving DecidableEq, Repr

/-- Who accesses destination memory (60_exceptions.md R295). -/
inductive Agent where
  /-- Host number `h`. -/
  | host (h : Nat)
  /-- An agent of the platform that is no host of this instance. -/
  | other
  deriving DecidableEq, Repr

/-- What a read returned. -/
inductive Observation where
  /-- A register read at a window offset by host number `h`. -/
  | reg (h : Nat) (off : BitVec 8) (v : Word)
  /-- A read of destination bytes. -/
  | bytes (who : Agent) (addr : Nat) (bs : List Byte)
  deriving DecidableEq, Repr

/-- A recorded fault of a host agent (60_exceptions.md R297; `check_err` of 30_encoding.md R99). -/
inductive HostFault where
  /-- A register access of another width than 64 bits, or at a misaligned offset (R61). -/
  | busError (bytes : Nat) (off : BitVec 8)
  /-- The program failed: `check_err C` read another code. -/
  | checkFailed (expected got : BitVec 4)
  deriving DecidableEq, Repr

/-- One host of the instance (60_exceptions.md R295: several are not excluded). -/
structure HostAgent where
  /-- Its accesses still to come, oldest first (the model's own; log 1). -/
  prog : List HostOp
  /-- Its recorded fault (R297). -/
  fault : Option HostFault
  /-- Ranges of `GEN`s that have ended and of which this host has not yet read `BUSY = 0` (R326; log 26). -/
  unseen : List Region
  /-- Ranges of which it has read `BUSY = 0`, without a `HOST_FENCE` since (R74; log 13). -/
  unfenced : List Region
  deriving DecidableEq, Repr

/-- A host with nothing to do. -/
def HostAgent.idle : HostAgent := ⟨[], none, [], []⟩

/-- Why the machine stops with a fault. -/
inductive Fault where
  /-- Raised by the turn of a host that has stopped with a recorded fault and still has accesses in its
  program (R297; log 11). Safe: nothing is claimed of what a host does after its bus error. -/
  | hostStopped
  /-- Raised by a read or write of a destination byte, by a host or another agent, that does not exist (outside the
  space or not admitted: R60, R69) and that is not open to the agent (R68, R326; log 12). Safe: the machine stops where a platform might go on. -/
  | dstAbsent (addr : Nat)
  /-- Raised by the engine's completion of a `GEN` or `SKIP` while S, O, C hold no value; a model must not read
  them then (R26). No run reaches it (log 19). Safe. -/
  | stateHoldsNoValue
  deriving DecidableEq, Repr

/-- Why a situation has no meaning. -/
inductive Refusal where
  /-- Raised by exec's arm of an instruction that has no meaning yet. Safe. -/
  | notModelled (mnemonic : String)
  /-- Raised by the acceptance of a `GEN` whose range meets the engine's own registers: "A model refuses any `GEN`
  whose range meets such an address" (R70). Safe. -/
  | rangeMeetsEngineRegisters
  /-- Raised by a host access at an address outside the register window: another device, of which the spec says
  nothing. Safe. -/
  | outsideWindow (addr : Word)
  deriving DecidableEq, Repr

/-- Everything the spec gives the machine, its agents and its platform (INVENTORY.md, State).
`BUSY` is `latch.isSome` and `STATE_VALID` is `gen.isSome` (Machine/Ops.lean). -/
structure State where
  /-- The parameters (00_scope.md R6); no step changes them (log 3). -/
  cfg : Config
  /-- `S`, `O`, `C` (R20), or no value (R26, R43; log 5). -/
  gen : Option GenState
  /-- `ENGINE` (R27). -/
  engine : Variant
  /-- `STATUS.OVR` (R34). -/
  ovr : Bool
  /-- `STATUS.ERR` (R34). -/
  err : ErrCode
  /-- `SEED0` to `SEED3` (R36). -/
  seed : Quad Word
  /-- `LEN` (R37). -/
  len : Word
  /-- `BUF_LEN` (R38). -/
  bufLen : Word
  /-- `DST_ADDR` (R39). -/
  dstAddr : Word
  /-- `L` while a long command is in flight (R41). -/
  latch : Option Latch
  /-- The destination space (20_memory.md R60). -/
  mem : Memory
  /-- Bytes of the range in flight that another agent has written (R68). -/
  touched : List Nat
  /-- How many free values have been drawn (the model's own; log 7). -/
  fresh : Nat
  /-- The hosts of the instance, by number (R295; log 18). -/
  hosts : List HostAgent
  /-- The turns still to come, next first (the model's own; log 1). -/
  sched : List Turn
  /-- What reads have returned, newest first (log 16). -/
  observed : List Observation
  deriving DecidableEq, Repr

/-- The machine right after reset, in the default build (R43, R320): `ENGINE` the lowest variant of `CAP_MASK`,
`STATUS` and every register 0, `S`, `O`, `C` and `L` no value, no command in flight. The model's own fields are empty:
DESIGN CHOICE (log 1, log 7, log 13, log 16), safe. There is one host, idle: DESIGN CHOICE (log 18), safe. -/
def State.reset : State where
  cfg := defaultConfig
  gen := none
  engine := lowestVariant defaultConfig.capMask
  ovr := false
  err := .ok
  seed := Quad.replicate 0#64
  len := 0#64
  bufLen := 0#64
  dstAddr := 0#64
  latch := none
  mem := []
  touched := []
  fresh := 0
  hosts := [HostAgent.idle]
  sched := []
  observed := []

end Sys2Proof.Machine
end

