-- ==== Sys2Proof/Machine/Ops.lean ====
section
/-! DEFINITION. The named operations over registers and memory: the two bits read off the state, one update per
register, acceptance and errors (30_encoding.md R96, 60_exceptions.md R280), reset (70_reset_and_hazards.md R320), and
reads and writes of destination bytes by agents (20_memory.md R68). -/
namespace Sys2Proof.Machine

/-- `STATUS.BUSY`: a long command is in flight (10_state.md R34). -/
def State.busy (s : State) : Bool := s.latch.isSome

/-- `STATE_VALID`: `S`, `O`, `C` hold a state (10_state.md R26). -/
def State.stateValid (s : State) : Bool := s.gen.isSome

/-- `S`, `O`, `C` replaced. -/
def State.withGen (s : State) (x : Option GenState) : State := { s with gen := x }
/-- `ENGINE` replaced. -/
def State.withEngine (s : State) (x : Variant) : State := { s with engine := x }
/-- `STATUS.OVR` replaced. -/
def State.withOvr (s : State) (x : Bool) : State := { s with ovr := x }
/-- `STATUS.ERR` replaced. -/
def State.withErr (s : State) (x : ErrCode) : State := { s with err := x }
/-- `SEED0` to `SEED3` replaced. -/
def State.withSeed (s : State) (x : Quad Word) : State := { s with seed := x }
/-- `LEN` replaced. -/
def State.withLen (s : State) (x : Word) : State := { s with len := x }
/-- `BUF_LEN` replaced. -/
def State.withBufLen (s : State) (x : Word) : State := { s with bufLen := x }
/-- `DST_ADDR` replaced. -/
def State.withDstAddr (s : State) (x : Word) : State := { s with dstAddr := x }
/-- `L` replaced. -/
def State.withLatch (s : State) (x : Option Latch) : State := { s with latch := x }
/-- Destination memory replaced. -/
def State.withMem (s : State) (x : Memory) : State := { s with mem := x }
/-- The bytes other agents wrote in flight replaced. -/
def State.withTouched (s : State) (x : List Nat) : State := { s with touched := x }
/-- The counter of free values replaced. -/
def State.withFresh (s : State) (x : Nat) : State := { s with fresh := x }
/-- The hosts replaced. -/
def State.withHosts (s : State) (x : List HostAgent) : State := { s with hosts := x }
/-- The schedule replaced. -/
def State.withSched (s : State) (x : List Turn) : State := { s with sched := x }
/-- The observations replaced. -/
def State.withObserved (s : State) (x : List Observation) : State := { s with observed := x }

/-- A read's result is recorded. -/
def State.observe (s : State) (x : Observation) : State := s.withObserved (x :: s.observed)

/-- Host number `h` of a list; one that is not listed has nothing to do. -/
def hostGet (l : List HostAgent) (h : Nat) : HostAgent :=
  match h with
  | 0 => l.headD HostAgent.idle
  | h + 1 => hostGet l.tail h

/-- Host number `h` of a list replaced. -/
def hostSet (l : List HostAgent) (h : Nat) (a : HostAgent) : List HostAgent :=
  match h with
  | 0 => a :: l.tail
  | h + 1 => l.headD HostAgent.idle :: hostSet l.tail h a

/-- Host number `h`. -/
def State.host (s : State) (h : Nat) : HostAgent := hostGet s.hosts h

/-- Host number `h` replaced. -/
def State.setHost (s : State) (h : Nat) (a : HostAgent) : State := s.withHosts (hostSet s.hosts h a)

/-- A range of a `GEN` has ended: no host has yet read `BUSY = 0` since (70_reset_and_hazards.md R326; log 26). -/
def endRange (r : Region) (l : List HostAgent) : List HostAgent :=
  l.map (fun a => { a with unseen := r :: a.unseen })

/-- Host `h` reads `STATUS`: if it reads `BUSY = 0`, the ranges that have ended wait only for its fence (R326, R74). -/
def State.seeStatus (s : State) (h : Nat) : State :=
  if s.busy then s
  else s.setHost h { s.host h with unseen := [], unfenced := (s.host h).unseen ++ (s.host h).unfenced }

/-- The engine's errors are its exceptions, and this is the one way they are taken: `raise Error(code)` ends the
handling of a command at acceptance by writing `STATUS.ERR`, and leaves every other piece of state as it was
(00_scope.md R11, 60_exceptions.md R280). There is no trap entry and no return (R293). -/
def raise (s : State) (code : ErrCode) : Host.Outcome State Fault Refusal := .next (s.withErr code)

/-- Acceptance around the handling of one command word (30_encoding.md R96): while busy the word is dropped and
`OVR <- 1` (60_exceptions.md R287), else `OVR <- 0` and the command is handled. -/
def accept (s : State) (handle : State → Host.Outcome State Fault Refusal) : Host.Outcome State Fault Refusal :=
  if s.busy then .next (s.withOvr true) else handle (s.withOvr false)

/-- Acceptance of a word that matches no row: `raise Error(ERR_ILLEGAL)` (R95, R96, 60_exceptions.md R282). -/
def acceptIllegal (s : State) : Host.Outcome State Fault Refusal := accept s (fun t => raise t .illegal)

/-- Each existing byte of `[a, a + n)` becomes any value: byte `a + i` gets free value `f + i` (70_reset_and_hazards.md
R322; log 8). -/
def scramble (c : Config) (m : Memory) (a f : Nat) : Nat → Memory
  | 0 => m
  | n + 1 =>
    let m' := scramble c m a f n
    if byteExists c (a + n) then memWrite m' (a + n) (Config.freeByte (f + n)) else m'

/-- Each address of the list becomes any value, drawing one free value each (20_memory.md R68; log 7). -/
def scrambleEach (m : Memory) (f : Nat) (as : List Nat) : Memory :=
  match as with
  | [] => m
  | a :: rest => scrambleEach (memWrite m a (Config.freeByte f)) (f + 1) rest

/-- How many destination bytes the command in flight owns: `128 * L.nblk` for a `GEN`. -/
def flightBytes (s : State) : Nat :=
  match s.latch with
  | some (.gen nblk _) => blockBytes * nblk
  | _ => 0

/-- Where the range of the command in flight starts: `L.dst` for a `GEN`. -/
def flightStart (s : State) : Nat :=
  match s.latch with
  | some (.gen _ dst) => dst.toNat
  | _ => 0

/-- The byte lies in `[L.dst, L.dst + 128 * L.nblk)` of a `GEN` in flight (20_memory.md R68). -/
def inFlight (s : State) (a : Nat) : Bool := inRegion ⟨flightStart s, flightBytes s⟩ a

/-- The hosts once the command in flight has ended: the range of a `GEN` has, nothing else changes. -/
def endFlight (s : State) : List HostAgent :=
  match s.latch with
  | some (.gen nblk dst) => endRange ⟨dst.toNat, blockBytes * nblk⟩ s.hosts
  | _ => s.hosts

/-- `RST` (70_reset_and_hazards.md R320, R322): one atomic step. Every register takes its reset value, `S`, `O`, `C`
and `L` hold no value, and the range of an aborted `GEN` holds any value. The parameters, the other bytes of memory and
the hosts are not the engine's, and stay; to the hosts the aborted range has ended (log 26). -/
def applyReset (s : State) : State :=
  { s with
    gen := none
    engine := lowestVariant s.cfg.capMask
    ovr := false
    err := .ok
    seed := Quad.replicate 0#64
    len := 0#64
    bufLen := 0#64
    dstAddr := 0#64
    latch := none
    mem := scramble s.cfg s.mem (flightStart s) s.fresh (flightBytes s)
    touched := []
    fresh := s.fresh + flightBytes s
    hosts := endFlight s }

/-- The byte lies in a range that has ended and of which host `h` has not read `BUSY = 0` (R326; log 26). -/
def unseenBy (s : State) (h : Nat) (a : Nat) : Bool := (s.host h).unseen.any (fun r => inRegion r a)

/-- The byte lies in a range host `h` needs a fence for and has made none since it read `BUSY = 0` (R74; log 13). -/
def unfencedBy (s : State) (h : Nat) (a : Nat) : Bool :=
  s.cfg.fenceNeeded && (s.host h).unfenced.any (fun r => inRegion r a)

/-- What a read by this agent returns of the byte is open: the byte is in flight (20_memory.md R68), or the agent is a
host that has not read `BUSY = 0` since, or not fenced. -/
def openTo (s : State) (who : Agent) (a : Nat) : Bool :=
  inFlight s a
    || match who with
      | .host h => unseenBy s h a || unfencedBy s h a
      | .other => false

/-- The bytes a read of `[a, a + n)` returns, drawing free values from `f` on, and the next free value. -/
def loadBytes (s : State) (who : Agent) (a f : Nat) : Nat → List Byte × Nat
  | 0 => ([], f)
  | n + 1 =>
    if openTo s who a then
      let r := loadBytes s who (a + 1) (f + 1) n
      (Config.freeByte f :: r.1, r.2)
    else
      let r := loadBytes s who (a + 1) f n
      ((memRead s.mem a).getD (Config.initialByte a) :: r.1, r.2)

/-- The agent's read of the byte returns a value: any value where what it returns is open, whether the platform admits the
byte or not (20_memory.md R68: of any byte of the range in flight), and else the byte's, if it exists. -/
def readable (s : State) (who : Agent) (a : Nat) : Bool := openTo s who a || byteExists s.cfg a

/-- Every byte of `[a, a + n)` is readable by the agent. -/
def rangeReadable (s : State) (who : Agent) (a n : Nat) : Bool := (List.range n).all (fun i => readable s who (a + i))

/-- An agent reads `n` destination bytes (R97 `ldm`, 20_memory.md R68), all of them in this one step: the spec gives no
granularity, DESIGN CHOICE, unsafe (log 25). A byte that is neither open nor exists stops the read (log 12). Reading
changes nothing but what has been observed and the free values drawn. -/
def agentLoad (s : State) (who : Agent) (a n : Nat) : Host.Outcome State Fault Refusal :=
  if rangeReadable s who a n then
    let r := loadBytes s who a s.fresh n
    .next ((s.withFresh r.2).observe (.bytes who a r.1))
  else .fault (.dstAbsent a)

/-- A write by this agent leaves the byte's value unspecified although the byte is not in flight: the agent is a host
that has not read `BUSY = 0` since (R326; log 26). -/
def storeOpen (s : State) (who : Agent) (a : Nat) : Bool :=
  match who with
  | .host h => unseenBy s h a
  | .other => false

/-- An agent writes a destination byte. A byte in flight is only noted: its value after completion is unspecified
(20_memory.md R68). A byte of an ended range of which the writing host has not read `BUSY = 0` becomes any value
(70_reset_and_hazards.md R326). Any other byte is stored (20_memory.md R71). Where the byte does not exist (R69), it holds
no value to leave open, so the first two writes change nothing, and the third stops (log 12). -/
def agentStore (s : State) (who : Agent) (a : Nat) (b : Byte) : Host.Outcome State Fault Refusal :=
  if byteExists s.cfg a then
    if inFlight s a then .next (s.withTouched (if a ∈ s.touched then s.touched else a :: s.touched))
    else if storeOpen s who a then
      .next ((s.withMem (memWrite s.mem a (Config.freeByte s.fresh))).withFresh (s.fresh + 1))
    else .next (s.withMem (memWrite s.mem a b))
  else if inFlight s a || storeOpen s who a then .next s
  else .fault (.dstAbsent a)

end Sys2Proof.Machine
end

