-- ==== Sys2Proof/Machine/Control.lean ====
section
/-! DEFINITION. The control commands NOP and SELECT (44_control_commands.md). -/
namespace Sys2Proof.Machine

/-- `NOP` (R260): `OVR <- 0`, `ERR <- ERR_OK`, complete at acceptance. -/
def execNop (s : State) : Host.Outcome State Fault Refusal :=
  accept s (fun t => .next (t.withErr .ok))

/-- `AcceptSelect(e)` for a variant that exists (R261): `ERR_CAP` with nothing changed if it is not built in, else
`ENGINE <- e` and `S`, `O`, `C` hold no value, even if `e` was selected already. -/
def acceptSelect (t : State) (v : Variant) : Host.Outcome State Fault Refusal :=
  if supported t.cfg.capMask v then .next (((t.withEngine v).withGen none).withErr .ok)
  else raise t .cap

/-- `SELECT e` (R261). The word with `ENG = 3` is illegal (30_encoding.md R95) and never decodes to this command;
of that ill-formed term the model says what R95 says of the word (log 21). -/
def execSelect (eng : BitVec 2) (s : State) : Host.Outcome State Fault Refusal :=
  accept s (fun t =>
    match Variant.ofId? eng with
    | none => raise t .illegal
    | some v => acceptSelect t v)

end Sys2Proof.Machine
end

