-- ==== Sys2Proof/Machine/Datapath.lean ====
section
/-! DEFINITION. The datapath units and the round function on logical double-lanes (40_datapath_units.md). -/
namespace Sys2Proof.Machine

/-- `WADD(a, b)`: word by word, modulo 2^64 (R120). -/
def wadd (a b : DoubleLane) : DoubleLane := Quad.zipWith (fun x y => x + y) a b

/-- `SHR(a, n)`: word by word, logical (R121). -/
def wshr (a : DoubleLane) (n : Nat) : DoubleLane := Quad.map (fun (x : Word) => x >>> n) a

/-- `XOR(a, b)`: word by word (R122). -/
def wxor (a b : DoubleLane) : DoubleLane := Quad.zipWith (fun x y => x ^^^ y) a b

/-- The half-word view: `h[2j] = w[j][31:0]` and `h[2j+1] = w[j][63:32]` (10_state.md R21). -/
def half (a : DoubleLane) (x : Fin 8) : BitVec 32 :=
  (a.nth ⟨x.val / 2, by omega⟩).extractLsb' (32 * (x.val % 2)) 32

/-- A permutation table: entry i is the source half-word of destination half-word i (R123). -/
abbrev PermTable := Vector (Fin 8) 8

/-- `PERM(a, T)`: the gather `r.h[i] = a.h[T[i]]`, so `r.w[j] = r.h[2j+1] : r.h[2j]` (R123, 90_conflicts.md C1). -/
def perm (a : DoubleLane) (t : PermTable) : DoubleLane :=
  Quad.ofFn (fun j => half a (t[2 * j.val + 1]) ++ half a (t[2 * j.val]))

/-- The table of permutation A (R124). -/
def tableA : PermTable := #v[5, 6, 7, 0, 1, 2, 3, 4]

/-- The table of permutation B (R125). -/
def tableB : PermTable := #v[3, 4, 5, 6, 7, 0, 1, 2]

/-- `PERM_A` (R124). -/
def permA (a : DoubleLane) : DoubleLane := perm a tableA

/-- `PERM_B` (R125). -/
def permB (a : DoubleLane) : DoubleLane := perm a tableB

/-- Counter injection: the counter is added into double-lanes 1 and 3 (R128). -/
def injectCounter (s : Block) (c : DoubleLane) : Block := ⟨s.e0, wadd s.e1 c, s.e2, wadd s.e3 c⟩

/-- Counter advance (R129). -/
def advanceCounter (c : DoubleLane) : DoubleLane := wadd c inc

/-- The shifts of step 3: 1, 3, 1, 3 (R127). -/
def shiftLanes (s : Block) : Block := ⟨wshr s.e0 1, wshr s.e1 3, wshr s.e2 1, wshr s.e3 3⟩

/-- The permutations of step 4: A on double-lanes 0 and 2, B on 1 and 3 (R126). -/
def permLanes (s : Block) : Block := ⟨permA s.e0, permB s.e1, permA s.e2, permB s.e3⟩

/-- `Round(S, C)` (R130), as a step of the generator state. The old pending output is not read (R131). -/
def roundFn (g : GenState) : GenState :=
  let i := injectCounter g.s g.c
  let u := shiftLanes i
  let t := permLanes i
  let n : Block := Quad.zipWith wadd t u
  { s := n
    o := ⟨wxor u.e0 t.e1, wxor u.e2 t.e3, wxor n.e0 n.e3, wxor n.e2 n.e1⟩
    c := advanceCounter g.c }

/-- `LSHUF(O) = (O[3], O[2], O[1], O[0])` (R132). -/
def lshuf (o : Block) : Block := ⟨o.e3, o.e2, o.e1, o.e0⟩

/-- `n` rounds. -/
def rounds (n : Nat) (g : GenState) : GenState :=
  match n with
  | 0 => g
  | n + 1 => rounds n (roundFn g)

/-- One round of diffusion: `Round`, then `S <- LSHUF(O)` (43_initialize.md R235). -/
def diffuseOnce (g : GenState) : GenState :=
  let r := roundFn g
  { r with s := lshuf r.o }

/-- `n` rounds of diffusion. -/
def diffuse (n : Nat) (g : GenState) : GenState :=
  match n with
  | 0 => g
  | n + 1 => diffuse n (diffuseOnce g)

end Sys2Proof.Machine
end

