-- ==== Sys2Proof/Machine/Operands.lean ====
section
/-! DEFINITION. Operand assembly (30_encoding.md R93) and the checks of acceptance on operands (42_generate.md R204, R205). -/
namespace Sys2Proof.Machine

/-- `INIT` samples `SEED0` to `SEED3` into `L.seed` (R93). -/
def initOperands (s : State) : Latch := .init s.seed

/-- `L.nblk = LEN / 128` (R93). -/
def blocksOf (len : Word) : Nat := len.toNat / blockBytes

/-- `GEN` samples `LEN` and `DST_ADDR` into `L.nblk` and `L.dst` (R93). -/
def genOperands (s : State) : Latch := .gen (blocksOf s.len) s.dstAddr

/-- `SKIP` samples `LEN` into `L.nblk` (R93). -/
def skipOperands (s : State) : Latch := .skip (blocksOf s.len)

/-- `LEN mod 128 != 0` (R204). -/
def lenMisshaped (s : State) : Bool := s.len.toNat % blockBytes != 0

/-- `BUF_LEN != LEN` (R204, `GEN` only). -/
def bufMisshaped (s : State) : Bool := s.bufLen != s.len

/-- `DST_ADDR + LEN > 2^PA_WIDTH`, an exact integer sum (R205). -/
def outOfRange (s : State) : Bool := decide (2 ^ s.cfg.paWidth < s.dstAddr.toNat + s.len.toNat)

end Sys2Proof.Machine
end

