-- ==== Sys2Proof/Machine/Generate.lean ====
section
/-! DEFINITION. GEN and SKIP: acceptance and execution (42_generate.md). -/
namespace Sys2Proof.Machine

/-- `AcceptGen()` (R200), the checks in the order of 60_exceptions.md R288. A range that would be written and meets
the engine's own registers is refused (20_memory.md R70; log 10). The range check precedes the zero-length case (log 22). -/
def acceptGen (t : State) : Host.Outcome State Fault Refusal :=
  if !t.stateValid then raise t .noState
  else if lenMisshaped t then raise t .shape
  else if bufMisshaped t then raise t .shape
  else if outOfRange t then raise t .range
  else if t.len = 0#64 then .next (t.withErr .ok)
  else if meetsEngineRegs t.cfg t.dstAddr.toNat t.len.toNat then .refused .rangeMeetsEngineRegisters
  else .next ((t.withErr .ok).withLatch (some (genOperands t)))

/-- `GEN`'s acceptance (R200). -/
def execGen (s : State) : Host.Outcome State Fault Refusal := accept s acceptGen

/-- `AcceptSkip()` (R202). -/
def acceptSkip (t : State) : Host.Outcome State Fault Refusal :=
  if !t.stateValid then raise t .noState
  else if lenMisshaped t then raise t .shape
  else if t.len = 0#64 then .next (t.withErr .ok)
  else .next ((t.withErr .ok).withLatch (some (skipOperands t)))

/-- `SKIP`'s acceptance (R202). -/
def execSkip (s : State) : Host.Outcome State Fault Refusal := accept s acceptSkip

/-- The loop of `ExecGen` over destination memory (R200, R201): for each block, flush the pending output, then run a
round. -/
def genBlocks (nblk a : Nat) (g : GenState) (m : Memory) : Memory :=
  match nblk with
  | 0 => m
  | n + 1 => genBlocks n (a + blockBytes) (roundFn g) (writeBlock m a g.o)

/-- `ExecGen` (R200): all blocks written, then each byte another agent wrote meanwhile is any value (20_memory.md R68),
and to the hosts the range has ended (70_reset_and_hazards.md R326; log 26). -/
def completeGen (nblk : Nat) (dst : Word) (g : GenState) (s : State) : State :=
  { s with
    gen := some (rounds nblk g)
    mem := scrambleEach (genBlocks nblk dst.toNat g s.mem) s.fresh s.touched
    touched := []
    fresh := s.fresh + s.touched.length
    hosts := endRange ⟨dst.toNat, blockBytes * nblk⟩ s.hosts
    latch := none }

/-- `ExecSkip` (R202): the flush suppressed. -/
def completeSkip (nblk : Nat) (g : GenState) (s : State) : State :=
  (s.withGen (some (rounds nblk g))).withLatch none

end Sys2Proof.Machine
end

