-- ==== Sys2Proof/Machine/Initialize.lean ====
section
/-! DEFINITION. INIT: acceptance, seed loading and diffusion (43_initialize.md). -/
namespace Sys2Proof.Machine

/-- `INIT`'s acceptance (R230): the seed words are latched and `BUSY` is set, whatever the state, the seed and the
variant. -/
def execInit (s : State) : Host.Outcome State Fault Refusal :=
  accept s (fun t => .next ((t.withErr .ok).withLatch (some (initOperands t))))

/-- One word of `SeedState`: the constant, XORed with the seed word the map names (R231). -/
def seedWord (seed : Quad Word) (m : Option (Fin 4)) (phi : Word) : Word :=
  match m with
  | none => phi
  | some i => phi ^^^ seed.nth i

/-- `SeedState(seed)` (R231, R233). -/
def seedState (c : Config) (seed : Quad Word) : Block :=
  Quad.zipWith (Quad.zipWith (seedWord seed)) c.seedMap c.phi

/-- The generator state before diffusion: the seeded words, `O` zero, `C = C_INIT` (R230, R234). -/
def seededState (c : Config) (seed : Quad Word) : GenState where
  s := seedState c seed
  o := Quad.replicate (Quad.replicate 0#64)
  c := cInit

/-- The state `ExecInit` builds from the latched seed: 13 rounds of diffusion (R230, R235). -/
def initState (c : Config) (seed : Quad Word) : GenState := diffuse roundsInit (seededState c seed)

/-- `ExecInit` (R230). -/
def completeInit (seed : Quad Word) (s : State) : State :=
  (s.withGen (some (initState s.cfg seed))).withLatch none

end Sys2Proof.Machine
end

