-- ==== Sys2Proof/Machine/Dispatch.lean ====
section
/-! DEFINITION. One arm per command: what a CMD write of its word does (30_encoding.md R96). -/
namespace Sys2Proof.Machine

def exec (i : Instr) (s : State) : Host.Outcome State Fault Refusal :=
  match i with
  | .nop => Sys2Proof.Machine.execNop s
  | .init => Sys2Proof.Machine.execInit s
  | .gen => Sys2Proof.Machine.execGen s
  | .skip => Sys2Proof.Machine.execSkip s
  | .select eng => Sys2Proof.Machine.execSelect eng s

end Sys2Proof.Machine
end

