-- ==== Sys2Proof/Machine/Engine.lean ====
section
/-! DEFINITION. The engine's own step: completion of the long command in flight (60_exceptions.md R289). -/
namespace Sys2Proof.Machine

/-- The engine has a completion step: a long command is in flight (R289), and if it is a `GEN`, every byte of its
range exists (20_memory.md R69; log 9). -/
def engineEnabled (s : State) : Bool :=
  match s.latch with
  | none => false
  | some (.gen nblk dst) => rangeExists s.cfg dst.toNat (blockBytes * nblk)
  | some (.init _) => true
  | some (.skip _) => true

/-- The completion step: the whole of `Exec*` at once (R289, R73; log 14). -/
def complete (s : State) : Host.Outcome State Fault Refusal :=
  match s.latch with
  | none => .next s
  | some (.init seed) => .next (completeInit seed s)
  | some (.gen nblk dst) =>
    match s.gen with
    | none => .fault .stateHoldsNoValue
    | some g => .next (completeGen nblk dst g s)
  | some (.skip nblk) =>
    match s.gen with
    | none => .fault .stateHoldsNoValue
    | some g => .next (completeSkip nblk g s)

/-- The engine's turn: its completion step if it has one, else nothing. -/
def engineTurn (s : State) : Host.Outcome State Fault Refusal :=
  if engineEnabled s then complete s else .next s

end Sys2Proof.Machine
end

