-- ==== Sys2Proof/Machine/Flags.lean ====
section
/-! DEFINITION. The status fields and the register window as the host sees them (10_state.md R32 to R40): every flag
is computed here. -/
namespace Sys2Proof.Machine

/-- The code in `STATUS.ERR` (60_exceptions.md R281). -/
def ErrCode.code : ErrCode → BitVec 4
  | .ok => 0#4
  | .illegal => 1#4
  | .shape => 2#4
  | .cap => 3#4
  | .noState => 4#4
  | .range => 5#4

/-- `STATUS` (R34): `BUSY` bit 0, `VALID` bit 1, `OVR` bit 2, bit 3 reads 0, `ERR` bits 7:4, `ENGINE` bits 9:8,
bits 63:10 read 0. -/
def statusWord (s : State) : Word :=
  0#54 ++ s.engine.id ++ s.err.code ++ 0#1 ++ BitVec.ofBool s.ovr ++ BitVec.ofBool s.stateValid ++ BitVec.ofBool s.busy

/-- `CAP` (R35): `zext_64(CAP_MASK)`. -/
def capWord (s : State) : Word := s.cfg.capMask.setWidth 64

/-- A 64-bit read at an aligned offset (R32): no side effect; `CMD` and the reserved offsets read 0 (R33, R40). -/
def readReg (s : State) (off : BitVec 8) : Word :=
  if off = 0x08#8 then statusWord s
  else if off = 0x10#8 then capWord s
  else if off = 0x20#8 then s.seed.e0
  else if off = 0x28#8 then s.seed.e1
  else if off = 0x30#8 then s.seed.e2
  else if off = 0x38#8 then s.seed.e3
  else if off = 0x40#8 then s.len
  else if off = 0x48#8 then s.bufLen
  else if off = 0x50#8 then s.dstAddr
  else 0#64

/-- A 64-bit write at an aligned offset other than `CMD` (R32): it stores the value, or is ignored at the read-only
and reserved offsets (R34, R35, R40). -/
def writeReg (s : State) (off : BitVec 8) (v : Word) : State :=
  if off = 0x20#8 then s.withSeed { s.seed with e0 := v }
  else if off = 0x28#8 then s.withSeed { s.seed with e1 := v }
  else if off = 0x30#8 then s.withSeed { s.seed with e2 := v }
  else if off = 0x38#8 then s.withSeed { s.seed with e3 := v }
  else if off = 0x40#8 then s.withLen v
  else if off = 0x48#8 then s.withBufLen v
  else if off = 0x50#8 then s.withDstAddr v
  else s

/-- The window offset of a host address, if it lies in the 256 bytes at `BASE` (R32). `BASE` is 256-byte aligned
(R6), so the window does not wrap. The difference is taken modulo 2^64, as host addresses have 64 bits: DESIGN CHOICE,
unsafe (log 24). -/
def windowOffset? (c : Config) (addr : Word) : Option (BitVec 8) :=
  if addr - c.base < 256#64 then some ((addr - c.base).setWidth 8) else none

/-- A register access is 64-bit and 8-byte aligned (20_memory.md R61). -/
def accessOk (bytes : Nat) (off : BitVec 8) : Bool := bytes == 8 && off.extractLsb' 0 3 == 0#3

end Sys2Proof.Machine
end

