-- ==== Sys2Proof/Machine/HostPort.lean ====
section
/-! DEFINITION. The agents' turns: the host's accesses to the window and to destination memory (20_memory.md R61, R71,
30_encoding.md R97, R99), and whose turn it is (60_exceptions.md R289, R295). -/
namespace Sys2Proof.Machine

/-- Acceptance of a `CMD` write of value v (30_encoding.md R96): the decoded command, or an illegal word. -/
def cmdWrite (v : Word) (s : State) : Host.Outcome State Fault Refusal :=
  match decode v with
  | .ok i => exec i s
  | .error _ => acceptIllegal s

/-- A 64-bit write at an aligned window offset (R61, R71): `CMD` issues a command, every other offset only stores. -/
def windowWrite (off : BitVec 8) (v : Word) (s : State) : Host.Outcome State Fault Refusal :=
  if off = 0x00#8 then cmdWrite v s else .next (writeReg s off v)

/-- A 64-bit read at an aligned window offset by host `h` (R61, R71): the engine is unchanged, and a host that reads
`BUSY = 0` in `STATUS` has seen that `GEN`s have ended (70_reset_and_hazards.md R326). -/
def windowRead (h : Nat) (off : BitVec 8) (s : State) : State :=
  (if off = 0x08#8 then s.seeStatus h else s).observe (.reg h off (readReg s off))

/-- A fault of host `h` is recorded with it, and no engine state and no other host changes (60_exceptions.md R297). -/
def recordFault (h : Nat) (f : HostFault) (s : State) : State := s.setHost h { s.host h with fault := some f }

/-- A write of `bytes` bytes at a host address by host `h` (R61): in the window a command, a register write or a bus
error. An address outside the window is another device's (log 15). -/
def hostWrite (h bytes : Nat) (addr v : Word) (s : State) : Host.Outcome State Fault Refusal :=
  match windowOffset? s.cfg addr with
  | none => .refused (.outsideWindow addr)
  | some off => if accessOk bytes off then windowWrite off v s else .next (recordFault h (.busError bytes off) s)

/-- A read of `bytes` bytes at a host address by host `h` (R61). -/
def hostRead (h bytes : Nat) (addr : Word) (s : State) : Host.Outcome State Fault Refusal :=
  match windowOffset? s.cfg addr with
  | none => .refused (.outsideWindow addr)
  | some off => .next (if accessOk bytes off then windowRead h off s else recordFault h (.busError bytes off) s)

/-- `poll` (30_encoding.md R97): one `ld STATUS`; while it reads `BUSY = 1` the line is repeated (log 17). -/
def hostPoll (h : Nat) (s : State) : State :=
  let t := windowRead h 0x08#8 s
  if s.busy then t.setHost h { t.host h with prog := .poll :: (t.host h).prog } else t

/-- `check_err C` (30_encoding.md R99): `ld STATUS`; another code in bits 7:4 and the program fails (log 17). -/
def hostCheckErr (h : Nat) (code : BitVec 4) (s : State) : State :=
  let t := windowRead h 0x08#8 s
  if (statusWord s).extractLsb' 4 4 = code then t
  else recordFault h (.checkFailed code ((statusWord s).extractLsb' 4 4)) t

/-- `HOST_FENCE` by host `h` (20_memory.md R74): its reads from now on come after its reads of `STATUS` so far. -/
def hostFence (h : Nat) (s : State) : State := s.setHost h { s.host h with unfenced := [] }

/-- One access of host `h`, already taken off its program. -/
def hostOp (h : Nat) (op : HostOp) (s : State) : Host.Outcome State Fault Refusal :=
  match op with
  | .write bytes addr v => hostWrite h bytes addr v s
  | .read bytes addr => hostRead h bytes addr s
  | .loadMem addr n => agentLoad s (.host h) addr n
  | .storeMem addr b => agentStore s (.host h) addr b
  | .poll => .next (hostPoll h s)
  | .checkErr code => .next (hostCheckErr h code s)
  | .fence => .next (hostFence h s)

/-- Host `h`'s turn: its next access (20_memory.md R72), or nothing when its program is done. A host with a recorded
fault has stopped (60_exceptions.md R297; log 11); the other hosts go on. -/
def hostTurn (h : Nat) (s : State) : Host.Outcome State Fault Refusal :=
  match (s.host h).prog with
  | [] => .next s
  | op :: rest =>
    match (s.host h).fault with
    | some _ => .fault .hostStopped
    | none => hostOp h op (s.setHost h { s.host h with prog := rest })

/-- One turn. -/
def takeTurn (t : Turn) (s : State) : Host.Outcome State Fault Refusal :=
  match t with
  | .host h => hostTurn h s
  | .engine => engineTurn s
  | .reset => .next (applyReset s)
  | .otherWrite addr b => agentStore s .other addr b
  | .otherRead addr n => agentLoad s .other addr n

/-- A host that has an access to make and has not stopped. -/
def canMove (a : HostAgent) : Bool := !a.prog.isEmpty && a.fault.isNone

/-- The first host that can move, else host 0 (log 1). -/
def firstHost (l : List HostAgent) : Nat := if l.any canMove then l.findIdx canMove else 0

/-- Whose turn it is when the schedule is empty: the engine's if it can complete (weak fairness, R289, R330), else the
first host's that can move (log 1). -/
def defaultTurn (s : State) : Turn := if engineEnabled s then .engine else .host (firstHost s.hosts)

/-- The next turn and the state it finds. -/
def nextTurn (s : State) : Turn × State :=
  match s.sched with
  | [] => (defaultTurn s, s)
  | t :: rest => (t, s.withSched rest)

/-- The host access that issues a command word: a 64-bit write of `CMD` at `BASE` (10_state.md R33). -/
def commandOp (c : Config) (v : Word) : HostOp := .write 8 c.base v

/-- The state in which host 0's very next access, now, is the `CMD` write of the word (log 2). -/
def issueNext (s : State) (v : Word) : State :=
  (s.setHost 0 { s.host 0 with prog := commandOp s.cfg v :: (s.host 0).prog, fault := none }).withSched
    (.host 0 :: s.sched)

end Sys2Proof.Machine
end

