-- ==== Sys2Proof/Machine/Step.lean ====
section
/-! DEFINITION. One step of the machine: one turn of one agent (60_exceptions.md R289, R295). -/
namespace Sys2Proof.Machine

/-- One step: the next turn of the schedule. -/
def step (s : State) : Host.Outcome State Fault Refusal := takeTurn (nextTurn s).1 (nextTurn s).2

/-- The state whose very next step is the host's `CMD` write of the `nbits`-bit word `w` (log 2). -/
def State.withFetchWord (s : State) (nbits w : Nat) : State := issueNext s (BitVec.ofNat 64 (w % 2 ^ nbits))

end Sys2Proof.Machine
end

