-- ==== Sys2Proof/Machine/HostProgram.lean ====
section
/-! DEFINITION. The host's assembly syntax: lines, command mnemonics and pseudo-instructions with their exact
expansions (30_encoding.md R97 to R99). -/
namespace Sys2Proof.Machine

/-- Offsets by name (R97). -/
def offCmd : BitVec 8 := 0x00#8
def offStatus : BitVec 8 := 0x08#8
def offCap : BitVec 8 := 0x10#8
def offSeed (i : Fin 4) : BitVec 8 := 0x20#8 + 8#8 * BitVec.ofNat 8 i.val
def offLen : BitVec 8 := 0x40#8
def offBufLen : BitVec 8 := 0x48#8
def offDstAddr : BitVec 8 := 0x50#8

/-- `sd OFF, V`: a 64-bit host write of V to `BASE + OFF` (R97). -/
def sd (c : Config) (off : BitVec 8) (v : Word) : HostOp := .write 8 (c.base + off.setWidth 64) v

/-- `ld OFF`: a 64-bit host read of `BASE + OFF` (R97). -/
def ld (c : Config) (off : BitVec 8) : HostOp := .read 8 (c.base + off.setWidth 64)

/-- `ldm A, N` (R97). -/
def ldm (a n : Nat) : HostOp := .loadMem a n

/-- `cmd M` means `sd CMD, <word of M>` (R98). -/
def cmd (c : Config) (i : Instr) : HostOp := sd c offCmd (encode i)

/-- `seed a, b, c, d` (R99). -/
def pseudoSeed (c : Config) (x : Quad Word) : List HostOp :=
  [sd c (offSeed 0) x.e0, sd c (offSeed 1) x.e1, sd c (offSeed 2) x.e2, sd c (offSeed 3) x.e3]

/-- `do_init a, b, c, d` (R99). -/
def pseudoDoInit (c : Config) (x : Quad Word) : List HostOp := pseudoSeed c x ++ [cmd c .init, .poll]

/-- `do_gen A, N` (R99). -/
def pseudoDoGen (c : Config) (a n : Word) : List HostOp :=
  [sd c offLen n, sd c offBufLen n, sd c offDstAddr a, cmd c .gen, .poll]

/-- `do_skip N` (R99). -/
def pseudoDoSkip (c : Config) (n : Word) : List HostOp := [sd c offLen n, cmd c .skip, .poll]

/-- `do_select E` (R99): no `poll`. -/
def pseudoDoSelect (c : Config) (v : Variant) : List HostOp := [cmd c (.select v.id)]

/-- `check_err C` (R99). -/
def pseudoCheckErr (code : BitVec 4) : List HostOp := [.checkErr code]

end Sys2Proof.Machine
end

