-- ==== Sys2Proof/Machine/Variants.lean ====
section
/-! DEFINITION. The physical registers and datapaths of the three variants (10_state.md R28 to R31,
41_engine_variants.md R161 to R171, R173). They equal the logical state at every step boundary and are not architectural
between (R31, U5), so they are views of the logical state and take no storage (log 20). -/
namespace Sys2Proof.Machine

-- V256 (R28, R162 to R164)

/-- The nine 256-bit registers of `V256` (R28). -/
structure V256Regs where
  ps : Vector (BitVec 256) 4
  po : Vector (BitVec 256) 4
  pc : BitVec 256
  deriving DecidableEq, Repr

/-- Bits `[64j+63:64j]` of a 256-bit register are word j (R28). -/
def pack256 (d : DoubleLane) : BitVec 256 := d.e3 ++ d.e2 ++ d.e1 ++ d.e0

/-- Word j of a 256-bit register (R28). -/
def word256 (a : BitVec 256) (j : Nat) : Word := a.extractLsb' (64 * j) 64

/-- The double-lane a 256-bit register holds (R28). -/
def unpack256 (a : BitVec 256) : DoubleLane := Quad.ofFn (fun j => word256 a j.val)

/-- The 32-bit element i of a 256-bit register (R28). -/
def elem256 (a : BitVec 256) (i : Nat) : BitVec 32 := a.extractLsb' (32 * i) 32

/-- Eight 32-bit elements, element 0 in the low bits. -/
def join256 (f : Fin 8 → BitVec 32) : BitVec 256 := f 7 ++ f 6 ++ f 5 ++ f 4 ++ f 3 ++ f 2 ++ f 1 ++ f 0

/-- Element-wise on the four 64-bit elements: `+64x4` is `lanes256` of `+64` (R162, R163). -/
def lanes256 (f : Word → Word → Word) (a b : BitVec 256) : BitVec 256 :=
  pack256 (Quad.ofFn (fun j => f (word256 a j.val) (word256 b j.val)))

/-- `VPERM32(a, idx)`: a gather of eight 32-bit elements by a register-held index vector (R162). -/
def vperm32 (a idx : BitVec 256) : BitVec 256 := join256 (fun i => elem256 a ((elem256 idx i.val).toNat % 8))

/-- `IDX_A` (R162): elements (5,6,7,0,1,2,3,4). -/
def idxA : BitVec 256 := join256 (fun i => #v[5#32, 6#32, 7#32, 0#32, 1#32, 2#32, 3#32, 4#32][i])

/-- `IDX_B` (R162): elements (3,4,5,6,7,0,1,2). -/
def idxB : BitVec 256 := join256 (fun i => #v[3#32, 4#32, 5#32, 6#32, 7#32, 0#32, 1#32, 2#32][i])

/-- `PINC` (R163). -/
def pinc256 : BitVec 256 := pack256 inc

/-- The shift of a double-lane's register by n on its four 64-bit elements (R162). -/
def shr256 (a : BitVec 256) (n : Nat) : BitVec 256 := lanes256 (fun x _ => x >>> n) a a

/-- `+64x4` (R163). -/
def add256 (a b : BitVec 256) : BitVec 256 := lanes256 (fun x y => x + y) a b

/-- Exclusive OR on the four 64-bit elements (R162). -/
def xor256 (a b : BitVec 256) : BitVec 256 := lanes256 (fun x y => x ^^^ y) a b

/-- Counter injection `PS[1] <- PS[1] +64x4 PC`, `PS[3] <- PS[3] +64x4 PC` (R163). -/
def injectV256 (r : V256Regs) : V256Regs :=
  { r with ps := #v[r.ps[0], add256 r.ps[1] r.pc, r.ps[2], add256 r.ps[3] r.pc] }

/-- Counter advance `PC <- PC +64x4 PINC` (R163). -/
def advanceV256 (r : V256Regs) : V256Regs := { r with pc := add256 r.pc pinc256 }

/-- One round on the `V256` registers (R163, R164). -/
def roundV256 (r : V256Regs) : V256Regs :=
  let i := injectV256 r
  let s0 := i.ps[0]
  let s1 := i.ps[1]
  let s2 := i.ps[2]
  let s3 := i.ps[3]
  let u0 := shr256 s0 1
  let u1 := shr256 s1 3
  let u2 := shr256 s2 1
  let u3 := shr256 s3 3
  let t0 := vperm32 s0 idxA
  let t1 := vperm32 s1 idxB
  let t2 := vperm32 s2 idxA
  let t3 := vperm32 s3 idxB
  let n0 := add256 t0 u0
  let n1 := add256 t1 u1
  let n2 := add256 t2 u2
  let n3 := add256 t3 u3
  { ps := #v[n0, n1, n2, n3]
    po := #v[xor256 u0 t1, xor256 u2 t3, xor256 n0 n3, xor256 n2 n1]
    pc := (advanceV256 r).pc }

/-- The diffusion shuffle `PS[k] <- PO[3-k]` (R164). -/
def shuffleV256 (r : V256Regs) : V256Regs :=
  { r with ps := Vector.ofFn (fun k : Fin 4 => r.po[3 - k.val]) }

/-- The `V256` registers of a logical state (R28). -/
def layoutV256 (g : GenState) : V256Regs where
  ps := Vector.ofFn (fun k : Fin 4 => pack256 (g.s.nth k))
  po := Vector.ofFn (fun k : Fin 4 => pack256 (g.o.nth k))
  pc := pack256 g.c

/-- The logical state the `V256` registers hold (R28). -/
def logicalV256 (r : V256Regs) : GenState where
  s := Quad.ofFn (fun k => unpack256 r.ps[k])
  o := Quad.ofFn (fun k => unpack256 r.po[k])
  c := unpack256 r.pc

/-- The 128 bytes `V256` flushes: each register of `PO` least significant byte first (20_memory.md R62). -/
def flushV256 (r : V256Regs) : List Byte :=
  r.po.toList.flatMap (fun a => (List.range 32).map (fun i => a.extractLsb' (8 * i) 8))

-- V128 (R29, R165 to R168)

/-- The eighteen 128-bit registers of `V128` (R29). -/
structure V128Regs where
  ps : Vector (BitVec 128) 8
  po : Vector (BitVec 128) 8
  pc : Vector (BitVec 128) 2
  deriving DecidableEq, Repr

/-- Half q of a double-lane: q = 0 is `w[1] : w[0]`, q = 1 is `w[3] : w[2]` (R29). -/
def half128 (d : DoubleLane) (q : Nat) : BitVec 128 := if q = 0 then d.e1 ++ d.e0 else d.e3 ++ d.e2

/-- 64-bit element j of a 128-bit register (R168). -/
def word128 (a : BitVec 128) (j : Nat) : Word := a.extractLsb' (64 * j) 64

/-- The double-lane whose halves are `lo` and `hi`: word j is element `j mod 2` of half `j div 2` (R29, R168). -/
def join128 (lo hi : BitVec 128) : DoubleLane := ⟨word128 lo 0, word128 lo 1, word128 hi 0, word128 hi 1⟩

/-- Element-wise on the two 64-bit elements (R168). -/
def lanes128 (f : Word → Word → Word) (a b : BitVec 128) : BitVec 128 :=
  f (word128 a 1) (word128 b 1) ++ f (word128 a 0) (word128 b 0)

/-- `ALIGNR(a, b, n) = ((a : b) >> (8n))[127:0]` (R165). -/
def alignr (a b : BitVec 128) (n : Nat) : BitVec 128 := ((a ++ b) >>> (8 * n)).setWidth 128

/-- Permutation A on (lo, hi) (R166). -/
def permA128 (lo hi : BitVec 128) : BitVec 128 × BitVec 128 := (alignr lo hi 4, alignr hi lo 4)

/-- Permutation B on (lo, hi) (R167). -/
def permB128 (lo hi : BitVec 128) : BitVec 128 × BitVec 128 := (alignr hi lo 12, alignr lo hi 12)

/-- Element-wise addition (R168). -/
def add128 (a b : BitVec 128) : BitVec 128 := lanes128 (fun x y => x + y) a b

/-- Element-wise exclusive OR (R168). -/
def xor128 (a b : BitVec 128) : BitVec 128 := lanes128 (fun x y => x ^^^ y) a b

/-- Element-wise logical shift (R168). -/
def shr128 (a : BitVec 128) (n : Nat) : BitVec 128 := lanes128 (fun x _ => x >>> n) a a

/-- Both halves alike. -/
def both128 (f : BitVec 128 → BitVec 128 → BitVec 128) (a b : BitVec 128 × BitVec 128) : BitVec 128 × BitVec 128 :=
  (f a.1 b.1, f a.2 b.2)

/-- `PINC[0]` has elements (7, 5) and `PINC[1]` has elements (3, 1) (R168). -/
def pinc128 : Vector (BitVec 128) 2 := #v[half128 inc 0, half128 inc 1]

/-- Counter injection `PS[2] += PC[0]`, `PS[3] += PC[1]`, `PS[6] += PC[0]`, `PS[7] += PC[1]` (R168). -/
def injectV128 (r : V128Regs) : V128Regs :=
  { r with ps := #v[r.ps[0], r.ps[1], add128 r.ps[2] r.pc[0], add128 r.ps[3] r.pc[1],
                    r.ps[4], r.ps[5], add128 r.ps[6] r.pc[0], add128 r.ps[7] r.pc[1]] }

/-- Counter advance `PC[0] += PINC[0]`, `PC[1] += PINC[1]` (R168). -/
def advanceV128 (r : V128Regs) : V128Regs :=
  { r with pc := #v[add128 r.pc[0] pinc128[0], add128 r.pc[1] pinc128[1]] }

/-- One round on the `V128` registers, each double-lane a pair of halves (R166 to R168). -/
def roundV128 (r : V128Regs) : V128Regs :=
  let i := injectV128 r
  let s0 := (i.ps[0], i.ps[1])
  let s1 := (i.ps[2], i.ps[3])
  let s2 := (i.ps[4], i.ps[5])
  let s3 := (i.ps[6], i.ps[7])
  let u0 := (shr128 s0.1 1, shr128 s0.2 1)
  let u1 := (shr128 s1.1 3, shr128 s1.2 3)
  let u2 := (shr128 s2.1 1, shr128 s2.2 1)
  let u3 := (shr128 s3.1 3, shr128 s3.2 3)
  let t0 := permA128 s0.1 s0.2
  let t1 := permB128 s1.1 s1.2
  let t2 := permA128 s2.1 s2.2
  let t3 := permB128 s3.1 s3.2
  let n0 := both128 add128 t0 u0
  let n1 := both128 add128 t1 u1
  let n2 := both128 add128 t2 u2
  let n3 := both128 add128 t3 u3
  let o0 := both128 xor128 u0 t1
  let o1 := both128 xor128 u2 t3
  let o2 := both128 xor128 n0 n3
  let o3 := both128 xor128 n2 n1
  { ps := #v[n0.1, n0.2, n1.1, n1.2, n2.1, n2.2, n3.1, n3.2]
    po := #v[o0.1, o0.2, o1.1, o1.2, o2.1, o2.2, o3.1, o3.2]
    pc := (advanceV128 r).pc }

/-- The diffusion shuffle `PS[2k+q] <- PO[2(3-k)+q]` (R168). -/
def shuffleV128 (r : V128Regs) : V128Regs :=
  { r with ps := Vector.ofFn (fun p : Fin 8 => r.po[2 * (3 - p.val / 2) + p.val % 2]) }

/-- The `V128` registers of a logical state (R29). -/
def layoutV128 (g : GenState) : V128Regs where
  ps := Vector.ofFn (fun p : Fin 8 => half128 (g.s.nth ⟨p.val / 2, by omega⟩) (p.val % 2))
  po := Vector.ofFn (fun p : Fin 8 => half128 (g.o.nth ⟨p.val / 2, by omega⟩) (p.val % 2))
  pc := Vector.ofFn (fun q : Fin 2 => half128 g.c q.val)

/-- The logical state the `V128` registers hold (R29). -/
def logicalV128 (r : V128Regs) : GenState where
  s := Quad.ofFn (fun k => join128 r.ps[2 * k.val] r.ps[2 * k.val + 1])
  o := Quad.ofFn (fun k => join128 r.po[2 * k.val] r.po[2 * k.val + 1])
  c := join128 r.pc[0] r.pc[1]

/-- The 128 bytes `V128` flushes: each register of `PO` least significant byte first (20_memory.md R62). -/
def flushV128 (r : V128Regs) : List Byte :=
  r.po.toList.flatMap (fun a => (List.range 16).map (fun i => a.extractLsb' (8 * i) 8))

-- SCALAR (R30, R169 to R171)

/-- The thirty-six 64-bit registers of `SCALAR` (R30). -/
structure ScalarRegs where
  ps : Vector Word 16
  po : Vector Word 16
  pc : Vector Word 4
  deriving DecidableEq, Repr

/-- `half(a, x) = (a.w[x >> 1] >> (32 * (x & 1))) & 0xFFFFFFFF` (R169), as a 64-bit word. -/
def halfScalar (a : Vector Word 4) (x : Fin 8) : Word :=
  (a[x.val >>> 1]'(by have := x.isLt; rw [Nat.shiftRight_eq_div_pow]; omega) >>> (32 * (x.val &&& 1))) &&& 0xFFFFFFFF#64

/-- The generic form: a table of 8 source half-word indices and 32-bit recombination (R169). -/
def permScalar (a : Vector Word 4) (t : PermTable) : Vector Word 4 :=
  Vector.ofFn (fun j : Fin 4 => halfScalar a (t[2 * j.val]) ||| (halfScalar a (t[2 * j.val + 1]) <<< 32))

/-- The specialised form: `(a.w[(j+d) mod 4] >> 32) | (a.w[(j+d+1) mod 4] << 32)`, with d = 2 for `PERM_A` and d = 1
for `PERM_B` (R169). -/
def permSpecialised (a : Vector Word 4) (d : Nat) : Vector Word 4 :=
  Vector.ofFn (fun j : Fin 4 =>
    (a[(j.val + d) % 4]'(Nat.mod_lt _ (by decide)) >>> 32) ||| (a[(j.val + d + 1) % 4]'(Nat.mod_lt _ (by decide)) <<< 32))

/-- The four words of a double-lane (R30). -/
def wordsScalar (a : DoubleLane) : Vector Word 4 := Vector.ofFn (fun j : Fin 4 => a.nth j)

/-- Words 4k to 4k+3 of sixteen. -/
def laneScalar (p : Vector Word 16) (k : Fin 4) : Vector Word 4 := Vector.ofFn (fun j : Fin 4 => p[4 * k.val + j.val])

/-- Word by word. -/
def zipScalar (f : Word → Word → Word) (a b : Vector Word 4) : Vector Word 4 :=
  Vector.ofFn (fun j : Fin 4 => f a[j] b[j])

/-- Four lanes as sixteen words. -/
def joinScalar (l0 l1 l2 l3 : Vector Word 4) : Vector Word 16 := l0 ++ l1 ++ l2 ++ l3

/-- `INC[j]` (R170). -/
def pincScalar : Vector Word 4 := Vector.ofFn (fun j : Fin 4 => inc.nth j)

/-- Counter injection `PS[4+j] += PC[j]`, `PS[12+j] += PC[j]` (R170). -/
def injectScalar (r : ScalarRegs) : ScalarRegs :=
  { r with ps := joinScalar (laneScalar r.ps 0) (zipScalar (fun x y => x + y) (laneScalar r.ps 1) r.pc)
                   (laneScalar r.ps 2) (zipScalar (fun x y => x + y) (laneScalar r.ps 3) r.pc) }

/-- Counter advance `PC[j] += INC[j]` (R170). -/
def advanceScalar (r : ScalarRegs) : ScalarRegs :=
  { r with pc := zipScalar (fun x y => x + y) r.pc pincScalar }

/-- One round on the `SCALAR` registers (R169, R170). -/
def roundScalar (r : ScalarRegs) : ScalarRegs :=
  let i := injectScalar r
  let s0 := laneScalar i.ps 0
  let s1 := laneScalar i.ps 1
  let s2 := laneScalar i.ps 2
  let s3 := laneScalar i.ps 3
  let u0 := zipScalar (fun x _ => x >>> 1) s0 s0
  let u1 := zipScalar (fun x _ => x >>> 3) s1 s1
  let u2 := zipScalar (fun x _ => x >>> 1) s2 s2
  let u3 := zipScalar (fun x _ => x >>> 3) s3 s3
  let t0 := permScalar s0 tableA
  let t1 := permScalar s1 tableB
  let t2 := permScalar s2 tableA
  let t3 := permScalar s3 tableB
  let n0 := zipScalar (fun x y => x + y) t0 u0
  let n1 := zipScalar (fun x y => x + y) t1 u1
  let n2 := zipScalar (fun x y => x + y) t2 u2
  let n3 := zipScalar (fun x y => x + y) t3 u3
  { ps := joinScalar n0 n1 n2 n3
    po := joinScalar (zipScalar (fun x y => x ^^^ y) u0 t1) (zipScalar (fun x y => x ^^^ y) u2 t3)
            (zipScalar (fun x y => x ^^^ y) n0 n3) (zipScalar (fun x y => x ^^^ y) n2 n1)
    pc := (advanceScalar r).pc }

/-- The diffusion shuffle `PS[4k+j] <- PO[4(3-k)+j]` (R171). -/
def shuffleScalar (r : ScalarRegs) : ScalarRegs :=
  { r with ps := Vector.ofFn (fun p : Fin 16 => r.po[4 * (3 - p.val / 4) + p.val % 4]) }

/-- The `SCALAR` registers of a logical state (R30). -/
def layoutScalar (g : GenState) : ScalarRegs where
  ps := Vector.ofFn (fun p : Fin 16 => (g.s.nth ⟨p.val / 4, by omega⟩).nth ⟨p.val % 4, by omega⟩)
  po := Vector.ofFn (fun p : Fin 16 => (g.o.nth ⟨p.val / 4, by omega⟩).nth ⟨p.val % 4, by omega⟩)
  pc := Vector.ofFn (fun j : Fin 4 => g.c.nth j)

/-- The logical state the `SCALAR` registers hold (R30). -/
def logicalScalar (r : ScalarRegs) : GenState where
  s := Quad.ofFn (fun k => Quad.ofFn (fun j => r.ps[4 * k.val + j.val]))
  o := Quad.ofFn (fun k => Quad.ofFn (fun j => r.po[4 * k.val + j.val]))
  c := Quad.ofFn (fun j => r.pc[j])

/-- The 128 bytes `SCALAR` flushes: each word of `PO` least significant byte first (20_memory.md R62). -/
def flushScalar (r : ScalarRegs) : List Byte := r.po.toList.flatMap (bytesLE 8)

-- What R173 asks of the three datapaths

/-- R173, first point: `V128.PERM_A(lo(a), hi(a)) = (lo(PERM_A a), hi(PERM_A a))`, and likewise for `PERM_B`. -/
def permsAgreeV128 (a : DoubleLane) : Prop :=
  permA128 (half128 a 0) (half128 a 1) = (half128 (permA a) 0, half128 (permA a) 1)
    ∧ permB128 (half128 a 0) (half128 a 1) = (half128 (permB a) 0, half128 (permB a) 1)

/-- R173, second point: in the 16-word layout of `SCALAR`, both forms of R169 on the words of double-lane k give the words
of `PERM_A` and of `PERM_B` of that double-lane. -/
def permsAgreeScalar (g : GenState) (k : Fin 4) : Prop :=
  let a := laneScalar (layoutScalar g).ps k
  permScalar a tableA = wordsScalar (permA (g.s.nth k)) ∧ permScalar a tableB = wordsScalar (permB (g.s.nth k))
    ∧ permSpecialised a 2 = wordsScalar (permA (g.s.nth k)) ∧ permSpecialised a 1 = wordsScalar (permB (g.s.nth k))

/-- The gathers of `V256` by its index vectors give the register of the permuted double-lane (R162). -/
def permsAgreeV256 (a : DoubleLane) : Prop :=
  vperm32 (pack256 a) idxA = pack256 (permA a) ∧ vperm32 (pack256 a) idxB = pack256 (permB a)

/-- R173, third point: counter injection, counter advance and diffusion shuffle commute with the layout map of `V256`. -/
def reindexingsCommuteV256 (g : GenState) : Prop :=
  injectV256 (layoutV256 g) = layoutV256 { g with s := injectCounter g.s g.c }
    ∧ advanceV256 (layoutV256 g) = layoutV256 { g with c := advanceCounter g.c }
    ∧ shuffleV256 (layoutV256 g) = layoutV256 { g with s := lshuf g.o }

/-- R173, third point, for `V128`. -/
def reindexingsCommuteV128 (g : GenState) : Prop :=
  injectV128 (layoutV128 g) = layoutV128 { g with s := injectCounter g.s g.c }
    ∧ advanceV128 (layoutV128 g) = layoutV128 { g with c := advanceCounter g.c }
    ∧ shuffleV128 (layoutV128 g) = layoutV128 { g with s := lshuf g.o }

/-- R173, third point, for `SCALAR`. -/
def reindexingsCommuteScalar (g : GenState) : Prop :=
  injectScalar (layoutScalar g) = layoutScalar { g with s := injectCounter g.s g.c }
    ∧ advanceScalar (layoutScalar g) = layoutScalar { g with c := advanceCounter g.c }
    ∧ shuffleScalar (layoutScalar g) = layoutScalar { g with s := lshuf g.o }

-- The active variant (R31)

/-- The physical registers of one variant. -/
inductive Physical where
  | scalar (r : ScalarRegs)
  | v128 (r : V128Regs)
  | v256 (r : V256Regs)
  deriving DecidableEq, Repr

/-- The layout of a variant (R28 to R30). -/
def layout (v : Variant) (g : GenState) : Physical :=
  match v with
  | .scalar => .scalar (layoutScalar g)
  | .v128 => .v128 (layoutV128 g)
  | .v256 => .v256 (layoutV256 g)

/-- One round on the physical registers. -/
def roundPhysical (p : Physical) : Physical :=
  match p with
  | .scalar r => .scalar (roundScalar r)
  | .v128 r => .v128 (roundV128 r)
  | .v256 r => .v256 (roundV256 r)

/-- The diffusion shuffle on the physical registers. -/
def shufflePhysical (p : Physical) : Physical :=
  match p with
  | .scalar r => .scalar (shuffleScalar r)
  | .v128 r => .v128 (shuffleV128 r)
  | .v256 r => .v256 (shuffleV256 r)

/-- The bytes a flush of the physical registers writes. -/
def flushPhysical (p : Physical) : List Byte :=
  match p with
  | .scalar r => flushScalar r
  | .v128 r => flushV128 r
  | .v256 r => flushV256 r

/-- The logical state of the physical registers. -/
def logical (p : Physical) : GenState :=
  match p with
  | .scalar r => logicalScalar r
  | .v128 r => logicalV128 r
  | .v256 r => logicalV256 r

/-- Diffusion on the physical registers: a round and a shuffle, `n` times. -/
def diffusePhysical (n : Nat) (p : Physical) : Physical :=
  match n with
  | 0 => p
  | n + 1 => diffusePhysical n (shufflePhysical (roundPhysical p))

/-- The byte stream of `n` blocks from the physical registers: flush, then round. -/
def streamPhysical (n : Nat) (p : Physical) : List Byte :=
  match n with
  | 0 => []
  | n + 1 => flushPhysical p ++ streamPhysical n (roundPhysical p)

/-- The physical registers of the active variant, while they hold a state (R31). -/
def State.physical (s : State) : Option Physical := s.gen.map (layout s.engine)

end Sys2Proof.Machine
end

