-- ==== Sys2Proof/Safety.lean ====
section
/-! DEFINITION. What claims about runs are stated in: the machine's invariant, what of a state is hidden from the host,
and the outcome of a step seen through a view. -/
namespace Sys2Proof.Machine

/-- The command in flight and its bookkeeping agree: `ERR` is `ERR_OK` while busy (60_exceptions.md R287), a `GEN` or
`SKIP` in flight has a generator state (R285) and at least one block (42_generate.md R203), a `GEN` in flight lies inside
the destination space (R205), and only existing bytes of its range are noted as touched (20_memory.md R68). -/
def latchInv (s : State) : Prop :=
  match s.latch with
  | none => s.touched = []
  | some (.init _) => s.err = .ok ∧ s.touched = []
  | some (.gen nblk dst) =>
    s.err = .ok ∧ s.stateValid = true ∧ 0 < nblk ∧ dst.toNat + blockBytes * nblk ≤ 2 ^ s.cfg.paWidth
      ∧ ∀ a ∈ s.touched, inFlight s a = true ∧ byteExists s.cfg a = true
  | some (.skip nblk) => s.err = .ok ∧ s.stateValid = true ∧ 0 < nblk ∧ s.touched = []

/-- The invariant of the machine: the parameters are well formed (R6), destination memory is in canonical form and
lists only bytes that exist (R60, R69), `ENGINE` holds a variant that is built in (R27), and the command in flight is
consistent. -/
def State.inv (s : State) : Prop :=
  configWf s.cfg = true
    ∧ memWf s.mem = true
    ∧ (∀ c ∈ s.mem, byteExists s.cfg c.1 = true)
    ∧ supported s.cfg.capMask s.engine = true
    ∧ latchInv s

/-- A `GEN` in flight has a byte that does not exist, so the engine has no completing step (20_memory.md R69). -/
def State.stuck (s : State) : Prop :=
  ∃ nblk dst, s.latch = some (.gen nblk dst) ∧ rangeExists s.cfg dst.toNat (blockBytes * nblk) = false

/-- The outcome of a step with a view applied to the next state. -/
def viewed (f : State → State) (o : Host.Outcome State Fault Refusal) : Host.Outcome State Fault Refusal :=
  match o with
  | .next t => .next (f t)
  | .fault r => .fault r
  | .refused r => .refused r

/-- A generator state of zeros, standing for a hidden one. -/
def hiddenGen : GenState where
  s := Quad.replicate (Quad.replicate 0#64)
  o := Quad.replicate (Quad.replicate 0#64)
  c := Quad.replicate 0#64

/-- The state without the values of `S`, `O` and `C`, which are opaque (10_state.md R24); whether they hold a value
stays visible (`STATUS.VALID`). -/
def hideGen (s : State) : State := s.withGen (s.gen.map (fun _ => hiddenGen))

/-- The registers of the window that only a host write or reset changes (R36 to R39). -/
def sameOperandRegs (s t : State) : Prop :=
  t.seed = s.seed ∧ t.len = s.len ∧ t.bufLen = s.bufLen ∧ t.dstAddr = s.dstAddr

/-- Everything outside the engine is the same: the parameters, the hosts, the schedule, what has been observed,
and the model's own bookkeeping. -/
def sameOutside (s t : State) : Prop :=
  t.cfg = s.cfg ∧ t.hosts = s.hosts ∧ t.sched = s.sched ∧ t.observed = s.observed ∧ t.touched = s.touched
    ∧ t.fresh = s.fresh

/-- Everything of the engine and of destination memory is the same. -/
def sameEngine (s t : State) : Prop :=
  t.cfg = s.cfg ∧ t.gen = s.gen ∧ t.engine = s.engine ∧ t.ovr = s.ovr ∧ t.err = s.err ∧ sameOperandRegs s t
    ∧ t.latch = s.latch ∧ t.mem = s.mem ∧ t.touched = s.touched

/-- Host `h`'s next access is a `CMD` write of the word: 64 bits, at offset 0x00 of the window (R33). -/
def issues (s : State) (h : Nat) (v : Word) : Prop :=
  ∃ addr p, (s.host h).prog = .write 8 addr v :: p ∧ windowOffset? s.cfg addr = some 0x00#8

/-- How many blocks of the stream a long command makes (R208). -/
def Latch.blocks : Latch → Nat
  | .init _ => 0
  | .gen nblk _ => nblk
  | .skip nblk => nblk

/-- A `GEN` whose bytes all exist, or a `SKIP`. -/
def Latch.streams (c : Config) : Latch → Bool
  | .init _ => false
  | .gen nblk dst => rangeExists c dst.toNat (blockBytes * nblk)
  | .skip _ => true

/-- The long commands of the list latched and completed one after the other, with nothing in between. -/
def completeEach (work : List Latch) (s : State) : Host.Outcome State Fault Refusal :=
  match work with
  | [] => .next s
  | l :: rest =>
    match engineTurn (s.withLatch (some l)) with
    | .next t => completeEach rest t
    | .fault r => .fault r
    | .refused r => .refused r

end Sys2Proof.Machine
end

