-- ==== Sys2Proof/Certificates/Slice0/Obligations.lean ====
section
/-! DEFINITION. The statements for the provers. Each docstring names the rules of spec/ the statement comes from.
No statement rests on the value of a free byte, of `Config.initialByte`, or of the counter `fresh`. -/
open Sys2Proof Sys2Proof.Machine

-- 1. Encoding

/-- The words of 95_test_vectors.md section 2.7, written out: the five commands and the illegal words. -/
def Obligations.SpecWordsDecode : Prop :=
  decode 0x0000000000000000#64 = .ok .nop
    ∧ decode 0x0000000000000001#64 = .ok .init
    ∧ decode 0x0000000000000002#64 = .ok .gen
    ∧ decode 0x0000000000000003#64 = .ok .skip
    ∧ decode 0x0000000000000004#64 = .ok (.select 0#2)
    ∧ decode 0x0000000000000104#64 = .ok (.select 1#2)
    ∧ decode 0x0000000000000204#64 = .ok (.select 2#2)
    ∧ decode 0x0000000000000304#64 = .error .reservedVariant
    ∧ decode 0x0000000000000005#64 = .error .unassignedOpcode
    ∧ decode 0x00000000000000FF#64 = .error .unassignedOpcode
    ∧ decode 0x0000000000000100#64 = .error .engOutsideSelect
    ∧ decode 0x0000000000000402#64 = .error .reservedBits
    ∧ decode 0x8000000000000002#64 = .error .reservedBits
    ∧ decode 0x0000000000000502#64 = .error .reservedBits

/-- Decoding the encoding of a well-formed command gives it back, with every operand (30_encoding.md sections 1 to 3). -/
def Obligations.DecodeOfEncode : Prop :=
  ∀ i : Instr, i.wellFormed = true → decode (encode i) = .ok i

/-- A word that decodes is the encoding of a well-formed command, so every word has one meaning (30_encoding.md
sections 2 and 3). -/
def Obligations.EncodeOfDecode : Prop :=
  ∀ (v : Word) (i : Instr), decode v = .ok i → i.wellFormed = true ∧ encode i = v

/-- 30_encoding.md R95: the words that match no row of the table are exactly those of its four clauses, they are the
words the decoder rejects, and an idle engine answers one with `ERR_ILLEGAL` and no other effect. The row of `SELECT`
leaves `ENG` free, and `ENG = 3` is illegal (R94). -/
def Obligations.IllegalWordsAreRejected : Prop :=
  (∀ v : Word, (∃ e, decode v = .error e) ↔
      (5 ≤ (fieldOp v).toNat ∨ fieldReserved v ≠ 0#54 ∨ (fieldEng v ≠ 0#2 ∧ fieldOp v ≠ 0x04#8)
        ∨ (fieldOp v = 0x04#8 ∧ fieldEng v = 3#2)))
    ∧ (∀ v : Word, (∃ e, decode v = .error e) ↔
      ¬ ((∃ r ∈ opcodeTable, r.matchesWord v = true) ∧ ¬ (fieldOp v = 0x04#8 ∧ fieldEng v = 3#2)))
    ∧ (∀ (v : Word) (e : Illegal) (s : State), decode v = .error e → s.busy = false →
      cmdWrite v s = .next ((s.withOvr false).withErr .illegal))

-- 2. One step, and acceptance

/-- A step whose turn is a host's, and whose next access is a 64-bit write of a command word to `CMD`, runs that
command on the state with the turn and the access taken off (10_state.md R33, 30_encoding.md R96). With an empty schedule
the turn is the first host's that can move, when the engine has no completion step (log 1). -/
def Obligations.StepRunsDecodedCommand : Prop :=
  ∀ (s : State) (h : Nat) (addr v : Word) (p : List HostOp) (i : Instr),
    (s.host h).prog = .write 8 addr v :: p → (s.host h).fault = none → windowOffset? s.cfg addr = some 0x00#8 →
    decode v = .ok i →
      (∀ q, s.sched = .host h :: q → step s = exec i ((s.withSched q).setHost h { s.host h with prog := p }))
        ∧ (s.sched = [] → engineEnabled s = false → firstHost s.hosts = h →
            step s = exec i (s.setHost h { s.host h with prog := p }))

/-- `withFetchWord` makes the very next step the acceptance of that command word, written by host 0 (log 2). -/
def Obligations.FetchedWordIsAcceptedNext : Prop :=
  ∀ (s : State) (v : Word),
    step (s.withFetchWord 64 v.toNat) = cmdWrite v (s.setHost 0 { s.host 0 with fault := none })

/-- 60_exceptions.md R287: a `CMD` write while busy, of any word, sets `OVR` and has no other effect, and while a command
is in flight `ERR` is `ERR_OK`. -/
def Obligations.CommandWhileBusyIsDropped : Prop :=
  ∀ s : State, s.busy = true →
    (∀ v : Word, cmdWrite v s = .next (s.withOvr true))
      ∧ (∀ i : Instr, exec i s = .next (s.withOvr true))
      ∧ (s.inv → s.err = .ok)

/-- 44_control_commands.md R260: `NOP` writes `OVR <- 0` and `ERR <- ERR_OK` and nothing else, `BUSY` stays 0, a word with
`OP = 0` and any other nonzero bit is illegal, while busy it is dropped, and `STATUS = 0x34` becomes 0. -/
def Obligations.NopCompletes : Prop :=
  encode .nop = 0x0000000000000000#64
    ∧ (∀ v : Word, fieldOp v = 0x00#8 → v ≠ 0#64 → ∃ e, decode v = .error e)
    ∧ (∀ s : State, s.busy = false →
        exec .nop s = .next ((s.withOvr false).withErr .ok) ∧ ((s.withOvr false).withErr .ok).busy = false)
    ∧ (∀ s : State, s.busy = true → exec .nop s = .next (s.withOvr true))
    ∧ (∀ s : State, statusWord s = 0x0000000000000034#64 →
        ∃ t, exec .nop s = .next t ∧ statusWord t = 0x0000000000000000#64)

/-- 44_control_commands.md R261: `SELECT e` for a built-in variant sets `ENGINE`, drops the state (also when e is already
selected) and reports `ERR_OK`; for one that is not built in it reports `ERR_CAP` and changes nothing else. -/
def Obligations.SelectCompletes : Prop :=
  encode (.select 0#2) = 0x004#64 ∧ encode (.select 1#2) = 0x104#64 ∧ encode (.select 2#2) = 0x204#64
    ∧ (∃ e, decode 0x304#64 = .error e)
    ∧ (∀ (s : State) (v : Variant), s.busy = false → s.cfg.capMask.getLsbD v.id.toNat = true →
        exec (.select v.id) s = .next ((((s.withOvr false).withEngine v).withGen none).withErr .ok)
          ∧ ((((s.withOvr false).withEngine v).withGen none).withErr .ok).stateValid = false
          ∧ ((((s.withOvr false).withEngine v).withGen none).withErr .ok).busy = false)
    ∧ (∀ (s : State) (v : Variant), s.busy = false → s.cfg.capMask.getLsbD v.id.toNat = false →
        exec (.select v.id) s = .next ((s.withOvr false).withErr .cap))
    ∧ (∀ s : State, s.busy = false → s.cfg.capMask = 0b011#3 →
        ∃ t, exec (.select 2#2) s = .next t ∧ t.err.code = 3#4 ∧ t.engine = s.engine)
    ∧ (∀ s : State, s.busy = false → s.cfg.capMask = 0b111#3 →
        ∃ t, exec (.select 2#2) s = .next t ∧ t.err = .ok ∧ t.engine.id = 2#2 ∧ t.stateValid = false)

/-- The ill-formed term `select 3` does what 30_encoding.md R95 says of its word: the model's choice, log 21. -/
def Obligations.SelectOfReservedIdIsIllegal : Prop :=
  ∀ s : State, s.busy = false → exec (.select 3#2) s = .next ((s.withOvr false).withErr .illegal)

/-- `INIT` from any idle state: acceptance latches the seed and sets `BUSY` with `VALID` as it was, and the engine's next
turn leaves the state built from that seed, `VALID = 1`, `BUSY = 0` and everything else as acceptance left it, destination
memory included (43_initialize.md section 1). -/
def Obligations.InitRunsToCompletion : Prop :=
  ∀ s : State, s.busy = false →
    ∃ t, exec .init s = .next t
      ∧ t = ((s.withOvr false).withErr .ok).withLatch (some (.init s.seed))
      ∧ t.busy = true ∧ t.stateValid = s.stateValid
      ∧ (∀ x : Quad Word, engineTurn (t.withSeed x)
          = .next (((((s.withOvr false).withErr .ok).withLatch none).withSeed x).withGen (some (initState s.cfg s.seed))))

/-- 42_generate.md R204: `GEN` and `SKIP` are rejected with `ERR_SHAPE` when `LEN mod 128 != 0`, and `GEN` also when
`BUF_LEN != LEN`; both apply when there is a state (R288). Lengths 100, and 128 for 256, are the rule's examples. -/
def Obligations.ShapeIsChecked : Prop :=
  ∀ s : State, s.busy = false → s.stateValid = true →
    (s.len.toNat % 128 ≠ 0 →
        exec .gen s = .next ((s.withOvr false).withErr .shape)
          ∧ exec .skip s = .next ((s.withOvr false).withErr .shape))
      ∧ (s.bufLen ≠ s.len → exec .gen s = .next ((s.withOvr false).withErr .shape))
      ∧ (s.len = 100#64 → exec .gen s = .next ((s.withOvr false).withErr .shape))
      ∧ (s.bufLen = 128#64 → s.len = 256#64 → exec .gen s = .next ((s.withOvr false).withErr .shape))

/-- 42_generate.md R205: a well-shaped `GEN` is rejected with `ERR_RANGE` exactly when the exact integer sum
`DST_ADDR + LEN` exceeds `2^PA_WIDTH`; an idle engine never answers a `SKIP` with that code. That a `GEN` of length 0
beyond the space reports it too is DEDUCED (42_generate.md R203 and 95_test_vectors.md V-GEN-5 against R200): log 22. -/
def Obligations.RangeIsChecked : Prop :=
  (∀ s : State, s.busy = false → s.stateValid = true → s.len.toNat % 128 = 0 → s.bufLen = s.len →
    (exec .gen s = .next ((s.withOvr false).withErr .range) ↔ s.dstAddr.toNat + s.len.toNat > 2 ^ s.cfg.paWidth))
    ∧ (∀ s t : State, s.busy = false → exec .skip s = .next t → t.err ≠ .range)

/-- 60_exceptions.md R285: `GEN` and `SKIP` are rejected with `ERR_NO_STATE` while `STATE_VALID = 0`, whatever the
operands; reset and an accepted `SELECT` leave it 0, and of the engine's completions only that of `INIT` makes it 1. -/
def Obligations.NoStateIsChecked : Prop :=
  (∀ s : State, s.busy = false → s.stateValid = false →
      exec .gen s = .next ((s.withOvr false).withErr .noState)
        ∧ exec .skip s = .next ((s.withOvr false).withErr .noState))
    ∧ (∀ s : State, (applyReset s).stateValid = false)
    ∧ (∀ (s t : State) (v : Variant), s.busy = false → exec (.select v.id) s = .next t → t.err = .ok →
        t.stateValid = false)
    ∧ (∀ s t : State, engineTurn s = .next t → s.stateValid = false → t.stateValid = true →
        ∃ seed, s.latch = some (.init seed))

/-- 60_exceptions.md R288: an idle engine reports exactly one code, the first that applies in the order ILLEGAL, CAP,
NO_STATE, SHAPE, RANGE, and `ERR_OK` when none does; a command dropped while busy reports none. That a `GEN` of
length 0 beyond the space reports RANGE is DEDUCED: log 22. -/
def Obligations.OneErrorInPriorityOrder : Prop :=
  (∀ (s t : State) (v : Word), s.busy = true → cmdWrite v s = .next t → t.err = s.err)
  ∧ ∀ (s t : State) (v : Word), s.busy = false → cmdWrite v s = .next t →
    t.err =
      match decode v with
      | .error _ => .illegal
      | .ok .nop => .ok
      | .ok .init => .ok
      | .ok (.select e) => if s.cfg.capMask.getLsbD e.toNat = true then .ok else .cap
      | .ok .gen =>
        if s.stateValid = false then .noState
        else if s.len.toNat % 128 ≠ 0 ∨ s.bufLen ≠ s.len then .shape
        else if 2 ^ s.cfg.paWidth < s.dstAddr.toNat + s.len.toNat then .range
        else .ok
      | .ok .skip =>
        if s.stateValid = false then .noState
        else if s.len.toNat % 128 ≠ 0 then .shape
        else .ok

/-- 60_exceptions.md R280, 42_generate.md R206: a rejected command changes `ERR` and clears `OVR` and changes nothing
else: not S, O, C, `STATE_VALID`, `ENGINE`, `L`, `BUSY`, nor any destination byte. No error arises after acceptance:
neither the engine's turns nor another agent's access to destination memory writes `ERR` or `OVR`. -/
def Obligations.RejectedCommandChangesNothingElse : Prop :=
  (∀ (s t : State) (v : Word), s.busy = false → cmdWrite v s = .next t → t.err ≠ .ok →
    t = (s.withOvr false).withErr t.err)
    ∧ (∀ (s t : State) (u : Turn), (∀ h, u ≠ .host h) → u ≠ .reset → takeTurn u s = .next t →
      t.err = s.err ∧ t.ovr = s.ovr)

/-- A zero-length `GEN` inside the space, and a zero-length `SKIP`, complete at acceptance with `ERR_OK` and change
nothing (42_generate.md section 3). A zero-length `GEN` beyond the space is DEDUCED to report `ERR_RANGE`: log 22. -/
def Obligations.ZeroLengthCompletesAtAcceptance : Prop :=
  ∀ s : State, s.busy = false → s.stateValid = true → s.len = 0#64 →
    exec .skip s = .next ((s.withOvr false).withErr .ok)
      ∧ (s.bufLen = 0#64 → s.dstAddr.toNat ≤ 2 ^ s.cfg.paWidth →
          exec .gen s = .next ((s.withOvr false).withErr .ok))

/-- A well-shaped `GEN` of a positive length inside the space, away from the engine's own registers, is accepted: its
operands are latched and `BUSY` is set. If every byte of its range exists, the engine's next turn is its `ExecGen`
(42_generate.md section 1), whose writes are the statement on the completion of a `GEN`. -/
def Obligations.GenIsAccepted : Prop :=
  ∀ s : State, s.busy = false → s.stateValid = true → s.len ≠ 0#64 → s.len.toNat % 128 = 0 → s.bufLen = s.len →
    s.dstAddr.toNat + s.len.toNat ≤ 2 ^ s.cfg.paWidth →
    (∀ r ∈ s.cfg.engineRegs, ∀ a, r.base ≤ a → a < r.base + r.size →
      ¬ (s.dstAddr.toNat ≤ a ∧ a < s.dstAddr.toNat + s.len.toNat)) →
      ∃ t, exec .gen s = .next t
        ∧ t = ((s.withOvr false).withErr .ok).withLatch (some (.gen (s.len.toNat / 128) s.dstAddr))
        ∧ t.busy = true
        ∧ ∀ g, s.gen = some g → rangeExists s.cfg s.dstAddr.toNat s.len.toNat = true →
            engineTurn t = .next (completeGen (s.len.toNat / 128) s.dstAddr g t)

/-- A `GEN` that would be accepted and whose range has an address of the engine's own registers is refused (20_memory.md
section 3). That a `GEN` which is rejected with an error code is not refused is the model's choice, log 10. -/
def Obligations.GenMeetingEngineRegistersIsRefused : Prop :=
  ∀ (s : State) (r : Region) (a : Nat), s.busy = false → s.stateValid = true → s.len.toNat % 128 = 0 →
    s.bufLen = s.len → s.dstAddr.toNat + s.len.toNat ≤ 2 ^ s.cfg.paWidth →
    r ∈ s.cfg.engineRegs → r.base ≤ a → a < r.base + r.size →
    s.dstAddr.toNat ≤ a → a < s.dstAddr.toNat + s.len.toNat →
      exec .gen s = .refused .rangeMeetsEngineRegisters

/-- `SKIP` of a positive multiple of 128 is accepted whatever `BUF_LEN` and `DST_ADDR`, and the engine's next turn runs
`LEN / 128` rounds, writes no destination byte and leaves the rest as acceptance left it (42_generate.md section 2). -/
def Obligations.SkipRunsToCompletion : Prop :=
  ∀ (s : State) (g : GenState), s.busy = false → s.gen = some g → s.len ≠ 0#64 → s.len.toNat % 128 = 0 →
    ∃ t, exec .skip s = .next t
      ∧ t = ((s.withOvr false).withErr .ok).withLatch (some (.skip (s.len.toNat / 128)))
      ∧ t.busy = true
      ∧ engineTurn t = .next (((s.withOvr false).withErr .ok).withGen (some (rounds (s.len.toNat / 128) g)))

/-- What no command's acceptance changes, over all five commands: every operand register, every byte of destination
memory, the parameters and the agents; `ENGINE` and the generator state unless it is `SELECT`; the latch unless it is a
long command (30_encoding.md section 3). -/
def Obligations.AcceptanceFrame : Prop :=
  ∀ (i : Instr) (s t : State), exec i s = .next t →
    sameOperandRegs s t ∧ sameOutside s t
      ∧ (∀ a, memRead t.mem a = memRead s.mem a)
      ∧ ((∀ e, i ≠ .select e) → t.engine = s.engine ∧ t.gen = s.gen)
      ∧ (i ≠ .init → i ≠ .gen → i ≠ .skip → t.latch = s.latch)

-- 3. Completion

/-- 42_generate.md R201: the completion of a `GEN` whose bytes all exist writes, for each block b, the pending output
after b rounds, little-endian (20_memory.md R62) and in the layout of 20_memory.md R63, to its 128 bytes (but where another
agent wrote meanwhile), runs one round per block, and ends the command. -/
def Obligations.GenCompletionWritesTheStream : Prop :=
  ∀ (s : State) (nblk : Nat) (dst : Word) (g : GenState), s.latch = some (.gen nblk dst) → s.gen = some g →
    rangeExists s.cfg dst.toNat (128 * nblk) = true →
      ∃ t, engineTurn s = .next t ∧ t.busy = false ∧ t.gen = some (rounds nblk g)
        ∧ ∀ (b : Nat) (k j : Fin 4) (i : Fin 8), b < nblk →
            dst.toNat + 128 * b + 32 * k.val + 8 * j.val + i.val ∉ s.touched →
              memRead t.mem (dst.toNat + 128 * b + 32 * k.val + 8 * j.val + i.val)
                = some ((((rounds b g).o.nth k).nth j).extractLsb' (8 * i.val) 8)

/-- The frame of completion: an engine turn changes no operand register, no parameter, `ENGINE`, `OVR`, `ERR`, no host but
for the ranges it has yet to see ended, nothing observed, and no destination byte outside
`[L.dst, L.dst + 128 * L.nblk)` of the `GEN` in flight (20_memory.md section 3, 60_exceptions.md section 1). The premise `latchInv` is part of the invariant. -/
def Obligations.CompletionFrame : Prop :=
  ∀ s t : State, latchInv s → engineTurn s = .next t →
    sameOperandRegs s t ∧ t.cfg = s.cfg ∧ t.engine = s.engine ∧ t.ovr = s.ovr ∧ t.err = s.err
      ∧ t.sched = s.sched ∧ t.observed = s.observed
      ∧ (∀ h, (t.host h).prog = (s.host h).prog ∧ (t.host h).fault = (s.host h).fault
          ∧ (t.host h).unfenced = (s.host h).unfenced)
      ∧ (∀ a, a < flightStart s ∨ flightStart s + flightBytes s ≤ a → memRead t.mem a = memRead s.mem a)
      ∧ ((∀ nblk dst, s.latch ≠ some (.gen nblk dst)) → t.mem = s.mem ∧ t.hosts = s.hosts)

/-- What a write of a destination byte by a host or another agent does (20_memory.md sections 3 and 4,
70_reset_and_hazards.md section 3; log 7, log 26): an ordinary byte is stored and read back, a byte in flight is noted
and memory stays, a byte of a range of which the writing host has not yet read `BUSY = 0` becomes a free value. And a byte
in flight that was noted holds a free value after completion. Of a byte that does not exist the writes in flight and in such
a range change nothing, and any other stops the machine (log 12). -/
def Obligations.TouchedBytesAreUnspecified : Prop :=
  (∀ (s : State) (who : Agent) (a : Nat) (b : Byte), byteExists s.cfg a = true → inFlight s a = false →
      (∀ h, who = .host h → ∀ r ∈ (s.host h).unseen, inRegion r a = false) →
        ∃ t, agentStore s who a b = .next t ∧ t = s.withMem t.mem ∧ memRead t.mem a = some b
          ∧ ∀ x, x ≠ a → memRead t.mem x = memRead s.mem x)
    ∧ (∀ (s : State) (who : Agent) (a : Nat) (b : Byte), byteExists s.cfg a = true → inFlight s a = true →
        ∃ t, agentStore s who a b = .next t ∧ t = s.withTouched t.touched
          ∧ ∀ x, x ∈ t.touched ↔ x = a ∨ x ∈ s.touched)
    ∧ (∀ (s : State) (h : Nat) (r : Region) (a : Nat) (b : Byte), byteExists s.cfg a = true → inFlight s a = false →
        r ∈ (s.host h).unseen → inRegion r a = true →
        ∃ t, agentStore s (.host h) a b = .next t ∧ t = (s.withMem t.mem).withFresh (s.fresh + 1)
          ∧ memRead t.mem a = some (Config.freeByte s.fresh) ∧ ∀ x, x ≠ a → memRead t.mem x = memRead s.mem x)
    ∧ (∀ (s : State) (who : Agent) (a : Nat) (b : Byte), byteExists s.cfg a = false →
        (inFlight s a = true ∨ (∃ h r, who = .host h ∧ r ∈ (s.host h).unseen ∧ inRegion r a = true) →
            agentStore s who a b = .next s)
          ∧ (inFlight s a = false → (∀ h, who = .host h → ∀ r ∈ (s.host h).unseen, inRegion r a = false) →
            agentStore s who a b = .fault (.dstAbsent a)))
    ∧ (∀ (s t : State) (nblk : Nat) (dst : Word) (a : Nat), s.latch = some (.gen nblk dst) →
        engineEnabled s = true → engineTurn s = .next t → a ∈ s.touched →
          ∃ n, s.fresh ≤ n ∧ n < t.fresh ∧ memRead t.mem a = some (Config.freeByte n))

/-- Chunking invariance, derived from 42_generate.md section 4: with no other agent writing meanwhile, completing a `GEN`
of m blocks and then one of n blocks right behind it leaves the generator state and every destination byte that one `GEN`
of m + n blocks leaves. -/
def Obligations.ChunkedGenEqualsOneGen : Prop :=
  ∀ (s : State) (g : GenState) (m n : Nat) (dst dst' : Word), s.touched = [] → dst'.toNat = dst.toNat + 128 * m →
    let first := completeGen m dst g s
    let second := completeGen n dst' (rounds m g) first
    let whole := completeGen (m + n) dst g s
    first.gen = some (rounds m g) ∧ second.gen = whole.gen ∧ second.mem = whole.mem

/-- A `SKIP` of m blocks and then a `GEN` of n blocks leave the state of one `GEN` of m + n blocks, and the bytes of the
`GEN` are the last n blocks of that longer `GEN` (derived from 42_generate.md section 2). -/
def Obligations.SkipThenGenEqualsLongerGen : Prop :=
  ∀ (s : State) (g : GenState) (m n x : Nat) (dst dst' : Word), s.touched = [] →
    let skipped := completeSkip m g s
    let second := completeGen n dst' (rounds m g) skipped
    let whole := completeGen (m + n) dst g s
    skipped.gen = some (rounds m g) ∧ second.gen = whole.gen
      ∧ (x < 128 * n → memRead second.mem (dst'.toNat + x) = memRead whole.mem (dst.toNat + 128 * m + x))

/-- Stream position (derived from 42_generate.md section 4): let an `INIT`, any `GEN`s and `SKIP`s, and then a `GEN`
complete one after the other, with no other writer in between. Byte x of block b of that last `GEN` is byte x of the
pending output after as many rounds past diffusion as all the blocks before it; and the state counts the same blocks. So
the seed and the position alone decide the byte: not the split into commands, the addresses, or the variant. -/
def Obligations.StreamPositionCountsBlocks : Prop :=
  ∀ (s : State) (seed : Quad Word) (work : List Latch) (n : Nat) (dst : Word), s.touched = [] →
    (∀ l ∈ work, l.streams s.cfg = true) → rangeExists s.cfg dst.toNat (128 * n) = true →
      ∃ t, completeEach (.init seed :: (work ++ [.gen n dst])) s = .next t
        ∧ t.gen = some (rounds ((work.map Latch.blocks).sum + n) (initState s.cfg seed))
        ∧ ∀ b x, b < n → x < 128 →
            memRead t.mem (dst.toNat + 128 * b + x)
              = (blockBytesOf (rounds ((work.map Latch.blocks).sum + b) (initState s.cfg seed)).o)[x]?

/-- After `INIT`, for every build and seed: S is the shuffled O, and C is 13 times the increment (derived from
43_initialize.md section 3). `C_INIT = 0` is the spec's parameter (00_scope.md R6; log 4). -/
def Obligations.InitLeavesShuffledOutput : Prop :=
  ∀ (c : Config) (seed : Quad Word),
    (initState c seed).s = lshuf (initState c seed).o ∧ (initState c seed).c = ⟨91#64, 65#64, 39#64, 13#64⟩

/-- Seeding: each word is its constant, XORed with the seed word the map names there, and under a well-formed build at
least two words of every double-lane keep their constant whatever the seed (43_initialize.md section 2). -/
def Obligations.SeedingKeepsHalfTheConstants : Prop :=
  ∀ (c : Config) (seed : Quad Word) (k : Fin 4),
    (∀ j : Fin 4, ((seedState c seed).nth k).nth j =
        match (c.seedMap.nth k).nth j with
        | none => (c.phi.nth k).nth j
        | some i => (c.phi.nth k).nth j ^^^ seed.nth i)
      ∧ (configWf c = true →
          2 ≤ (List.finRange 4).countP (fun j => ((seedState c seed).nth k).nth j == (c.phi.nth k).nth j))

-- 4. Reset

/-- 10_state.md R43 in the default build: after reset `STATUS` reads 0, `CAP` reads 7, every other offset reads 0, `ENGINE`
is SCALAR, and `S`, `O`, `C` and `L` hold no value. -/
def Obligations.ResetStateReads : Prop :=
  (∀ off : BitVec 8, readReg State.reset off = if off = 0x10#8 then 0x7#64 else 0#64)
    ∧ State.reset.engine = .scalar ∧ State.reset.gen = none ∧ State.reset.latch = none
    ∧ State.reset.stateValid = false ∧ State.reset.busy = false

/-- 70_reset_and_hazards.md R320: `RST`, from any state, busy or not: in one step the registers and fields take their reset
values, `ENGINE` is the lowest supported variant, and `S`, `O`, `C` and `L` hold no value. -/
def Obligations.ResetTakesOneStep : Prop :=
  ∀ (s : State) (q : List Turn), s.sched = .reset :: q →
    ∃ t, step s = .next t
      ∧ t.busy = false ∧ t.stateValid = false ∧ t.ovr = false ∧ t.err = .ok
      ∧ (∀ off : BitVec 8, off ≠ 0x08#8 → readReg t off = if off = 0x10#8 then s.cfg.capMask.setWidth 64 else 0#64)
      ∧ (s.cfg.capMask ≠ 0#3 → s.cfg.capMask.getLsbD t.engine.id.toNat = true
          ∧ ∀ v : Variant, s.cfg.capMask.getLsbD v.id.toNat = true → t.engine.id.toNat ≤ v.id.toNat)
      ∧ t.gen = none ∧ t.latch = none ∧ t.cfg = s.cfg

/-- 70_reset_and_hazards.md R322: reset aborts the command in flight. Every existing byte of an aborted `GEN`'s range holds a
free value afterwards (log 7; that only existing bytes do is DEDUCED: log 8), and every byte outside it is unchanged. -/
def Obligations.ResetAbortsTheCommand : Prop :=
  ∀ (s : State) (q : List Turn), s.sched = .reset :: q →
    ∃ t, step s = .next t ∧ t.busy = false ∧ t.gen = none
      ∧ (∀ i, i < flightBytes s → byteExists s.cfg (flightStart s + i) = true →
          ∃ n, s.fresh ≤ n ∧ n < t.fresh ∧ memRead t.mem (flightStart s + i) = some (Config.freeByte n))
      ∧ (∀ a, a < flightStart s ∨ flightStart s + flightBytes s ≤ a → memRead t.mem a = memRead s.mem a)

-- 5. The register window

/-- What each aligned offset of the window reads, from any state (10_state.md section 3): the fields of `STATUS`, `CAP`,
the seven operand registers, and 0 at `CMD` and at the reserved offsets. -/
def Obligations.StatusAndCapFields : Prop :=
  ∀ s : State,
    (readReg s 0x08#8 = statusWord s ∧ readReg s 0x10#8 = capWord s
        ∧ readReg s 0x20#8 = s.seed.e0 ∧ readReg s 0x28#8 = s.seed.e1 ∧ readReg s 0x30#8 = s.seed.e2
        ∧ readReg s 0x38#8 = s.seed.e3 ∧ readReg s 0x40#8 = s.len ∧ readReg s 0x48#8 = s.bufLen
        ∧ readReg s 0x50#8 = s.dstAddr
        ∧ ∀ off : BitVec 8, off.toNat % 8 = 0 → off = 0x00#8 ∨ off = 0x18#8 ∨ 0x58 ≤ off.toNat → readReg s off = 0#64)
      ∧ (statusWord s).getLsbD 0 = s.busy ∧ (statusWord s).getLsbD 1 = s.stateValid ∧ (statusWord s).getLsbD 2 = s.ovr
      ∧ (statusWord s).getLsbD 3 = false ∧ (statusWord s).extractLsb' 4 4 = s.err.code
      ∧ (statusWord s).extractLsb' 8 2 = s.engine.id ∧ (statusWord s).extractLsb' 10 54 = 0#54
      ∧ (∀ e < 3, (capWord s).getLsbD e = s.cfg.capMask.getLsbD e) ∧ (capWord s).extractLsb' 3 61 = 0#61

/-- 20_memory.md R61: a 64-bit access at an aligned offset reads or replaces the register whole, or is ignored at the
read-only and reserved offsets (a write of `CMD` issues a command); any other width or a misaligned offset is a fault of
the host and changes nothing of the engine. -/
def Obligations.WindowAccess : Prop :=
  ∀ (s : State) (h : Nat) (off : BitVec 8) (v : Word),
    (off.toNat % 8 = 0 →
        (∃ t, hostOp h (.read 8 (s.cfg.base + off.setWidth 64)) s = .next t ∧ sameEngine s t
            ∧ t.observed = .reg h off (readReg s off) :: s.observed)
          ∧ (off ≠ 0x00#8 → hostOp h (.write 8 (s.cfg.base + off.setWidth 64) v) s = .next (writeReg s off v))
          ∧ (off = 0x00#8 → hostOp h (.write 8 (s.cfg.base + off.setWidth 64) v) s = cmdWrite v s)
          ∧ (0x20 ≤ off.toNat ∧ off.toNat ≤ 0x50 → readReg (writeReg s off v) off = v)
          ∧ (0x00 < off.toNat ∧ off.toNat < 0x20 ∨ 0x50 < off.toNat → writeReg s off v = s))
      ∧ (∀ bytes : Nat, bytes ≠ 8 ∨ off.toNat % 8 ≠ 0 →
        hostOp h (.read bytes (s.cfg.base + off.setWidth 64)) s
            = .next (s.setHost h { s.host h with fault := some (.busError bytes off) })
          ∧ hostOp h (.write bytes (s.cfg.base + off.setWidth 64) v) s
              = .next (s.setHost h { s.host h with fault := some (.busError bytes off) }))

/-- `SEED0..3`, `LEN`, `BUF_LEN` and `DST_ADDR` read back what was last written, keep each other, and their write changes
nothing but the operand registers, at any time: not the latch of the command in flight, nor the generator state, a flag,
destination memory or a host. A write at any other aligned offset but that of `CMD` is ignored (10_state.md sections 3 and 4,
20_memory.md section 4, 70_reset_and_hazards.md section 3). -/
def Obligations.WrittenRegisterReadsBack : Prop :=
  ∀ (s : State) (off : BitVec 8) (v : Word), off.toNat % 8 = 0 →
    (0x20 ≤ off.toNat ∧ off.toNat ≤ 0x50 →
        ∃ t, windowWrite off v s = .next t
          ∧ t = (((s.withSeed t.seed).withLen t.len).withBufLen t.bufLen).withDstAddr t.dstAddr
          ∧ readReg t off = v ∧ ∀ x : BitVec 8, x ≠ off → readReg t x = readReg s x)
      ∧ (0x00 < off.toNat ∧ off.toNat < 0x20 ∨ 0x50 < off.toNat → windowWrite off v s = .next s)

/-- Reads have no side effects: a host read of a register or of destination bytes, a poll, a check and a fence change
nothing of the engine or of destination memory (20_memory.md section 4). -/
def Obligations.ReadsHaveNoSideEffects : Prop :=
  ∀ (s t : State) (h : Nat) (op : HostOp), (∀ bytes addr v, op ≠ .write bytes addr v) →
    (∀ a b, op ≠ .storeMem a b) → hostOp h op s = .next t → sameEngine s t

/-- A recorded host fault is never cleared, not by reset either, and the stopped host makes no further access, while the
other hosts go on (60_exceptions.md R295, R297; that the machine answers a fault at the stopped host's next access is the
model's choice, log 11). -/
def Obligations.HostFaultIsNeverCleared : Prop :=
  ∀ (s : State) (h : Nat) (f : HostFault), (s.host h).fault = some f →
    (∀ t, step s = .next t → (t.host h).fault = some f)
      ∧ ((s.host h).prog ≠ [] → hostTurn h s = .fault .hostStopped)
      ∧ (∀ k op p, (s.host k).prog = op :: p → (s.host k).fault = none →
          hostTurn k s = hostOp k op (s.setHost k { s.host k with prog := p }))

-- 6. Whole-machine rules

/-- The invariant holds right after reset. -/
def Obligations.ResetMeetsInvariant : Prop := State.reset.inv

/-- Every step keeps the invariant: well-formed parameters, canonical memory of existing bytes, `ENGINE` a built-in
variant, and a consistent command in flight. -/
def Obligations.StepKeepsInvariant : Prop :=
  ∀ s t : State, s.inv → step s = .next t → t.inv

/-- Every step keeps destination memory in canonical form, from every state. -/
def Obligations.StepKeepsMemoryCanonical : Prop :=
  ∀ s t : State, memWf s.mem = true → step s = .next t → memWf t.mem = true

/-- No step changes a parameter (00_scope.md R6). -/
def Obligations.StepKeepsParameters : Prop :=
  ∀ s t : State, step s = .next t → t.cfg = s.cfg

/-- Only an accepted `SELECT` and reset change `ENGINE` (10_state.md section 1): a step that changes it is a reset, or a
host's `CMD` write to an idle engine of the word of a `SELECT`, which reports `ERR_OK` and leaves the variant selected. -/
def Obligations.OnlySelectAndResetChangeEngine : Prop :=
  ∀ s t : State, step s = .next t → t.engine ≠ s.engine →
    (nextTurn s).1 = .reset
      ∨ ∃ h v e, (nextTurn s).1 = .host h ∧ s.busy = false ∧ issues s h v ∧ decode v = .ok (.select e)
          ∧ t.err = .ok ∧ t.engine.id = e

/-- `S`, `O`, `C` and `STATE_VALID` change only at a completion of the engine, at reset, and at an accepted `SELECT`,
the last two of which leave no value (10_state.md section 1, 20_memory.md section 5). -/
def Obligations.OnlyCompletionSelectAndResetChangeTheState : Prop :=
  ∀ s t : State, step s = .next t → t.gen ≠ s.gen →
    ((nextTurn s).1 = .engine ∧ s.busy = true ∧ t.busy = false)
      ∨ ((nextTurn s).1 = .reset ∧ t.gen = none)
      ∨ ∃ h v e, (nextTurn s).1 = .host h ∧ s.busy = false ∧ issues s h v ∧ decode v = .ok (.select e)
          ∧ t.err = .ok ∧ t.engine.id = e ∧ t.gen = none

/-- A destination byte changes only when the `GEN` that owns it completes or is aborted by reset, or when a host or
another agent writes that very byte (20_memory.md sections 1 and 3). -/
def Obligations.OnlyOwnersChangeADestinationByte : Prop :=
  ∀ (s t : State) (a : Nat), latchInv s → step s = .next t → memRead t.mem a ≠ memRead s.mem a →
    (((nextTurn s).1 = .engine ∨ (nextTurn s).1 = .reset) ∧ inFlight s a = true)
      ∨ (∃ b, (nextTurn s).1 = .otherWrite a b)
      ∨ (∃ h b p, (nextTurn s).1 = .host h ∧ (s.host h).prog = .storeMem a b :: p)

/-- `BUSY` falls only at the completion step, which performs the whole command, or at reset (20_memory.md section 5,
60_exceptions.md section 1). -/
def Obligations.OnlyCompletionAndResetClearBusy : Prop :=
  ∀ s t : State, step s = .next t → s.busy = true → t.busy = false →
    ((nextTurn s).1 = .engine ∧ engineEnabled s = true ∧ complete (nextTurn s).2 = .next t)
      ∨ (nextTurn s).1 = .reset

/-- A `GEN` with a byte that does not exist has no completing step: until reset every step leaves the engine busy with
it (20_memory.md section 3). -/
def Obligations.UnadmittedGenIsStuckUntilReset : Prop :=
  ∀ s t : State, s.stuck → step s = .next t →
    ((nextTurn s).1 ≠ .reset → t.latch = s.latch ∧ t.stuck ∧ t.busy = true) ∧ ((nextTurn s).1 = .reset → t.busy = false)

/-- With nothing left in the schedule, a long command whose bytes all exist completes at the next step (weak fairness,
60_exceptions.md section 1; the empty schedule's turn is the model's, log 1). -/
def Obligations.LongCommandCompletes : Prop :=
  ∀ s : State, s.inv → s.busy = true → ¬ s.stuck → s.sched = [] → ∃ t, step s = .next t ∧ t.busy = false

/-- A `poll` by the first host that can move, with nothing left in the schedule, is done two steps later, having read a
`STATUS` with `BUSY = 0` (30_encoding.md section 4, 60_exceptions.md section 1; log 1). -/
def Obligations.PollTerminates : Prop :=
  ∀ (s : State) (h : Nat) (p : List HostOp), s.inv → s.busy = true → ¬ s.stuck → s.sched = [] →
    firstHost s.hosts = h → (s.host h).fault = none → (s.host h).prog = .poll :: p →
      ∃ t w, Host.Core.run ⟨State, Fault, Refusal, step, State.reset⟩ 2 s = .next t ∧ (t.host h).prog = p ∧ t.busy = false
        ∧ t.observed = .reg h 0x08#8 w :: s.observed ∧ w.getLsbD 0 = false

-- 7. What readers can learn

/-- `S`, `O` and `C` are opaque: two states that differ only in their values take the same turn to states that differ only
in their values, whatever the turn but the engine's (10_state.md section 1). So no host access reads them. Where a turn
draws free values, both runs are given the same ones: that equality is the model's way of drawing (log 7), not a fact of
the hardware, and the statement is that `S`, `O` and `C` do not enter. -/
def Obligations.GeneratorStateIsOpaque : Prop :=
  ∀ (s : State) (g h : GenState) (u : Turn), u ≠ .engine →
    viewed hideGen (takeTurn u (s.withGen (some g))) = viewed hideGen (takeTurn u (s.withGen (some h)))

/-- The selected variant changes no result, the tag itself and what `STATUS.ENGINE` shows of it apart
(41_engine_variants.md section 1). Under every variant the same is done by commands other than `SELECT`, by the engine's
turns and another agent's accesses, by every access of a host that does not read `STATUS` (its reads and writes of
destination bytes and of registers, and its `CMD` writes of any word), by one that does but for what it observed, and by
reset. Every register reads the same, `STATUS` but for its field `ENGINE`. Where a turn draws free values, both runs are
given the same ones: that equality is the model's way of drawing (log 7), not a fact of the hardware, and the statement is
that the variant does not enter. -/
def Obligations.VariantNeverChangesAResult : Prop :=
  ∀ (s : State) (v : Variant),
    (∀ i : Instr, (∀ e, i ≠ .select e) →
        exec i (s.withEngine v) = viewed (fun t => t.withEngine v) (exec i s))
      ∧ (∀ u : Turn, (∀ h, u ≠ .host h) → u ≠ .reset →
        takeTurn u (s.withEngine v) = viewed (fun t => t.withEngine v) (takeTurn u s))
      ∧ (∀ (h : Nat) (op : HostOp), op ≠ .poll → (∀ c, op ≠ .checkErr c) →
          (∀ addr, op = .read 8 addr → windowOffset? s.cfg addr ≠ some 0x08#8) →
          viewed (fun t => t.withEngine .scalar) (hostOp h op (s.withEngine v))
            = viewed (fun t => t.withEngine .scalar) (hostOp h op s))
      ∧ (∀ (h : Nat) (op : HostOp),
          viewed (fun t => (t.withEngine .scalar).withObserved []) (hostOp h op (s.withEngine v))
            = viewed (fun t => (t.withEngine .scalar).withObserved []) (hostOp h op s))
      ∧ (∀ off : BitVec 8, off ≠ 0x08#8 → readReg (s.withEngine v) off = readReg s off)
      ∧ (∀ b, ¬ (8 ≤ b ∧ b ≤ 9) → (statusWord (s.withEngine v)).getLsbD b = (statusWord s).getLsbD b)
      ∧ (∀ e : BitVec 2, viewed (fun t => t.withEngine .scalar) (exec (.select e) (s.withEngine v))
          = viewed (fun t => t.withEngine .scalar) (exec (.select e) s))
      ∧ applyReset (s.withEngine v) = applyReset s

/-- What a read of destination bytes returns does not depend on the memory of bytes in flight, and a byte in flight
returns a free value, whether the platform admits it or not (20_memory.md section 3; log 7). -/
def Obligations.InFlightBytesReadAsAnyValue : Prop :=
  ∀ (s : State) (m : Memory) (who : Agent) (a n : Nat),
    (∀ x, inFlight s x = false → memRead m x = memRead s.mem x) →
      (agentLoad (s.withMem m) who a n = viewed (fun t => t.withMem m) (agentLoad s who a n))
        ∧ (inFlight s a = true →
            ∃ t, agentLoad s who a 1 = .next t ∧ t.observed = .bytes who a [Config.freeByte s.fresh] :: s.observed)

/-- What a host must do before its read returns memory (20_memory.md section 5, 70_reset_and_hazards.md section 3; log 13,
log 26). A read of bytes not in flight returns memory, to another agent always, to a host outside the ranges it has not
seen end and, if a fence is needed, those it has not fenced; a byte of such a range reads as a free value, whether it exists
or not, and any other byte that does not exist stops the machine (log 12). The completion of a `GEN` makes its range unseen by
every host, a read of `BUSY = 0` makes the reader's unseen ranges unfenced, and its fence empties those. -/
def Obligations.FencedReadReturnsMemory : Prop :=
  (∀ (s : State) (who : Agent) (a : Nat) (bs : List Byte), rangeExists s.cfg a bs.length = true →
      (∀ i, i < bs.length → inFlight s (a + i) = false ∧ memRead s.mem (a + i) = bs[i]?) →
      (∀ h, who = .host h → ∀ i, i < bs.length → (∀ r ∈ (s.host h).unseen, inRegion r (a + i) = false)
          ∧ (s.cfg.fenceNeeded = true → ∀ r ∈ (s.host h).unfenced, inRegion r (a + i) = false)) →
        agentLoad s who a bs.length = .next (s.observe (.bytes who a bs)))
    ∧ (∀ (s : State) (h : Nat) (r : Region) (a : Nat), inRegion r a = true →
        r ∈ (s.host h).unseen ∨ s.cfg.fenceNeeded = true ∧ r ∈ (s.host h).unfenced →
          ∃ t, agentLoad s (.host h) a 1 = .next t
            ∧ t.observed = .bytes (.host h) a [Config.freeByte s.fresh] :: s.observed)
    ∧ (∀ (s : State) (who : Agent) (a n i : Nat), i < n → byteExists s.cfg (a + i) = false →
        inFlight s (a + i) = false →
        (∀ h, who = .host h → (∀ r ∈ (s.host h).unseen, inRegion r (a + i) = false)
          ∧ (s.cfg.fenceNeeded = true → ∀ r ∈ (s.host h).unfenced, inRegion r (a + i) = false)) →
          agentLoad s who a n = .fault (.dstAbsent a))
    ∧ (∀ (s : State) (h nblk : Nat) (dst : Word) (g : GenState), s.latch = some (.gen nblk dst) → s.gen = some g →
        rangeExists s.cfg dst.toNat (128 * nblk) = true → h < s.hosts.length →
          ∃ t, engineTurn s = .next t ∧ (t.host h).unseen = ⟨dst.toNat, 128 * nblk⟩ :: (s.host h).unseen)
    ∧ (∀ (s : State) (h : Nat), ∃ t, hostOp h (.read 8 (s.cfg.base + 0x08#64)) s = .next t
        ∧ (s.busy = false → (t.host h).unseen = []
            ∧ (t.host h).unfenced = (s.host h).unseen ++ (s.host h).unfenced)
        ∧ (s.busy = true → t.host h = s.host h))
    ∧ (∀ (s : State) (h : Nat), ∃ t, hostOp h .fence s = .next t ∧ sameEngine s t
        ∧ t.host h = { s.host h with unfenced := [] } ∧ ∀ k, k ≠ h → t.host k = s.host k)

-- 8. Datapath and variants

/-- 40_datapath_units.md R124: permutation A takes half-word i from half-word (i + 5) mod 8, and in words
`r.w[j] = (a.w[(j+2) mod 4] >> 32) | (a.w[(j+3) mod 4] << 32)`; the rule's example. -/
def Obligations.PermutationAIsARotation : Prop :=
  (∀ (a : DoubleLane) (i : Fin 8), half (permA a) i = half a (i + 5))
    ∧ (∀ (a : DoubleLane) (j : Fin 4), (permA a).nth j = (a.nth (j + 2) >>> 32) ||| (a.nth (j + 3) <<< 32))
    ∧ permA ⟨0x0000000100000000#64, 0x0000000300000002#64, 0x0000000500000004#64, 0x0000000700000006#64⟩
        = ⟨0x0000000600000005#64, 0x0000000000000007#64, 0x0000000200000001#64, 0x0000000400000003#64⟩

/-- 40_datapath_units.md R125: permutation B takes half-word i from half-word (i + 3) mod 8, and in words
`r.w[j] = (a.w[(j+1) mod 4] >> 32) | (a.w[(j+2) mod 4] << 32)`; the rule's example. -/
def Obligations.PermutationBIsARotation : Prop :=
  (∀ (a : DoubleLane) (i : Fin 8), half (permB a) i = half a (i + 3))
    ∧ (∀ (a : DoubleLane) (j : Fin 4), (permB a).nth j = (a.nth (j + 1) >>> 32) ||| (a.nth (j + 2) <<< 32))
    ∧ permB ⟨0x0000000100000000#64, 0x0000000300000002#64, 0x0000000500000004#64, 0x0000000700000006#64⟩
        = ⟨0x0000000400000003#64, 0x0000000600000005#64, 0x0000000000000007#64, 0x0000000200000001#64⟩

/-- The counter after n rounds is the counter plus n times (7, 5, 3, 1), word by word modulo 2^64 (40_datapath_units.md
section 3). -/
def Obligations.CounterAdvancesLinearly : Prop :=
  ∀ (n : Nat) (g : GenState) (j : Fin 4), (rounds n g).c.nth j = g.c.nth j + BitVec.ofNat 64 n * inc.nth j

/-- The `V256` datapath computes the round, the shuffle and the flushed bytes (41_engine_variants.md section 2). -/
def Obligations.V256RefinesTheRound : Prop :=
  ∀ g : GenState, roundV256 (layoutV256 g) = layoutV256 (roundFn g)
    ∧ shuffleV256 (layoutV256 g) = layoutV256 { g with s := lshuf g.o }
    ∧ flushV256 (layoutV256 g) = blockBytesOf g.o
    ∧ logicalV256 (layoutV256 g) = g

/-- The `V128` datapath computes the round, the shuffle and the flushed bytes (41_engine_variants.md section 3). -/
def Obligations.V128RefinesTheRound : Prop :=
  ∀ g : GenState, roundV128 (layoutV128 g) = layoutV128 (roundFn g)
    ∧ shuffleV128 (layoutV128 g) = layoutV128 { g with s := lshuf g.o }
    ∧ flushV128 (layoutV128 g) = blockBytesOf g.o
    ∧ logicalV128 (layoutV128 g) = g

/-- The `SCALAR` datapath computes the round, the shuffle and the flushed bytes (41_engine_variants.md section 4). -/
def Obligations.ScalarRefinesTheRound : Prop :=
  ∀ g : GenState, roundScalar (layoutScalar g) = layoutScalar (roundFn g)
    ∧ shuffleScalar (layoutScalar g) = layoutScalar { g with s := lshuf g.o }
    ∧ flushScalar (layoutScalar g) = blockBytesOf g.o
    ∧ logicalScalar (layoutScalar g) = g

/-- 41_engine_variants.md R173: for every double-lane, the permutations of `V128` on its halves are permutations A and B;
so are both forms of `SCALAR` on the words of every double-lane of its 16-word layout; and counter injection, counter
advance and diffusion shuffle commute with the layout maps of the three variants. Beside the rule: the specialised form on
the words of any double-lane, and the gathers of `V256`. -/
def Obligations.VariantPermutationsAgree : Prop :=
  (∀ a : DoubleLane, permsAgreeV128 a ∧ permsAgreeV256 a
      ∧ permSpecialised (wordsScalar a) 2 = wordsScalar (permA a)
      ∧ permSpecialised (wordsScalar a) 1 = wordsScalar (permB a))
    ∧ (∀ (g : GenState) (k : Fin 4), permsAgreeScalar g k)
    ∧ (∀ g : GenState, reindexingsCommuteV256 g ∧ reindexingsCommuteV128 g ∧ reindexingsCommuteScalar g)

/-- Cross-variant equivalence: from any seed, the three variants, each on its own physical registers, make the same bytes,
for any number of blocks (41_engine_variants.md section 1, 10_state.md section 2). -/
def Obligations.VariantsMakeTheSameStream : Prop :=
  ∀ (c : Config) (seed : Quad Word) (v w : Variant) (n : Nat),
    streamPhysical n (diffusePhysical 13 (layout v (seededState c seed)))
        = streamPhysical n (diffusePhysical 13 (layout w (seededState c seed)))
      ∧ logical (diffusePhysical 13 (layout v (seededState c seed))) = initState c seed
end

