-- ==== Sys2Proof/Laws/Datapath.lean ====
section
/-! SUPPORT. The half-words of a permuted double-lane, and how far the rounds move the counter. -/
namespace Sys2Proof.Machine

theorem low_half (x y : BitVec 32) : (x ++ y).extractLsb' 0 32 = y := by
  apply BitVec.eq_of_getLsbD_eq
  intro i hi
  simp only [BitVec.getLsbD_extractLsb', BitVec.getLsbD_append, Nat.zero_add, hi, decide_true, Bool.true_and, if_true]

theorem high_half (x y : BitVec 32) : (x ++ y).extractLsb' 32 32 = x := by
  apply BitVec.eq_of_getLsbD_eq
  intro i hi
  have h : ¬ 32 + i < 32 := by omega
  simp only [BitVec.getLsbD_extractLsb', BitVec.getLsbD_append, hi, h, decide_true, Bool.true_and, if_false,
    Nat.add_sub_cancel_left]

/-- The word made of the high half of one word and the low half of the next is a funnel shift. -/
theorem funnel (x y : Word) : y.extractLsb' 0 32 ++ x.extractLsb' 32 32 = (x >>> 32) ||| (y <<< 32) := by
  apply BitVec.eq_of_getLsbD_eq
  intro i hi
  simp only [BitVec.getLsbD_append, BitVec.getLsbD_or, BitVec.getLsbD_ushiftRight, BitVec.getLsbD_shiftLeft,
    BitVec.getLsbD_extractLsb']
  by_cases h : i < 32
  · simp [h]
  · have h1 : i - 32 < 32 := by omega
    have h2 : x.getLsbD (32 + i) = false := BitVec.getLsbD_of_ge _ _ (by omega)
    simp [h, h1, h2, hi]

/-- A permutation is a gather of half-words (R123). -/
theorem half_perm (a : DoubleLane) (t : PermTable) (i : Fin 8) : half (perm a t) i = half a (t[i.val]) := by
  fin_cases i <;> simp [perm, half, Quad.ofFn, Quad.nth, low_half, high_half]

/-- Entry k of the shuffled block (R132). -/
theorem nth_lshuf (o : Block) (k : Fin 4) : (lshuf o).nth k = o.nth ⟨3 - k.val, by omega⟩ := by
  fin_cases k <;> rfl

/-- One round adds the increment to the counter. -/
theorem roundFn_c (g : GenState) : (roundFn g).c = wadd g.c inc := rfl

end Sys2Proof.Machine
end

