-- ==== Sys2Proof/Laws/Decode.lean ====
section
/-! SUPPORT. The fields of a command word and the variant identifiers. -/
namespace Sys2Proof

/-- A command word is its three fields, most significant first. -/
theorem word_eq_fields (v : Word) : v = fieldReserved v ++ fieldEng v ++ fieldOp v := by
  unfold fieldReserved fieldEng fieldOp
  apply BitVec.eq_of_getLsbD_eq
  intro i hi
  simp only [BitVec.getLsbD_append, BitVec.getLsbD_extractLsb']
  split
  · simp_all
  · split
    · rw [show 8 + (i - 8) = i by omega]
      have : i - 8 < 2 := by assumption
      simp [this]
    · rw [show 10 + (i - 8 - 2) = i by omega]
      have : i - 8 - 2 < 54 := by omega
      simp [this]

@[simp] theorem ofId?_id (v : Variant) : Variant.ofId? v.id = some v := by cases v <;> decide

theorem id_of_ofId? {e : BitVec 2} {v : Variant} (h : Variant.ofId? e = some v) : v.id = e := by
  revert h
  revert v e
  decide +revert

theorem ofId?_eq_none_iff (e : BitVec 2) : Variant.ofId? e = none ↔ e = 3#2 := by
  revert e
  decide

end Sys2Proof
end

