-- ==== Sys2Proof/Laws/State.lean ====
section
/-! SUPPORT. One lemma per field per update of State, so that no proof unfolds an update; and the laws of the list of
hosts. -/
namespace Sys2Proof.Machine

variable (s : State)

@[simp] theorem withGen_cfg (x : Option GenState) : (s.withGen x).cfg = s.cfg := rfl
@[simp] theorem withGen_gen (x : Option GenState) : (s.withGen x).gen = x := rfl
@[simp] theorem withGen_engine (x : Option GenState) : (s.withGen x).engine = s.engine := rfl
@[simp] theorem withGen_ovr (x : Option GenState) : (s.withGen x).ovr = s.ovr := rfl
@[simp] theorem withGen_err (x : Option GenState) : (s.withGen x).err = s.err := rfl
@[simp] theorem withGen_seed (x : Option GenState) : (s.withGen x).seed = s.seed := rfl
@[simp] theorem withGen_len (x : Option GenState) : (s.withGen x).len = s.len := rfl
@[simp] theorem withGen_bufLen (x : Option GenState) : (s.withGen x).bufLen = s.bufLen := rfl
@[simp] theorem withGen_dstAddr (x : Option GenState) : (s.withGen x).dstAddr = s.dstAddr := rfl
@[simp] theorem withGen_latch (x : Option GenState) : (s.withGen x).latch = s.latch := rfl
@[simp] theorem withGen_mem (x : Option GenState) : (s.withGen x).mem = s.mem := rfl
@[simp] theorem withGen_touched (x : Option GenState) : (s.withGen x).touched = s.touched := rfl
@[simp] theorem withGen_fresh (x : Option GenState) : (s.withGen x).fresh = s.fresh := rfl
@[simp] theorem withGen_hosts (x : Option GenState) : (s.withGen x).hosts = s.hosts := rfl
@[simp] theorem withGen_sched (x : Option GenState) : (s.withGen x).sched = s.sched := rfl
@[simp] theorem withGen_observed (x : Option GenState) : (s.withGen x).observed = s.observed := rfl
@[simp] theorem withGen_busy (x : Option GenState) : (s.withGen x).busy = s.busy := rfl
@[simp] theorem withGen_stateValid (x : Option GenState) : (s.withGen x).stateValid = x.isSome := rfl
@[simp] theorem withGen_host (x : Option GenState) (h : Nat) : (s.withGen x).host h = s.host h := rfl

@[simp] theorem withEngine_cfg (x : Variant) : (s.withEngine x).cfg = s.cfg := rfl
@[simp] theorem withEngine_gen (x : Variant) : (s.withEngine x).gen = s.gen := rfl
@[simp] theorem withEngine_engine (x : Variant) : (s.withEngine x).engine = x := rfl
@[simp] theorem withEngine_ovr (x : Variant) : (s.withEngine x).ovr = s.ovr := rfl
@[simp] theorem withEngine_err (x : Variant) : (s.withEngine x).err = s.err := rfl
@[simp] theorem withEngine_seed (x : Variant) : (s.withEngine x).seed = s.seed := rfl
@[simp] theorem withEngine_len (x : Variant) : (s.withEngine x).len = s.len := rfl
@[simp] theorem withEngine_bufLen (x : Variant) : (s.withEngine x).bufLen = s.bufLen := rfl
@[simp] theorem withEngine_dstAddr (x : Variant) : (s.withEngine x).dstAddr = s.dstAddr := rfl
@[simp] theorem withEngine_latch (x : Variant) : (s.withEngine x).latch = s.latch := rfl
@[simp] theorem withEngine_mem (x : Variant) : (s.withEngine x).mem = s.mem := rfl
@[simp] theorem withEngine_touched (x : Variant) : (s.withEngine x).touched = s.touched := rfl
@[simp] theorem withEngine_fresh (x : Variant) : (s.withEngine x).fresh = s.fresh := rfl
@[simp] theorem withEngine_hosts (x : Variant) : (s.withEngine x).hosts = s.hosts := rfl
@[simp] theorem withEngine_sched (x : Variant) : (s.withEngine x).sched = s.sched := rfl
@[simp] theorem withEngine_observed (x : Variant) : (s.withEngine x).observed = s.observed := rfl
@[simp] theorem withEngine_busy (x : Variant) : (s.withEngine x).busy = s.busy := rfl
@[simp] theorem withEngine_stateValid (x : Variant) : (s.withEngine x).stateValid = s.stateValid := rfl
@[simp] theorem withEngine_host (x : Variant) (h : Nat) : (s.withEngine x).host h = s.host h := rfl

@[simp] theorem withOvr_cfg (x : Bool) : (s.withOvr x).cfg = s.cfg := rfl
@[simp] theorem withOvr_gen (x : Bool) : (s.withOvr x).gen = s.gen := rfl
@[simp] theorem withOvr_engine (x : Bool) : (s.withOvr x).engine = s.engine := rfl
@[simp] theorem withOvr_ovr (x : Bool) : (s.withOvr x).ovr = x := rfl
@[simp] theorem withOvr_err (x : Bool) : (s.withOvr x).err = s.err := rfl
@[simp] theorem withOvr_seed (x : Bool) : (s.withOvr x).seed = s.seed := rfl
@[simp] theorem withOvr_len (x : Bool) : (s.withOvr x).len = s.len := rfl
@[simp] theorem withOvr_bufLen (x : Bool) : (s.withOvr x).bufLen = s.bufLen := rfl
@[simp] theorem withOvr_dstAddr (x : Bool) : (s.withOvr x).dstAddr = s.dstAddr := rfl
@[simp] theorem withOvr_latch (x : Bool) : (s.withOvr x).latch = s.latch := rfl
@[simp] theorem withOvr_mem (x : Bool) : (s.withOvr x).mem = s.mem := rfl
@[simp] theorem withOvr_touched (x : Bool) : (s.withOvr x).touched = s.touched := rfl
@[simp] theorem withOvr_fresh (x : Bool) : (s.withOvr x).fresh = s.fresh := rfl
@[simp] theorem withOvr_hosts (x : Bool) : (s.withOvr x).hosts = s.hosts := rfl
@[simp] theorem withOvr_sched (x : Bool) : (s.withOvr x).sched = s.sched := rfl
@[simp] theorem withOvr_observed (x : Bool) : (s.withOvr x).observed = s.observed := rfl
@[simp] theorem withOvr_busy (x : Bool) : (s.withOvr x).busy = s.busy := rfl
@[simp] theorem withOvr_stateValid (x : Bool) : (s.withOvr x).stateValid = s.stateValid := rfl
@[simp] theorem withOvr_host (x : Bool) (h : Nat) : (s.withOvr x).host h = s.host h := rfl

@[simp] theorem withErr_cfg (x : ErrCode) : (s.withErr x).cfg = s.cfg := rfl
@[simp] theorem withErr_gen (x : ErrCode) : (s.withErr x).gen = s.gen := rfl
@[simp] theorem withErr_engine (x : ErrCode) : (s.withErr x).engine = s.engine := rfl
@[simp] theorem withErr_ovr (x : ErrCode) : (s.withErr x).ovr = s.ovr := rfl
@[simp] theorem withErr_err (x : ErrCode) : (s.withErr x).err = x := rfl
@[simp] theorem withErr_seed (x : ErrCode) : (s.withErr x).seed = s.seed := rfl
@[simp] theorem withErr_len (x : ErrCode) : (s.withErr x).len = s.len := rfl
@[simp] theorem withErr_bufLen (x : ErrCode) : (s.withErr x).bufLen = s.bufLen := rfl
@[simp] theorem withErr_dstAddr (x : ErrCode) : (s.withErr x).dstAddr = s.dstAddr := rfl
@[simp] theorem withErr_latch (x : ErrCode) : (s.withErr x).latch = s.latch := rfl
@[simp] theorem withErr_mem (x : ErrCode) : (s.withErr x).mem = s.mem := rfl
@[simp] theorem withErr_touched (x : ErrCode) : (s.withErr x).touched = s.touched := rfl
@[simp] theorem withErr_fresh (x : ErrCode) : (s.withErr x).fresh = s.fresh := rfl
@[simp] theorem withErr_hosts (x : ErrCode) : (s.withErr x).hosts = s.hosts := rfl
@[simp] theorem withErr_sched (x : ErrCode) : (s.withErr x).sched = s.sched := rfl
@[simp] theorem withErr_observed (x : ErrCode) : (s.withErr x).observed = s.observed := rfl
@[simp] theorem withErr_busy (x : ErrCode) : (s.withErr x).busy = s.busy := rfl
@[simp] theorem withErr_stateValid (x : ErrCode) : (s.withErr x).stateValid = s.stateValid := rfl
@[simp] theorem withErr_host (x : ErrCode) (h : Nat) : (s.withErr x).host h = s.host h := rfl

@[simp] theorem withSeed_cfg (x : Quad Word) : (s.withSeed x).cfg = s.cfg := rfl
@[simp] theorem withSeed_gen (x : Quad Word) : (s.withSeed x).gen = s.gen := rfl
@[simp] theorem withSeed_engine (x : Quad Word) : (s.withSeed x).engine = s.engine := rfl
@[simp] theorem withSeed_ovr (x : Quad Word) : (s.withSeed x).ovr = s.ovr := rfl
@[simp] theorem withSeed_err (x : Quad Word) : (s.withSeed x).err = s.err := rfl
@[simp] theorem withSeed_seed (x : Quad Word) : (s.withSeed x).seed = x := rfl
@[simp] theorem withSeed_len (x : Quad Word) : (s.withSeed x).len = s.len := rfl
@[simp] theorem withSeed_bufLen (x : Quad Word) : (s.withSeed x).bufLen = s.bufLen := rfl
@[simp] theorem withSeed_dstAddr (x : Quad Word) : (s.withSeed x).dstAddr = s.dstAddr := rfl
@[simp] theorem withSeed_latch (x : Quad Word) : (s.withSeed x).latch = s.latch := rfl
@[simp] theorem withSeed_mem (x : Quad Word) : (s.withSeed x).mem = s.mem := rfl
@[simp] theorem withSeed_touched (x : Quad Word) : (s.withSeed x).touched = s.touched := rfl
@[simp] theorem withSeed_fresh (x : Quad Word) : (s.withSeed x).fresh = s.fresh := rfl
@[simp] theorem withSeed_hosts (x : Quad Word) : (s.withSeed x).hosts = s.hosts := rfl
@[simp] theorem withSeed_sched (x : Quad Word) : (s.withSeed x).sched = s.sched := rfl
@[simp] theorem withSeed_observed (x : Quad Word) : (s.withSeed x).observed = s.observed := rfl
@[simp] theorem withSeed_busy (x : Quad Word) : (s.withSeed x).busy = s.busy := rfl
@[simp] theorem withSeed_stateValid (x : Quad Word) : (s.withSeed x).stateValid = s.stateValid := rfl
@[simp] theorem withSeed_host (x : Quad Word) (h : Nat) : (s.withSeed x).host h = s.host h := rfl

@[simp] theorem withLen_cfg (x : Word) : (s.withLen x).cfg = s.cfg := rfl
@[simp] theorem withLen_gen (x : Word) : (s.withLen x).gen = s.gen := rfl
@[simp] theorem withLen_engine (x : Word) : (s.withLen x).engine = s.engine := rfl
@[simp] theorem withLen_ovr (x : Word) : (s.withLen x).ovr = s.ovr := rfl
@[simp] theorem withLen_err (x : Word) : (s.withLen x).err = s.err := rfl
@[simp] theorem withLen_seed (x : Word) : (s.withLen x).seed = s.seed := rfl
@[simp] theorem withLen_len (x : Word) : (s.withLen x).len = x := rfl
@[simp] theorem withLen_bufLen (x : Word) : (s.withLen x).bufLen = s.bufLen := rfl
@[simp] theorem withLen_dstAddr (x : Word) : (s.withLen x).dstAddr = s.dstAddr := rfl
@[simp] theorem withLen_latch (x : Word) : (s.withLen x).latch = s.latch := rfl
@[simp] theorem withLen_mem (x : Word) : (s.withLen x).mem = s.mem := rfl
@[simp] theorem withLen_touched (x : Word) : (s.withLen x).touched = s.touched := rfl
@[simp] theorem withLen_fresh (x : Word) : (s.withLen x).fresh = s.fresh := rfl
@[simp] theorem withLen_hosts (x : Word) : (s.withLen x).hosts = s.hosts := rfl
@[simp] theorem withLen_sched (x : Word) : (s.withLen x).sched = s.sched := rfl
@[simp] theorem withLen_observed (x : Word) : (s.withLen x).observed = s.observed := rfl
@[simp] theorem withLen_busy (x : Word) : (s.withLen x).busy = s.busy := rfl
@[simp] theorem withLen_stateValid (x : Word) : (s.withLen x).stateValid = s.stateValid := rfl
@[simp] theorem withLen_host (x : Word) (h : Nat) : (s.withLen x).host h = s.host h := rfl

@[simp] theorem withBufLen_cfg (x : Word) : (s.withBufLen x).cfg = s.cfg := rfl
@[simp] theorem withBufLen_gen (x : Word) : (s.withBufLen x).gen = s.gen := rfl
@[simp] theorem withBufLen_engine (x : Word) : (s.withBufLen x).engine = s.engine := rfl
@[simp] theorem withBufLen_ovr (x : Word) : (s.withBufLen x).ovr = s.ovr := rfl
@[simp] theorem withBufLen_err (x : Word) : (s.withBufLen x).err = s.err := rfl
@[simp] theorem withBufLen_seed (x : Word) : (s.withBufLen x).seed = s.seed := rfl
@[simp] theorem withBufLen_len (x : Word) : (s.withBufLen x).len = s.len := rfl
@[simp] theorem withBufLen_bufLen (x : Word) : (s.withBufLen x).bufLen = x := rfl
@[simp] theorem withBufLen_dstAddr (x : Word) : (s.withBufLen x).dstAddr = s.dstAddr := rfl
@[simp] theorem withBufLen_latch (x : Word) : (s.withBufLen x).latch = s.latch := rfl
@[simp] theorem withBufLen_mem (x : Word) : (s.withBufLen x).mem = s.mem := rfl
@[simp] theorem withBufLen_touched (x : Word) : (s.withBufLen x).touched = s.touched := rfl
@[simp] theorem withBufLen_fresh (x : Word) : (s.withBufLen x).fresh = s.fresh := rfl
@[simp] theorem withBufLen_hosts (x : Word) : (s.withBufLen x).hosts = s.hosts := rfl
@[simp] theorem withBufLen_sched (x : Word) : (s.withBufLen x).sched = s.sched := rfl
@[simp] theorem withBufLen_observed (x : Word) : (s.withBufLen x).observed = s.observed := rfl
@[simp] theorem withBufLen_busy (x : Word) : (s.withBufLen x).busy = s.busy := rfl
@[simp] theorem withBufLen_stateValid (x : Word) : (s.withBufLen x).stateValid = s.stateValid := rfl
@[simp] theorem withBufLen_host (x : Word) (h : Nat) : (s.withBufLen x).host h = s.host h := rfl

@[simp] theorem withDstAddr_cfg (x : Word) : (s.withDstAddr x).cfg = s.cfg := rfl
@[simp] theorem withDstAddr_gen (x : Word) : (s.withDstAddr x).gen = s.gen := rfl
@[simp] theorem withDstAddr_engine (x : Word) : (s.withDstAddr x).engine = s.engine := rfl
@[simp] theorem withDstAddr_ovr (x : Word) : (s.withDstAddr x).ovr = s.ovr := rfl
@[simp] theorem withDstAddr_err (x : Word) : (s.withDstAddr x).err = s.err := rfl
@[simp] theorem withDstAddr_seed (x : Word) : (s.withDstAddr x).seed = s.seed := rfl
@[simp] theorem withDstAddr_len (x : Word) : (s.withDstAddr x).len = s.len := rfl
@[simp] theorem withDstAddr_bufLen (x : Word) : (s.withDstAddr x).bufLen = s.bufLen := rfl
@[simp] theorem withDstAddr_dstAddr (x : Word) : (s.withDstAddr x).dstAddr = x := rfl
@[simp] theorem withDstAddr_latch (x : Word) : (s.withDstAddr x).latch = s.latch := rfl
@[simp] theorem withDstAddr_mem (x : Word) : (s.withDstAddr x).mem = s.mem := rfl
@[simp] theorem withDstAddr_touched (x : Word) : (s.withDstAddr x).touched = s.touched := rfl
@[simp] theorem withDstAddr_fresh (x : Word) : (s.withDstAddr x).fresh = s.fresh := rfl
@[simp] theorem withDstAddr_hosts (x : Word) : (s.withDstAddr x).hosts = s.hosts := rfl
@[simp] theorem withDstAddr_sched (x : Word) : (s.withDstAddr x).sched = s.sched := rfl
@[simp] theorem withDstAddr_observed (x : Word) : (s.withDstAddr x).observed = s.observed := rfl
@[simp] theorem withDstAddr_busy (x : Word) : (s.withDstAddr x).busy = s.busy := rfl
@[simp] theorem withDstAddr_stateValid (x : Word) : (s.withDstAddr x).stateValid = s.stateValid := rfl
@[simp] theorem withDstAddr_host (x : Word) (h : Nat) : (s.withDstAddr x).host h = s.host h := rfl

@[simp] theorem withLatch_cfg (x : Option Latch) : (s.withLatch x).cfg = s.cfg := rfl
@[simp] theorem withLatch_gen (x : Option Latch) : (s.withLatch x).gen = s.gen := rfl
@[simp] theorem withLatch_engine (x : Option Latch) : (s.withLatch x).engine = s.engine := rfl
@[simp] theorem withLatch_ovr (x : Option Latch) : (s.withLatch x).ovr = s.ovr := rfl
@[simp] theorem withLatch_err (x : Option Latch) : (s.withLatch x).err = s.err := rfl
@[simp] theorem withLatch_seed (x : Option Latch) : (s.withLatch x).seed = s.seed := rfl
@[simp] theorem withLatch_len (x : Option Latch) : (s.withLatch x).len = s.len := rfl
@[simp] theorem withLatch_bufLen (x : Option Latch) : (s.withLatch x).bufLen = s.bufLen := rfl
@[simp] theorem withLatch_dstAddr (x : Option Latch) : (s.withLatch x).dstAddr = s.dstAddr := rfl
@[simp] theorem withLatch_latch (x : Option Latch) : (s.withLatch x).latch = x := rfl
@[simp] theorem withLatch_mem (x : Option Latch) : (s.withLatch x).mem = s.mem := rfl
@[simp] theorem withLatch_touched (x : Option Latch) : (s.withLatch x).touched = s.touched := rfl
@[simp] theorem withLatch_fresh (x : Option Latch) : (s.withLatch x).fresh = s.fresh := rfl
@[simp] theorem withLatch_hosts (x : Option Latch) : (s.withLatch x).hosts = s.hosts := rfl
@[simp] theorem withLatch_sched (x : Option Latch) : (s.withLatch x).sched = s.sched := rfl
@[simp] theorem withLatch_observed (x : Option Latch) : (s.withLatch x).observed = s.observed := rfl
@[simp] theorem withLatch_busy (x : Option Latch) : (s.withLatch x).busy = x.isSome := rfl
@[simp] theorem withLatch_stateValid (x : Option Latch) : (s.withLatch x).stateValid = s.stateValid := rfl
@[simp] theorem withLatch_host (x : Option Latch) (h : Nat) : (s.withLatch x).host h = s.host h := rfl

@[simp] theorem withMem_cfg (x : Memory) : (s.withMem x).cfg = s.cfg := rfl
@[simp] theorem withMem_gen (x : Memory) : (s.withMem x).gen = s.gen := rfl
@[simp] theorem withMem_engine (x : Memory) : (s.withMem x).engine = s.engine := rfl
@[simp] theorem withMem_ovr (x : Memory) : (s.withMem x).ovr = s.ovr := rfl
@[simp] theorem withMem_err (x : Memory) : (s.withMem x).err = s.err := rfl
@[simp] theorem withMem_seed (x : Memory) : (s.withMem x).seed = s.seed := rfl
@[simp] theorem withMem_len (x : Memory) : (s.withMem x).len = s.len := rfl
@[simp] theorem withMem_bufLen (x : Memory) : (s.withMem x).bufLen = s.bufLen := rfl
@[simp] theorem withMem_dstAddr (x : Memory) : (s.withMem x).dstAddr = s.dstAddr := rfl
@[simp] theorem withMem_latch (x : Memory) : (s.withMem x).latch = s.latch := rfl
@[simp] theorem withMem_mem (x : Memory) : (s.withMem x).mem = x := rfl
@[simp] theorem withMem_touched (x : Memory) : (s.withMem x).touched = s.touched := rfl
@[simp] theorem withMem_fresh (x : Memory) : (s.withMem x).fresh = s.fresh := rfl
@[simp] theorem withMem_hosts (x : Memory) : (s.withMem x).hosts = s.hosts := rfl
@[simp] theorem withMem_sched (x : Memory) : (s.withMem x).sched = s.sched := rfl
@[simp] theorem withMem_observed (x : Memory) : (s.withMem x).observed = s.observed := rfl
@[simp] theorem withMem_busy (x : Memory) : (s.withMem x).busy = s.busy := rfl
@[simp] theorem withMem_stateValid (x : Memory) : (s.withMem x).stateValid = s.stateValid := rfl
@[simp] theorem withMem_host (x : Memory) (h : Nat) : (s.withMem x).host h = s.host h := rfl

@[simp] theorem withTouched_cfg (x : List Nat) : (s.withTouched x).cfg = s.cfg := rfl
@[simp] theorem withTouched_gen (x : List Nat) : (s.withTouched x).gen = s.gen := rfl
@[simp] theorem withTouched_engine (x : List Nat) : (s.withTouched x).engine = s.engine := rfl
@[simp] theorem withTouched_ovr (x : List Nat) : (s.withTouched x).ovr = s.ovr := rfl
@[simp] theorem withTouched_err (x : List Nat) : (s.withTouched x).err = s.err := rfl
@[simp] theorem withTouched_seed (x : List Nat) : (s.withTouched x).seed = s.seed := rfl
@[simp] theorem withTouched_len (x : List Nat) : (s.withTouched x).len = s.len := rfl
@[simp] theorem withTouched_bufLen (x : List Nat) : (s.withTouched x).bufLen = s.bufLen := rfl
@[simp] theorem withTouched_dstAddr (x : List Nat) : (s.withTouched x).dstAddr = s.dstAddr := rfl
@[simp] theorem withTouched_latch (x : List Nat) : (s.withTouched x).latch = s.latch := rfl
@[simp] theorem withTouched_mem (x : List Nat) : (s.withTouched x).mem = s.mem := rfl
@[simp] theorem withTouched_touched (x : List Nat) : (s.withTouched x).touched = x := rfl
@[simp] theorem withTouched_fresh (x : List Nat) : (s.withTouched x).fresh = s.fresh := rfl
@[simp] theorem withTouched_hosts (x : List Nat) : (s.withTouched x).hosts = s.hosts := rfl
@[simp] theorem withTouched_sched (x : List Nat) : (s.withTouched x).sched = s.sched := rfl
@[simp] theorem withTouched_observed (x : List Nat) : (s.withTouched x).observed = s.observed := rfl
@[simp] theorem withTouched_busy (x : List Nat) : (s.withTouched x).busy = s.busy := rfl
@[simp] theorem withTouched_stateValid (x : List Nat) : (s.withTouched x).stateValid = s.stateValid := rfl
@[simp] theorem withTouched_host (x : List Nat) (h : Nat) : (s.withTouched x).host h = s.host h := rfl

@[simp] theorem withFresh_cfg (x : Nat) : (s.withFresh x).cfg = s.cfg := rfl
@[simp] theorem withFresh_gen (x : Nat) : (s.withFresh x).gen = s.gen := rfl
@[simp] theorem withFresh_engine (x : Nat) : (s.withFresh x).engine = s.engine := rfl
@[simp] theorem withFresh_ovr (x : Nat) : (s.withFresh x).ovr = s.ovr := rfl
@[simp] theorem withFresh_err (x : Nat) : (s.withFresh x).err = s.err := rfl
@[simp] theorem withFresh_seed (x : Nat) : (s.withFresh x).seed = s.seed := rfl
@[simp] theorem withFresh_len (x : Nat) : (s.withFresh x).len = s.len := rfl
@[simp] theorem withFresh_bufLen (x : Nat) : (s.withFresh x).bufLen = s.bufLen := rfl
@[simp] theorem withFresh_dstAddr (x : Nat) : (s.withFresh x).dstAddr = s.dstAddr := rfl
@[simp] theorem withFresh_latch (x : Nat) : (s.withFresh x).latch = s.latch := rfl
@[simp] theorem withFresh_mem (x : Nat) : (s.withFresh x).mem = s.mem := rfl
@[simp] theorem withFresh_touched (x : Nat) : (s.withFresh x).touched = s.touched := rfl
@[simp] theorem withFresh_fresh (x : Nat) : (s.withFresh x).fresh = x := rfl
@[simp] theorem withFresh_hosts (x : Nat) : (s.withFresh x).hosts = s.hosts := rfl
@[simp] theorem withFresh_sched (x : Nat) : (s.withFresh x).sched = s.sched := rfl
@[simp] theorem withFresh_observed (x : Nat) : (s.withFresh x).observed = s.observed := rfl
@[simp] theorem withFresh_busy (x : Nat) : (s.withFresh x).busy = s.busy := rfl
@[simp] theorem withFresh_stateValid (x : Nat) : (s.withFresh x).stateValid = s.stateValid := rfl
@[simp] theorem withFresh_host (x : Nat) (h : Nat) : (s.withFresh x).host h = s.host h := rfl

@[simp] theorem withHosts_cfg (x : List HostAgent) : (s.withHosts x).cfg = s.cfg := rfl
@[simp] theorem withHosts_gen (x : List HostAgent) : (s.withHosts x).gen = s.gen := rfl
@[simp] theorem withHosts_engine (x : List HostAgent) : (s.withHosts x).engine = s.engine := rfl
@[simp] theorem withHosts_ovr (x : List HostAgent) : (s.withHosts x).ovr = s.ovr := rfl
@[simp] theorem withHosts_err (x : List HostAgent) : (s.withHosts x).err = s.err := rfl
@[simp] theorem withHosts_seed (x : List HostAgent) : (s.withHosts x).seed = s.seed := rfl
@[simp] theorem withHosts_len (x : List HostAgent) : (s.withHosts x).len = s.len := rfl
@[simp] theorem withHosts_bufLen (x : List HostAgent) : (s.withHosts x).bufLen = s.bufLen := rfl
@[simp] theorem withHosts_dstAddr (x : List HostAgent) : (s.withHosts x).dstAddr = s.dstAddr := rfl
@[simp] theorem withHosts_latch (x : List HostAgent) : (s.withHosts x).latch = s.latch := rfl
@[simp] theorem withHosts_mem (x : List HostAgent) : (s.withHosts x).mem = s.mem := rfl
@[simp] theorem withHosts_touched (x : List HostAgent) : (s.withHosts x).touched = s.touched := rfl
@[simp] theorem withHosts_fresh (x : List HostAgent) : (s.withHosts x).fresh = s.fresh := rfl
@[simp] theorem withHosts_hosts (x : List HostAgent) : (s.withHosts x).hosts = x := rfl
@[simp] theorem withHosts_sched (x : List HostAgent) : (s.withHosts x).sched = s.sched := rfl
@[simp] theorem withHosts_observed (x : List HostAgent) : (s.withHosts x).observed = s.observed := rfl
@[simp] theorem withHosts_busy (x : List HostAgent) : (s.withHosts x).busy = s.busy := rfl
@[simp] theorem withHosts_stateValid (x : List HostAgent) : (s.withHosts x).stateValid = s.stateValid := rfl
@[simp] theorem withHosts_host (x : List HostAgent) (h : Nat) : (s.withHosts x).host h = hostGet x h := rfl

@[simp] theorem withSched_cfg (x : List Turn) : (s.withSched x).cfg = s.cfg := rfl
@[simp] theorem withSched_gen (x : List Turn) : (s.withSched x).gen = s.gen := rfl
@[simp] theorem withSched_engine (x : List Turn) : (s.withSched x).engine = s.engine := rfl
@[simp] theorem withSched_ovr (x : List Turn) : (s.withSched x).ovr = s.ovr := rfl
@[simp] theorem withSched_err (x : List Turn) : (s.withSched x).err = s.err := rfl
@[simp] theorem withSched_seed (x : List Turn) : (s.withSched x).seed = s.seed := rfl
@[simp] theorem withSched_len (x : List Turn) : (s.withSched x).len = s.len := rfl
@[simp] theorem withSched_bufLen (x : List Turn) : (s.withSched x).bufLen = s.bufLen := rfl
@[simp] theorem withSched_dstAddr (x : List Turn) : (s.withSched x).dstAddr = s.dstAddr := rfl
@[simp] theorem withSched_latch (x : List Turn) : (s.withSched x).latch = s.latch := rfl
@[simp] theorem withSched_mem (x : List Turn) : (s.withSched x).mem = s.mem := rfl
@[simp] theorem withSched_touched (x : List Turn) : (s.withSched x).touched = s.touched := rfl
@[simp] theorem withSched_fresh (x : List Turn) : (s.withSched x).fresh = s.fresh := rfl
@[simp] theorem withSched_hosts (x : List Turn) : (s.withSched x).hosts = s.hosts := rfl
@[simp] theorem withSched_sched (x : List Turn) : (s.withSched x).sched = x := rfl
@[simp] theorem withSched_observed (x : List Turn) : (s.withSched x).observed = s.observed := rfl
@[simp] theorem withSched_busy (x : List Turn) : (s.withSched x).busy = s.busy := rfl
@[simp] theorem withSched_stateValid (x : List Turn) : (s.withSched x).stateValid = s.stateValid := rfl
@[simp] theorem withSched_host (x : List Turn) (h : Nat) : (s.withSched x).host h = s.host h := rfl

@[simp] theorem withObserved_cfg (x : List Observation) : (s.withObserved x).cfg = s.cfg := rfl
@[simp] theorem withObserved_gen (x : List Observation) : (s.withObserved x).gen = s.gen := rfl
@[simp] theorem withObserved_engine (x : List Observation) : (s.withObserved x).engine = s.engine := rfl
@[simp] theorem withObserved_ovr (x : List Observation) : (s.withObserved x).ovr = s.ovr := rfl
@[simp] theorem withObserved_err (x : List Observation) : (s.withObserved x).err = s.err := rfl
@[simp] theorem withObserved_seed (x : List Observation) : (s.withObserved x).seed = s.seed := rfl
@[simp] theorem withObserved_len (x : List Observation) : (s.withObserved x).len = s.len := rfl
@[simp] theorem withObserved_bufLen (x : List Observation) : (s.withObserved x).bufLen = s.bufLen := rfl
@[simp] theorem withObserved_dstAddr (x : List Observation) : (s.withObserved x).dstAddr = s.dstAddr := rfl
@[simp] theorem withObserved_latch (x : List Observation) : (s.withObserved x).latch = s.latch := rfl
@[simp] theorem withObserved_mem (x : List Observation) : (s.withObserved x).mem = s.mem := rfl
@[simp] theorem withObserved_touched (x : List Observation) : (s.withObserved x).touched = s.touched := rfl
@[simp] theorem withObserved_fresh (x : List Observation) : (s.withObserved x).fresh = s.fresh := rfl
@[simp] theorem withObserved_hosts (x : List Observation) : (s.withObserved x).hosts = s.hosts := rfl
@[simp] theorem withObserved_sched (x : List Observation) : (s.withObserved x).sched = s.sched := rfl
@[simp] theorem withObserved_observed (x : List Observation) : (s.withObserved x).observed = x := rfl
@[simp] theorem withObserved_busy (x : List Observation) : (s.withObserved x).busy = s.busy := rfl
@[simp] theorem withObserved_stateValid (x : List Observation) : (s.withObserved x).stateValid = s.stateValid := rfl
@[simp] theorem withObserved_host (x : List Observation) (h : Nat) : (s.withObserved x).host h = s.host h := rfl

@[simp] theorem setHost_cfg (k : Nat) (a : HostAgent) : (s.setHost k a).cfg = s.cfg := rfl
@[simp] theorem setHost_gen (k : Nat) (a : HostAgent) : (s.setHost k a).gen = s.gen := rfl
@[simp] theorem setHost_engine (k : Nat) (a : HostAgent) : (s.setHost k a).engine = s.engine := rfl
@[simp] theorem setHost_ovr (k : Nat) (a : HostAgent) : (s.setHost k a).ovr = s.ovr := rfl
@[simp] theorem setHost_err (k : Nat) (a : HostAgent) : (s.setHost k a).err = s.err := rfl
@[simp] theorem setHost_seed (k : Nat) (a : HostAgent) : (s.setHost k a).seed = s.seed := rfl
@[simp] theorem setHost_len (k : Nat) (a : HostAgent) : (s.setHost k a).len = s.len := rfl
@[simp] theorem setHost_bufLen (k : Nat) (a : HostAgent) : (s.setHost k a).bufLen = s.bufLen := rfl
@[simp] theorem setHost_dstAddr (k : Nat) (a : HostAgent) : (s.setHost k a).dstAddr = s.dstAddr := rfl
@[simp] theorem setHost_latch (k : Nat) (a : HostAgent) : (s.setHost k a).latch = s.latch := rfl
@[simp] theorem setHost_mem (k : Nat) (a : HostAgent) : (s.setHost k a).mem = s.mem := rfl
@[simp] theorem setHost_touched (k : Nat) (a : HostAgent) : (s.setHost k a).touched = s.touched := rfl
@[simp] theorem setHost_fresh (k : Nat) (a : HostAgent) : (s.setHost k a).fresh = s.fresh := rfl
@[simp] theorem setHost_hosts (k : Nat) (a : HostAgent) : (s.setHost k a).hosts = hostSet s.hosts k a := rfl
@[simp] theorem setHost_sched (k : Nat) (a : HostAgent) : (s.setHost k a).sched = s.sched := rfl
@[simp] theorem setHost_observed (k : Nat) (a : HostAgent) : (s.setHost k a).observed = s.observed := rfl
@[simp] theorem setHost_busy (k : Nat) (a : HostAgent) : (s.setHost k a).busy = s.busy := rfl
@[simp] theorem setHost_stateValid (k : Nat) (a : HostAgent) : (s.setHost k a).stateValid = s.stateValid := rfl

@[simp] theorem observe_cfg (x : Observation) : (s.observe x).cfg = s.cfg := rfl
@[simp] theorem observe_gen (x : Observation) : (s.observe x).gen = s.gen := rfl
@[simp] theorem observe_engine (x : Observation) : (s.observe x).engine = s.engine := rfl
@[simp] theorem observe_ovr (x : Observation) : (s.observe x).ovr = s.ovr := rfl
@[simp] theorem observe_err (x : Observation) : (s.observe x).err = s.err := rfl
@[simp] theorem observe_seed (x : Observation) : (s.observe x).seed = s.seed := rfl
@[simp] theorem observe_len (x : Observation) : (s.observe x).len = s.len := rfl
@[simp] theorem observe_bufLen (x : Observation) : (s.observe x).bufLen = s.bufLen := rfl
@[simp] theorem observe_dstAddr (x : Observation) : (s.observe x).dstAddr = s.dstAddr := rfl
@[simp] theorem observe_latch (x : Observation) : (s.observe x).latch = s.latch := rfl
@[simp] theorem observe_mem (x : Observation) : (s.observe x).mem = s.mem := rfl
@[simp] theorem observe_touched (x : Observation) : (s.observe x).touched = s.touched := rfl
@[simp] theorem observe_fresh (x : Observation) : (s.observe x).fresh = s.fresh := rfl
@[simp] theorem observe_hosts (x : Observation) : (s.observe x).hosts = s.hosts := rfl
@[simp] theorem observe_sched (x : Observation) : (s.observe x).sched = s.sched := rfl
@[simp] theorem observe_observed (x : Observation) : (s.observe x).observed = x :: s.observed := rfl
@[simp] theorem observe_busy (x : Observation) : (s.observe x).busy = s.busy := rfl
@[simp] theorem observe_stateValid (x : Observation) : (s.observe x).stateValid = s.stateValid := rfl
@[simp] theorem observe_host (x : Observation) (h : Nat) : (s.observe x).host h = s.host h := rfl

@[simp] theorem applyReset_cfg : (applyReset s).cfg = s.cfg := rfl
@[simp] theorem applyReset_gen : (applyReset s).gen = none := rfl
@[simp] theorem applyReset_engine : (applyReset s).engine = lowestVariant s.cfg.capMask := rfl
@[simp] theorem applyReset_ovr : (applyReset s).ovr = false := rfl
@[simp] theorem applyReset_err : (applyReset s).err = .ok := rfl
@[simp] theorem applyReset_seed : (applyReset s).seed = Quad.replicate 0#64 := rfl
@[simp] theorem applyReset_len : (applyReset s).len = 0#64 := rfl
@[simp] theorem applyReset_bufLen : (applyReset s).bufLen = 0#64 := rfl
@[simp] theorem applyReset_dstAddr : (applyReset s).dstAddr = 0#64 := rfl
@[simp] theorem applyReset_latch : (applyReset s).latch = none := rfl
@[simp] theorem applyReset_mem : (applyReset s).mem = scramble s.cfg s.mem (flightStart s) s.fresh (flightBytes s) := rfl
@[simp] theorem applyReset_touched : (applyReset s).touched = [] := rfl
@[simp] theorem applyReset_fresh : (applyReset s).fresh = s.fresh + flightBytes s := rfl
@[simp] theorem applyReset_hosts : (applyReset s).hosts = endFlight s := rfl
@[simp] theorem applyReset_sched : (applyReset s).sched = s.sched := rfl
@[simp] theorem applyReset_observed : (applyReset s).observed = s.observed := rfl
@[simp] theorem applyReset_busy : (applyReset s).busy = false := rfl
@[simp] theorem applyReset_stateValid : (applyReset s).stateValid = false := rfl

/-- Reading a host just replaced gives the new one. -/
@[simp] theorem hostGet_hostSet_same (l : List HostAgent) (h : Nat) (a : HostAgent) : hostGet (hostSet l h a) h = a := by
  induction h generalizing l with
  | zero => rfl
  | succ h ih => exact ih l.tail

/-- Replacing a host leaves every other host alone. -/
theorem hostGet_hostSet_other (l : List HostAgent) (h k : Nat) (a : HostAgent) (hk : k ≠ h) :
    hostGet (hostSet l h a) k = hostGet l k := by
  induction h generalizing l k with
  | zero =>
    cases k with
    | zero => exact absurd rfl hk
    | succ k => rfl
  | succ h ih =>
    cases k with
    | zero => rfl
    | succ k => exact ih l.tail k (by omega)

/-- The last replacement of a host counts. -/
@[simp] theorem hostSet_hostSet (l : List HostAgent) (h : Nat) (a b : HostAgent) :
    hostSet (hostSet l h a) h b = hostSet l h b := by
  induction h generalizing l with
  | zero => rfl
  | succ h ih => simp [hostSet, ih]

@[simp] theorem setHost_host_same (h : Nat) (a : HostAgent) : (s.setHost h a).host h = a :=
  hostGet_hostSet_same s.hosts h a

theorem setHost_host_other (h k : Nat) (a : HostAgent) (hk : k ≠ h) : (s.setHost h a).host k = s.host k :=
  hostGet_hostSet_other s.hosts h k a hk

@[simp] theorem setHost_setHost (h : Nat) (a b : HostAgent) : (s.setHost h a).setHost h b = s.setHost h b := by
  simp [State.setHost, State.withHosts]

/-- What the end of a range changes of a host: it is noted, if the host is listed. -/
theorem hostGet_endRange (r : Region) (l : List HostAgent) (h : Nat) :
    hostGet (endRange r l) h
      = { hostGet l h with unseen := if h < l.length then r :: (hostGet l h).unseen else (hostGet l h).unseen } := by
  induction h generalizing l with
  | zero => cases l <;> rfl
  | succ h ih =>
    cases l with
    | nil => simp [endRange, hostGet]
    | cons a l => simpa [endRange, hostGet] using ih l

@[simp] theorem endRange_prog (r : Region) (l : List HostAgent) (h : Nat) :
    (hostGet (endRange r l) h).prog = (hostGet l h).prog := by rw [hostGet_endRange]

@[simp] theorem endRange_fault (r : Region) (l : List HostAgent) (h : Nat) :
    (hostGet (endRange r l) h).fault = (hostGet l h).fault := by rw [hostGet_endRange]

@[simp] theorem endRange_unfenced (r : Region) (l : List HostAgent) (h : Nat) :
    (hostGet (endRange r l) h).unfenced = (hostGet l h).unfenced := by rw [hostGet_endRange]

/-- The end of the command in flight changes no host's program, fault or fences. -/
theorem endFlight_host (h : Nat) :
    (hostGet (endFlight s) h).prog = (s.host h).prog ∧ (hostGet (endFlight s) h).fault = (s.host h).fault
      ∧ (hostGet (endFlight s) h).unfenced = (s.host h).unfenced := by
  unfold endFlight
  split
  · exact ⟨endRange_prog _ _ _, endRange_fault _ _ _, endRange_unfenced _ _ _⟩
  · exact ⟨rfl, rfl, rfl⟩

end Sys2Proof.Machine
end

