-- ==== Sys2Proof/Laws/Engine.lean ====
section
/-! SUPPORT. One lemma per field of what the three completions leave. -/
namespace Sys2Proof.Machine

variable (s : State)

@[simp] theorem completeInit_cfg (x : Quad Word) : (completeInit x s).cfg = s.cfg := rfl
@[simp] theorem completeInit_gen (x : Quad Word) : (completeInit x s).gen = some (initState s.cfg x) := rfl
@[simp] theorem completeInit_engine (x : Quad Word) : (completeInit x s).engine = s.engine := rfl
@[simp] theorem completeInit_ovr (x : Quad Word) : (completeInit x s).ovr = s.ovr := rfl
@[simp] theorem completeInit_err (x : Quad Word) : (completeInit x s).err = s.err := rfl
@[simp] theorem completeInit_seed (x : Quad Word) : (completeInit x s).seed = s.seed := rfl
@[simp] theorem completeInit_len (x : Quad Word) : (completeInit x s).len = s.len := rfl
@[simp] theorem completeInit_bufLen (x : Quad Word) : (completeInit x s).bufLen = s.bufLen := rfl
@[simp] theorem completeInit_dstAddr (x : Quad Word) : (completeInit x s).dstAddr = s.dstAddr := rfl
@[simp] theorem completeInit_latch (x : Quad Word) : (completeInit x s).latch = none := rfl
@[simp] theorem completeInit_mem (x : Quad Word) : (completeInit x s).mem = s.mem := rfl
@[simp] theorem completeInit_touched (x : Quad Word) : (completeInit x s).touched = s.touched := rfl
@[simp] theorem completeInit_fresh (x : Quad Word) : (completeInit x s).fresh = s.fresh := rfl
@[simp] theorem completeInit_hosts (x : Quad Word) : (completeInit x s).hosts = s.hosts := rfl
@[simp] theorem completeInit_sched (x : Quad Word) : (completeInit x s).sched = s.sched := rfl
@[simp] theorem completeInit_observed (x : Quad Word) : (completeInit x s).observed = s.observed := rfl
@[simp] theorem completeInit_busy (x : Quad Word) : (completeInit x s).busy = false := rfl
@[simp] theorem completeInit_stateValid (x : Quad Word) : (completeInit x s).stateValid = true := rfl
@[simp] theorem completeInit_host (x : Quad Word) (h : Nat) : (completeInit x s).host h = s.host h := rfl

@[simp] theorem completeGen_cfg (n : Nat) (d : Word) (g : GenState) : (completeGen n d g s).cfg = s.cfg := rfl
@[simp] theorem completeGen_gen (n : Nat) (d : Word) (g : GenState) : (completeGen n d g s).gen = some (rounds n g) := rfl
@[simp] theorem completeGen_engine (n : Nat) (d : Word) (g : GenState) : (completeGen n d g s).engine = s.engine := rfl
@[simp] theorem completeGen_ovr (n : Nat) (d : Word) (g : GenState) : (completeGen n d g s).ovr = s.ovr := rfl
@[simp] theorem completeGen_err (n : Nat) (d : Word) (g : GenState) : (completeGen n d g s).err = s.err := rfl
@[simp] theorem completeGen_seed (n : Nat) (d : Word) (g : GenState) : (completeGen n d g s).seed = s.seed := rfl
@[simp] theorem completeGen_len (n : Nat) (d : Word) (g : GenState) : (completeGen n d g s).len = s.len := rfl
@[simp] theorem completeGen_bufLen (n : Nat) (d : Word) (g : GenState) : (completeGen n d g s).bufLen = s.bufLen := rfl
@[simp] theorem completeGen_dstAddr (n : Nat) (d : Word) (g : GenState) : (completeGen n d g s).dstAddr = s.dstAddr := rfl
@[simp] theorem completeGen_latch (n : Nat) (d : Word) (g : GenState) : (completeGen n d g s).latch = none := rfl
@[simp] theorem completeGen_mem (n : Nat) (d : Word) (g : GenState) : (completeGen n d g s).mem = scrambleEach (genBlocks n d.toNat g s.mem) s.fresh s.touched := rfl
@[simp] theorem completeGen_touched (n : Nat) (d : Word) (g : GenState) : (completeGen n d g s).touched = [] := rfl
@[simp] theorem completeGen_fresh (n : Nat) (d : Word) (g : GenState) : (completeGen n d g s).fresh = s.fresh + s.touched.length := rfl
@[simp] theorem completeGen_hosts (n : Nat) (d : Word) (g : GenState) : (completeGen n d g s).hosts = endRange ⟨d.toNat, blockBytes * n⟩ s.hosts := rfl
@[simp] theorem completeGen_sched (n : Nat) (d : Word) (g : GenState) : (completeGen n d g s).sched = s.sched := rfl
@[simp] theorem completeGen_observed (n : Nat) (d : Word) (g : GenState) : (completeGen n d g s).observed = s.observed := rfl
@[simp] theorem completeGen_busy (n : Nat) (d : Word) (g : GenState) : (completeGen n d g s).busy = false := rfl
@[simp] theorem completeGen_stateValid (n : Nat) (d : Word) (g : GenState) : (completeGen n d g s).stateValid = true := rfl
@[simp] theorem completeGen_host (n : Nat) (d : Word) (g : GenState) (h : Nat) : (completeGen n d g s).host h = hostGet (endRange ⟨d.toNat, blockBytes * n⟩ s.hosts) h := rfl

@[simp] theorem completeSkip_cfg (n : Nat) (g : GenState) : (completeSkip n g s).cfg = s.cfg := rfl
@[simp] theorem completeSkip_gen (n : Nat) (g : GenState) : (completeSkip n g s).gen = some (rounds n g) := rfl
@[simp] theorem completeSkip_engine (n : Nat) (g : GenState) : (completeSkip n g s).engine = s.engine := rfl
@[simp] theorem completeSkip_ovr (n : Nat) (g : GenState) : (completeSkip n g s).ovr = s.ovr := rfl
@[simp] theorem completeSkip_err (n : Nat) (g : GenState) : (completeSkip n g s).err = s.err := rfl
@[simp] theorem completeSkip_seed (n : Nat) (g : GenState) : (completeSkip n g s).seed = s.seed := rfl
@[simp] theorem completeSkip_len (n : Nat) (g : GenState) : (completeSkip n g s).len = s.len := rfl
@[simp] theorem completeSkip_bufLen (n : Nat) (g : GenState) : (completeSkip n g s).bufLen = s.bufLen := rfl
@[simp] theorem completeSkip_dstAddr (n : Nat) (g : GenState) : (completeSkip n g s).dstAddr = s.dstAddr := rfl
@[simp] theorem completeSkip_latch (n : Nat) (g : GenState) : (completeSkip n g s).latch = none := rfl
@[simp] theorem completeSkip_mem (n : Nat) (g : GenState) : (completeSkip n g s).mem = s.mem := rfl
@[simp] theorem completeSkip_touched (n : Nat) (g : GenState) : (completeSkip n g s).touched = s.touched := rfl
@[simp] theorem completeSkip_fresh (n : Nat) (g : GenState) : (completeSkip n g s).fresh = s.fresh := rfl
@[simp] theorem completeSkip_hosts (n : Nat) (g : GenState) : (completeSkip n g s).hosts = s.hosts := rfl
@[simp] theorem completeSkip_sched (n : Nat) (g : GenState) : (completeSkip n g s).sched = s.sched := rfl
@[simp] theorem completeSkip_observed (n : Nat) (g : GenState) : (completeSkip n g s).observed = s.observed := rfl
@[simp] theorem completeSkip_busy (n : Nat) (g : GenState) : (completeSkip n g s).busy = false := rfl
@[simp] theorem completeSkip_stateValid (n : Nat) (g : GenState) : (completeSkip n g s).stateValid = true := rfl
@[simp] theorem completeSkip_host (n : Nat) (g : GenState) (h : Nat) : (completeSkip n g s).host h = s.host h := rfl

end Sys2Proof.Machine
end

