-- ==== Sys2Proof/Laws/Memory.lean ====
section
/-! SUPPORT. The laws of destination memory: read after write, the canonical form, and the byte lists of a block. -/
namespace Sys2Proof.Machine

theorem memRead_memWrite_same (m : Memory) (a : Nat) (b : Byte) : memRead (memWrite m a b) a = some b := by
  induction m with
  | nil => simp [memWrite, memRead]
  | cons c rest ih =>
    unfold memWrite
    split
    · simp [memRead]
    · split
      · simp [memRead]
      · have hne : c.1 ≠ a := by omega
        simp [memRead, hne, ih]

theorem memRead_memWrite_other (m : Memory) (a x : Nat) (b : Byte) (h : x ≠ a) :
    memRead (memWrite m a b) x = memRead m x := by
  induction m with
  | nil => simp [memWrite, memRead, unlisted, Ne.symm h]
  | cons c rest ih =>
    unfold memWrite
    split
    · simp [memRead, Ne.symm h]
    · split
      · rename_i _ hac
        subst hac
        simp [memRead, Ne.symm h]
      · simp [memRead, ih]

theorem risesFrom_mono (m : Memory) (lo hi : Nat) (hle : lo ≤ hi) (h : risesFrom hi m = true) :
    risesFrom lo m = true := by
  cases m with
  | nil => rfl
  | cons c rest =>
    simp only [risesFrom, Bool.and_eq_true, decide_eq_true_eq] at h ⊢
    exact ⟨by omega, h.2⟩

theorem risesFrom_memWrite (m : Memory) (lo a : Nat) (b : Byte) (hlo : lo ≤ a) (h : risesFrom lo m = true) :
    risesFrom lo (memWrite m a b) = true := by
  induction m generalizing lo with
  | nil => simp [memWrite, risesFrom, hlo]
  | cons c rest ih =>
    simp only [risesFrom, Bool.and_eq_true, decide_eq_true_eq] at h
    unfold memWrite
    split
    · simp only [risesFrom, Bool.and_eq_true, decide_eq_true_eq]
      exact ⟨hlo, by omega, h.2⟩
    · split
      · rename_i _ hac
        subst hac
        simp [risesFrom, hlo, h.2]
      · simp only [risesFrom, Bool.and_eq_true, decide_eq_true_eq]
        exact ⟨h.1, ih (c.1 + 1) (by omega) h.2⟩

/-- A store keeps the canonical form. -/
theorem memWf_memWrite (m : Memory) (a : Nat) (b : Byte) (h : memWf m = true) : memWf (memWrite m a b) = true :=
  risesFrom_memWrite m 0 a b (Nat.zero_le a) h

/-- A store of many bytes keeps the canonical form. -/
theorem memWf_memWriteBytes (m : Memory) (a : Nat) (bs : List Byte) (h : memWf m = true) :
    memWf (memWriteBytes m a bs) = true := by
  induction bs generalizing m a with
  | nil => exact h
  | cons b rest ih => exact ih _ _ (memWf_memWrite m a b h)

theorem memWf_genBlocks (n a : Nat) (g : GenState) (m : Memory) (h : memWf m = true) :
    memWf (genBlocks n a g m) = true := by
  induction n generalizing a g m with
  | zero => exact h
  | succ n ih => exact ih _ _ _ (memWf_memWriteBytes _ _ _ h)

theorem memWf_scramble (c : Config) (m : Memory) (a f n : Nat) (h : memWf m = true) :
    memWf (scramble c m a f n) = true := by
  induction n with
  | zero => exact h
  | succ n ih =>
    simp only [scramble]
    split
    · exact memWf_memWrite _ _ _ ih
    · exact ih

theorem memWf_scrambleEach (m : Memory) (f : Nat) (as : List Nat) (h : memWf m = true) :
    memWf (scrambleEach m f as) = true := by
  induction as generalizing m f with
  | nil => exact h
  | cons a rest ih => exact ih _ _ (memWf_memWrite _ _ _ h)

/-- Memory right after reset is in canonical form. -/
theorem memWf_reset : memWf State.reset.mem = true := rfl

theorem mem_memWrite {m : Memory} {a : Nat} {b : Byte} {c : Host.Cell} (h : c ∈ memWrite m a b) :
    c = (a, b) ∨ c ∈ m := by
  induction m with
  | nil => simpa [memWrite] using h
  | cons d rest ih =>
    unfold memWrite at h
    split at h
    · simpa using h
    · split at h
      · rcases List.mem_cons.mp h with h | h
        · exact .inl h
        · exact .inr (List.mem_cons_of_mem _ h)
      · rcases List.mem_cons.mp h with h | h
        · exact .inr (h ▸ List.mem_cons_self)
        · rcases ih h with h | h
          · exact .inl h
          · exact .inr (List.mem_cons_of_mem _ h)

theorem memRead_memWriteBytes_outside (m : Memory) (a x : Nat) (bs : List Byte) (h : x < a ∨ a + bs.length ≤ x) :
    memRead (memWriteBytes m a bs) x = memRead m x := by
  induction bs generalizing m a with
  | nil => rfl
  | cons b rest ih =>
    simp only [List.length_cons] at h
    rw [memWriteBytes, ih _ _ (by omega), memRead_memWrite_other _ _ _ _ (by omega)]

theorem memRead_memWriteBytes_inside (m : Memory) (a i : Nat) (bs : List Byte) (h : i < bs.length) :
    memRead (memWriteBytes m a bs) (a + i) = some bs[i] := by
  induction bs generalizing m a i with
  | nil => simp at h
  | cons b rest ih =>
    cases i with
    | zero =>
      rw [memWriteBytes, memRead_memWriteBytes_outside _ _ _ _ (by omega)]
      exact memRead_memWrite_same m a b
    | succ i =>
      have := ih (memWrite m a b) (a + 1) i (by simpa using h)
      rw [memWriteBytes, show a + (i + 1) = a + 1 + i by omega, this]
      rfl

theorem memWriteBytes_append (m : Memory) (a : Nat) (xs ys : List Byte) :
    memWriteBytes m a (xs ++ ys) = memWriteBytes (memWriteBytes m a xs) (a + xs.length) ys := by
  induction xs generalizing m a with
  | nil => rfl
  | cons b rest ih =>
    simp only [List.cons_append, memWriteBytes, ih, List.length_cons]
    rw [show a + 1 + rest.length = a + (rest.length + 1) by omega]

@[simp] theorem length_bytesLE (n : Nat) (v : Word) : (bytesLE n v).length = n := by simp [bytesLE]

@[simp] theorem length_laneBytes (d : DoubleLane) : (laneBytes d).length = 32 := by
  simp [laneBytes, Quad.toList]

@[simp] theorem length_blockBytesOf (b : Block) : (blockBytesOf b).length = blockBytes := by
  simp [blockBytesOf, Quad.toList, blockBytes]

theorem memRead_scramble_outside (c : Config) (m : Memory) (a f n x : Nat) (h : x < a ∨ a + n ≤ x) :
    memRead (scramble c m a f n) x = memRead m x := by
  induction n with
  | zero => rfl
  | succ n ih =>
    simp only [scramble]
    split
    · rw [memRead_memWrite_other _ _ _ _ (by omega), ih (by omega)]
    · exact ih (by omega)

theorem memRead_scrambleEach_outside (m : Memory) (f : Nat) (as : List Nat) (x : Nat) (h : x ∉ as) :
    memRead (scrambleEach m f as) x = memRead m x := by
  induction as generalizing m f with
  | nil => rfl
  | cons a rest ih =>
    simp only [List.mem_cons, not_or] at h
    rw [scrambleEach, ih _ _ h.2, memRead_memWrite_other _ _ _ _ h.1]

theorem memRead_genBlocks_outside (n a : Nat) (g : GenState) (m : Memory) (x : Nat)
    (h : x < a ∨ a + blockBytes * n ≤ x) : memRead (genBlocks n a g m) x = memRead m x := by
  induction n generalizing a g m with
  | zero => rfl
  | succ n ih =>
    rw [genBlocks, ih _ _ _ (by rw [Nat.mul_succ] at h; omega), writeBlock,
      memRead_memWriteBytes_outside _ _ _ _ (by rw [length_blockBytesOf]; rw [Nat.mul_succ] at h; omega)]

/-- Storing many bytes lists only addresses of their range or addresses listed before. -/
theorem memWriteBytes_mem {m : Memory} {a : Nat} {bs : List Byte} {c : Host.Cell} (h : c ∈ memWriteBytes m a bs) :
    (∃ i, i < bs.length ∧ c.1 = a + i) ∨ c ∈ m := by
  induction bs generalizing m a with
  | nil => exact .inr h
  | cons b rest ih =>
    rcases ih h with ⟨i, hi, hc⟩ | h
    · exact .inl ⟨i+1, by simpa using hi, by omega⟩
    · rcases mem_memWrite h with rfl | h
      · exact .inl ⟨0, by simp, rfl⟩
      · exact .inr h

/-- A run of blocks lists only addresses of its range or addresses listed before. -/
theorem genBlocks_mem {n a : Nat} {g : GenState} {m : Memory} {c : Host.Cell} (h : c ∈ genBlocks n a g m) :
    (∃ i, i < 128 * n ∧ c.1 = a + i) ∨ c ∈ m := by
  induction n generalizing a g m with
  | zero => exact .inr h
  | succ n ih =>
    rcases ih h with ⟨i, hi, hc⟩ | h
    · exact .inl ⟨i + 128, by omega, by simp [blockBytes] at hc; omega⟩
    · rcases memWriteBytes_mem h with ⟨i, hi, hc⟩ | h
      · exact .inl ⟨i, by simp [blockBytes] at hi; omega, hc⟩
      · exact .inr h

/-- Only the listed addresses become listed. -/
theorem scrambleEach_mem {m : Memory} {f : Nat} {as : List Nat} {c : Host.Cell} (h : c ∈ scrambleEach m f as) :
    c.1 ∈ as ∨ c ∈ m := by
  induction as generalizing m f with
  | nil => exact .inr h
  | cons a rest ih =>
    rcases ih h with h | h
    · exact .inl (List.mem_cons_of_mem _ h)
    · rcases mem_memWrite h with rfl | h
      · exact .inl List.mem_cons_self
      · exact .inr h

/-- Only existing bytes become listed. -/
theorem scramble_mem {k : Sys2Proof.Config} {m : Memory} {a f n : Nat} {c : Host.Cell} (h : c ∈ scramble k m a f n) :
    byteExists k c.1 = true ∨ c ∈ m := by
  induction n with
  | zero => exact .inr h
  | succ n ih =>
    simp only [scramble] at h
    split at h
    · rename_i hb
      rcases mem_memWrite h with rfl | h
      · exact .inl hb
      · exact ih h
    · exact ih h

end Sys2Proof.Machine
end

