-- ==== Sys2Proof/Laws/Generate.lean ====
section
/-! SUPPORT. The byte stream of a run of blocks, and the bytes that a step leaves open. -/
namespace Sys2Proof.Machine

/-- Byte i of word j of a double-lane stands at offset 8j + i. -/
theorem laneBytes_get (d : DoubleLane) (j : Fin 4) (i : Fin 8) :
    (laneBytes d)[8*j.val+i.val]? = some ((d.nth j).extractLsb' (8*i.val) 8) := by
  simp only [laneBytes, Quad.toList]
  fin_cases j <;> fin_cases i <;> rfl

/-- Byte i of word j of double-lane k of a block stands at offset 32k + 8j + i. -/
theorem blockBytes_get (b : Block) (k j : Fin 4) (i : Fin 8) :
    (blockBytesOf b)[32*k.val + 8*j.val+i.val]? = some (((b.nth k).nth j).extractLsb' (8*i.val) 8) := by
  have hl := laneBytes_get (b.nth k) j i
  simp only [blockBytesOf, Quad.toList, List.flatMap_cons, List.flatMap_nil, List.append_nil]
  fin_cases k
  · simp only [Quad.nth] at *
    rw [List.getElem?_append_left (by simp; omega)]; simpa using hl
  · simp only [Quad.nth] at *
    rw [List.getElem?_append_right (by simp; omega), List.getElem?_append_left (by simp; omega)]
    rw [← hl]; congr 1; simp; omega
  · simp only [Quad.nth] at *
    rw [List.getElem?_append_right (by simp; omega), List.getElem?_append_right (by simp; omega), List.getElem?_append_left (by simp; omega)]
    rw [← hl]; congr 1; simp; omega
  · simp only [Quad.nth] at *
    rw [List.getElem?_append_right (by simp; omega), List.getElem?_append_right (by simp; omega), List.getElem?_append_right (by simp; omega)]
    rw [← hl]; congr 1; simp; omega

/-- Rounds compose. -/
theorem rounds_add (m n : Nat) (g : GenState) : rounds (m+n) g = rounds n (rounds m g) := by
  induction m generalizing g with
  | zero => simp [rounds]
  | succ m ih => rw [Nat.succ_add, rounds, ih]; rfl

/-- What a run of blocks leaves in block b: the pending output after b rounds. -/
theorem genBlocks_read (n a : Nat) (g : GenState) (m : Memory) (b x : Nat) (hb : b < n) (hx : x < 128) :
    memRead (genBlocks n a g m) (a + 128*b + x) = (blockBytesOf (rounds b g).o)[x]? := by
  induction n generalizing a g m b with
  | zero => omega
  | succ n ih =>
    cases b with
    | zero =>
      rw [genBlocks, memRead_genBlocks_outside _ _ _ _ _ (.inl (by simp [blockBytes]; omega)), writeBlock]
      have := memRead_memWriteBytes_inside m a x (blockBytesOf g.o) (by simpa [blockBytes] using hx)
      rw [show a + 128*0 + x = a + x by omega, this]
      simp [rounds]
    | succ b =>
      rw [genBlocks, show a + 128*(b+1) + x = (a + blockBytes) + 128 * b + x by simp [blockBytes]; omega, ih _ _ _ _ (by omega)]
      rfl

/-- A run of blocks is its first blocks and then the rest. -/
theorem genBlocks_add (m n a : Nat) (g : GenState) (mem : Memory) :
   genBlocks (m+n) a g mem = genBlocks n (a + 128*m) (rounds m g) (genBlocks m a g mem) := by
  induction m generalizing a g mem with
  | zero => simp [genBlocks, rounds]
  | succ m ih =>
    rw [Nat.succ_add, genBlocks, ih, rounds, genBlocks]
    congr 1; simp [blockBytes]; omega

/-- Each listed address holds one of the free values drawn. -/
theorem scrambleEach_read (m : Memory) (f : Nat) (as : List Nat) (a : Nat) (h : a ∈ as) :
    ∃ n, f ≤ n ∧ n < f + as.length ∧ memRead (scrambleEach m f as) a = some (Config.freeByte n) := by
  induction as generalizing m f with
  | nil => simp at h
  | cons x rest ih =>
    by_cases hr : a ∈ rest
    · obtain ⟨n, h1, h2, h3⟩ := ih (memWrite m x (Config.freeByte f)) (f+1) hr
      exact ⟨n, by omega, by simp; omega, h3⟩
    · have : a = x := by simpa [hr] using h
      subst this
      refine ⟨f, le_refl _, by simp, ?_⟩
      rw [scrambleEach, memRead_scrambleEach_outside _ _ _ _ hr, memRead_memWrite_same]

/-- Each existing byte of a scrambled range holds its own free value. -/
theorem scramble_read (c : Config) (m : Memory) (a f n i : Nat) (hi : i < n) (he : byteExists c (a+i) = true) :
    memRead (scramble c m a f n) (a+i) = some (Config.freeByte (f+i)) := by
  induction n with
  | zero => omega
  | succ n ih =>
    simp only [scramble]
    by_cases h : i = n
    · subst h; rw [if_pos he, memRead_memWrite_same]
    · split
      · rw [memRead_memWrite_other _ _ _ _ (by omega), ih (by omega)]
      · exact ih (by omega)

end Sys2Proof.Machine
end

