-- ==== Sys2Proof/Laws/Operands.lean ====
section
/-! SUPPORT. What the checks of acceptance say in the spec's own arithmetic. -/
namespace Sys2Proof.Machine

variable (s : State)

theorem lenMisshaped_iff : lenMisshaped s = true ↔ s.len.toNat % 128 ≠ 0 := by
  simp [lenMisshaped, blockBytes]

theorem bufMisshaped_iff : bufMisshaped s = true ↔ s.bufLen ≠ s.len := by
  simp [bufMisshaped]

theorem outOfRange_iff : outOfRange s = true ↔ 2 ^ s.cfg.paWidth < s.dstAddr.toNat + s.len.toNat := by
  simp [outOfRange]

theorem inRegion_iff (r : Region) (a : Nat) : inRegion r a = true ↔ r.base ≤ a ∧ a < r.base + r.size := by
  simp [inRegion]

/-- The closed form of two ranges meeting says that they share an address. -/
theorem meetsRegion_iff (r : Region) (a n : Nat) :
    meetsRegion r a n = true ↔ ∃ x, (r.base ≤ x ∧ x < r.base + r.size) ∧ (a ≤ x ∧ x < a + n) := by
  simp only [meetsRegion, Bool.and_eq_true, decide_eq_true_eq]
  constructor
  · rintro ⟨⟨⟨h1, h2⟩, h3⟩, h4⟩
    exact ⟨max r.base a, by omega, by omega⟩
  · rintro ⟨x, hx, hy⟩
    omega

theorem meetsEngineRegs_iff (c : Config) (a n : Nat) :
    meetsEngineRegs c a n = true
      ↔ ∃ r ∈ c.engineRegs, ∃ x, (r.base ≤ x ∧ x < r.base + r.size) ∧ (a ≤ x ∧ x < a + n) := by
  simp only [meetsEngineRegs, List.any_eq_true, meetsRegion_iff]

theorem rangeExists_iff (c : Config) (a n : Nat) :
    rangeExists c a n = true ↔ ∀ i, i < n → byteExists c (a + i) = true := by
  simp [rangeExists, List.all_eq_true]

@[simp] theorem lenMisshaped_withOvr (x : Bool) : lenMisshaped (s.withOvr x) = lenMisshaped s := rfl
@[simp] theorem bufMisshaped_withOvr (x : Bool) : bufMisshaped (s.withOvr x) = bufMisshaped s := rfl
@[simp] theorem outOfRange_withOvr (x : Bool) : outOfRange (s.withOvr x) = outOfRange s := rfl
@[simp] theorem initOperands_withOvr (x : Bool) : initOperands (s.withOvr x) = initOperands s := rfl
@[simp] theorem genOperands_withOvr (x : Bool) : genOperands (s.withOvr x) = genOperands s := rfl
@[simp] theorem skipOperands_withOvr (x : Bool) : skipOperands (s.withOvr x) = skipOperands s := rfl

end Sys2Proof.Machine
end

