-- ==== Sys2Proof/Laws/Ops.lean ====
section
/-! SUPPORT. For each shared operation, everything it can do: if it answers a next state, then which. -/
namespace Sys2Proof.Machine

variable {s t : State}

theorem raise_next {code : ErrCode} (h : raise s code = .next t) : t = s.withErr code := by
  simpa [raise] using h.symm

theorem accept_busy (handle : State → Host.Outcome State Fault Refusal) (h : s.busy = true) :
    accept s handle = .next (s.withOvr true) := by
  simp [accept, h]

theorem accept_idle (handle : State → Host.Outcome State Fault Refusal) (h : s.busy = false) :
    accept s handle = handle (s.withOvr false) := by
  simp [accept, h]

/-- Acceptance drops the word while busy, and handles it with `OVR` cleared otherwise. -/
theorem accept_next {handle : State → Host.Outcome State Fault Refusal} (h : accept s handle = .next t) :
    (s.busy = true ∧ t = s.withOvr true) ∨ (s.busy = false ∧ handle (s.withOvr false) = .next t) := by
  unfold accept at h
  split at h
  · exact .inl ⟨by assumption, by simpa using h.symm⟩
  · exact .inr ⟨Bool.eq_false_iff.mpr (by assumption), h⟩

theorem acceptSelect_next {v : Variant} (h : acceptSelect s v = .next t) :
    (supported s.cfg.capMask v = true ∧ t = ((s.withEngine v).withGen none).withErr .ok)
      ∨ (supported s.cfg.capMask v = false ∧ t = s.withErr .cap) := by
  unfold acceptSelect at h
  split at h
  · exact .inl ⟨by assumption, by simpa using h.symm⟩
  · exact .inr ⟨Bool.eq_false_iff.mpr (by assumption), raise_next h⟩

/-- `GEN`'s handling reports a code and changes nothing else, or latches its operands. -/
theorem acceptGen_next (h : acceptGen s = .next t) :
    (∃ code, t = s.withErr code)
      ∨ (s.stateValid = true ∧ lenMisshaped s = false ∧ bufMisshaped s = false ∧ outOfRange s = false
          ∧ s.len ≠ 0#64 ∧ t = (s.withErr .ok).withLatch (some (genOperands s))) := by
  unfold acceptGen at h
  split at h
  · exact .inl ⟨_, raise_next h⟩
  · split at h
    · exact .inl ⟨_, raise_next h⟩
    · split at h
      · exact .inl ⟨_, raise_next h⟩
      · split at h
        · exact .inl ⟨_, raise_next h⟩
        · split at h
          · exact .inl ⟨.ok, by simpa using h.symm⟩
          · split at h
            · cases h
            · exact .inr ⟨by simp_all, by simp_all, by simp_all, by simp_all, by assumption, by simpa using h.symm⟩

/-- `SKIP`'s handling reports a code and changes nothing else, or latches its operand. -/
theorem acceptSkip_next (h : acceptSkip s = .next t) :
    (∃ code, t = s.withErr code)
      ∨ (s.stateValid = true ∧ lenMisshaped s = false ∧ s.len ≠ 0#64
          ∧ t = (s.withErr .ok).withLatch (some (skipOperands s))) := by
  unfold acceptSkip at h
  split at h
  · exact .inl ⟨_, raise_next h⟩
  · split at h
    · exact .inl ⟨_, raise_next h⟩
    · split at h
      · exact .inl ⟨.ok, by simpa using h.symm⟩
      · exact .inr ⟨by simp_all, by simp_all, by assumption, by simpa using h.symm⟩

/-- An agent's read changes nothing but what has been observed and the free values drawn. -/
theorem agentLoad_next {who : Agent} {a n : Nat} (h : agentLoad s who a n = .next t) :
    rangeReadable s who a n = true
      ∧ t = (s.withFresh (loadBytes s who a s.fresh n).2).observe (.bytes who a (loadBytes s who a s.fresh n).1) := by
  unfold agentLoad at h
  split at h
  · exact ⟨by assumption, by simpa using h.symm⟩
  · cases h

/-- A range of existing bytes is readable by every agent. -/
theorem rangeReadable_of_exists {who : Agent} {a n : Nat} (h : rangeExists s.cfg a n = true) :
    rangeReadable s who a n = true := by
  simp only [rangeExists, List.all_eq_true] at h
  simp only [rangeReadable, List.all_eq_true, readable, Bool.or_eq_true]
  exact fun i hi => .inr (h i hi)

/-- One byte, open to the agent, is readable. -/
theorem rangeReadable_of_open {who : Agent} {a : Nat} (h : openTo s who a = true) :
    rangeReadable s who a 1 = true := by
  simp [rangeReadable, readable, h]

/-- An agent's write notes its byte if it is in flight, leaves it any value if its host has yet to see the range end, and
stores it otherwise. Of a byte that does not exist the first two change nothing. -/
theorem agentStore_next {who : Agent} {a : Nat} {b : Byte} (h : agentStore s who a b = .next t) :
    (byteExists s.cfg a = true
      ∧ ((inFlight s a = true ∧ t = s.withTouched (if a ∈ s.touched then s.touched else a :: s.touched))
        ∨ (inFlight s a = false ∧ ((storeOpen s who a = true
              ∧ t = (s.withMem (memWrite s.mem a (Config.freeByte s.fresh))).withFresh (s.fresh + 1))
            ∨ (storeOpen s who a = false ∧ t = s.withMem (memWrite s.mem a b))))))
      ∨ (byteExists s.cfg a = false ∧ (inFlight s a = true ∨ storeOpen s who a = true) ∧ t = s) := by
  unfold agentStore at h
  split at h
  · refine .inl ⟨by assumption, ?_⟩
    split at h
    · exact .inl ⟨by assumption, by simpa using h.symm⟩
    · refine .inr ⟨Bool.eq_false_iff.mpr (by assumption), ?_⟩
      split at h
      · exact .inl ⟨by assumption, by simpa using h.symm⟩
      · exact .inr ⟨Bool.eq_false_iff.mpr (by assumption), by simpa using h.symm⟩
  · split at h
    · rename_i hopen
      exact .inr ⟨Bool.eq_false_iff.mpr (by assumption), Bool.or_eq_true_iff.mp hopen, by simpa using h.symm⟩
    · cases h

/-- Completion is one of the three executions, or nothing when idle. -/
theorem complete_next (h : complete s = .next t) :
    (s.latch = none ∧ t = s)
      ∨ (∃ seed, s.latch = some (.init seed) ∧ t = completeInit seed s)
      ∨ (∃ nblk dst g, s.latch = some (.gen nblk dst) ∧ s.gen = some g ∧ t = completeGen nblk dst g s)
      ∨ (∃ nblk g, s.latch = some (.skip nblk) ∧ s.gen = some g ∧ t = completeSkip nblk g s) := by
  unfold complete at h
  split at h
  · exact .inl ⟨by assumption, by simpa using h.symm⟩
  · exact .inr (.inl ⟨_, by assumption, by simpa using h.symm⟩)
  · split at h
    · cases h
    · exact .inr (.inr (.inl ⟨_, _, _, by assumption, by assumption, by simpa using h.symm⟩))
  · split at h
    · cases h
    · exact .inr (.inr (.inr ⟨_, _, by assumption, by assumption, by simpa using h.symm⟩))

/-- The engine's turn completes if it can, and does nothing otherwise. -/
theorem engineTurn_next (h : engineTurn s = .next t) :
    (engineEnabled s = true ∧ complete s = .next t) ∨ (engineEnabled s = false ∧ t = s) := by
  unfold engineTurn at h
  split at h
  · exact .inl ⟨by assumption, h⟩
  · exact .inr ⟨Bool.eq_false_iff.mpr (by assumption), by simpa using h.symm⟩

/-- A `CMD` write runs the decoded command, or reports an illegal word. -/
theorem cmdWrite_next {v : Word} (h : cmdWrite v s = .next t) :
    (∃ i, decode v = .ok i ∧ exec i s = .next t) ∨ (∃ e, decode v = .error e ∧ acceptIllegal s = .next t) := by
  unfold cmdWrite at h
  split at h
  · exact .inl ⟨_, by assumption, h⟩
  · exact .inr ⟨_, by assumption, h⟩

/-- Everything a command can do that answers a next state: it is dropped, it reports a code and changes nothing else, it
latches its operands, or it selects a variant. -/
theorem exec_next {i : Instr} (h : exec i s = .next t) :
    (s.busy = true ∧ t = s.withOvr true)
      ∨ (s.busy = false ∧ ∃ code, t = (s.withOvr false).withErr code)
      ∨ (s.busy = false ∧ ∃ l, t = ((s.withOvr false).withErr .ok).withLatch (some l) ∧
          ((i = .init ∧ l = initOperands s)
            ∨ (i = .gen ∧ s.stateValid = true ∧ lenMisshaped s = false ∧ bufMisshaped s = false ∧ outOfRange s = false
                ∧ s.len ≠ 0#64 ∧ l = genOperands s)
            ∨ (i = .skip ∧ s.stateValid = true ∧ lenMisshaped s = false ∧ s.len ≠ 0#64 ∧ l = skipOperands s)))
      ∨ (s.busy = false ∧ ∃ v, i = .select v.id ∧ supported s.cfg.capMask v = true
          ∧ t = (((s.withOvr false).withEngine v).withGen none).withErr .ok) := by
  cases i with
  | nop =>
    simp only [exec, execNop] at h
    rcases accept_next h with ⟨hb, rfl⟩ | ⟨hb, h⟩
    · exact .inl ⟨hb, rfl⟩
    · exact .inr (.inl ⟨hb, .ok, by simpa using h.symm⟩)
  | init =>
    simp only [exec, execInit] at h
    rcases accept_next h with ⟨hb, rfl⟩ | ⟨hb, h⟩
    · exact .inl ⟨hb, rfl⟩
    · exact .inr (.inr (.inl ⟨hb, _, by simpa using h.symm, .inl ⟨rfl, rfl⟩⟩))
  | gen =>
    simp only [exec, execGen] at h
    rcases accept_next h with ⟨hb, rfl⟩ | ⟨hb, h⟩
    · exact .inl ⟨hb, rfl⟩
    · rcases acceptGen_next h with ⟨c, rfl⟩ | ⟨h1, h2, h3, h4, h5, rfl⟩
      · exact .inr (.inl ⟨hb, c, rfl⟩)
      · exact .inr (.inr (.inl ⟨hb, _, rfl, .inr (.inl ⟨rfl, h1, h2, h3, h4, h5, rfl⟩)⟩))
  | skip =>
    simp only [exec, execSkip] at h
    rcases accept_next h with ⟨hb, rfl⟩ | ⟨hb, h⟩
    · exact .inl ⟨hb, rfl⟩
    · rcases acceptSkip_next h with ⟨c, rfl⟩ | ⟨h1, h2, h3, rfl⟩
      · exact .inr (.inl ⟨hb, c, rfl⟩)
      · exact .inr (.inr (.inl ⟨hb, _, rfl, .inr (.inr ⟨rfl, h1, h2, h3, rfl⟩)⟩))
  | select e =>
    simp only [exec, execSelect] at h
    rcases accept_next h with ⟨hb, rfl⟩ | ⟨hb, h⟩
    · exact .inl ⟨hb, rfl⟩
    · split at h
      · exact .inr (.inl ⟨hb, .illegal, raise_next h⟩)
      · rename_i v hv
        rcases acceptSelect_next h with ⟨hm, rfl⟩ | ⟨hm, rfl⟩
        · exact .inr (.inr (.inr ⟨hb, v, by rw [id_of_ofId? hv], hm, rfl⟩))
        · exact .inr (.inl ⟨hb, .cap, rfl⟩)

/-- An illegal word is dropped while busy, and reports `ERR_ILLEGAL` otherwise. -/
theorem acceptIllegal_next (h : acceptIllegal s = .next t) :
    (s.busy = true ∧ t = s.withOvr true) ∨ (s.busy = false ∧ t = (s.withOvr false).withErr .illegal) := by
  simp only [acceptIllegal] at h
  rcases accept_next h with h | ⟨hb, h⟩
  · exact .inl h
  · exact .inr ⟨hb, raise_next h⟩

/-- Everything a `CMD` write of any word can do that answers a next state. -/
theorem cmdWrite_cases {v : Word} (h : cmdWrite v s = .next t) :
    (s.busy = true ∧ t = s.withOvr true)
      ∨ (s.busy = false ∧ ∃ code, t = (s.withOvr false).withErr code)
      ∨ (s.busy = false ∧ ∃ l, t = ((s.withOvr false).withErr .ok).withLatch (some l) ∧
          ((l = initOperands s)
            ∨ (s.stateValid = true ∧ lenMisshaped s = false ∧ outOfRange s = false
                ∧ s.len ≠ 0#64 ∧ l = genOperands s)
            ∨ (s.stateValid = true ∧ lenMisshaped s = false ∧ s.len ≠ 0#64 ∧ l = skipOperands s)))
      ∨ (s.busy = false ∧ ∃ w, decode v = .ok (.select w.id) ∧ supported s.cfg.capMask w = true
          ∧ t = (((s.withOvr false).withEngine w).withGen none).withErr .ok) := by
  rcases cmdWrite_next h with ⟨i, hd, h⟩ | ⟨e, hd, h⟩
  · rcases exec_next h with h | h | ⟨hb, l, ht, h⟩ | ⟨hb, w, rfl, hm, ht⟩
    · exact .inl h
    · exact .inr (.inl h)
    · refine .inr (.inr (.inl ⟨hb, l, ht, ?_⟩))
      rcases h with ⟨_, h⟩ | ⟨_, h1, h2, h3, h4, h5, h6⟩ | ⟨_, h⟩
      · exact .inl h
      · exact .inr (.inl ⟨h1, h2, h4, h5, h6⟩)
      · exact .inr (.inr h)
    · exact .inr (.inr (.inr ⟨hb, w, hd, hm, ht⟩))
  · rcases acceptIllegal_next h with h | ⟨hb, h⟩
    · exact .inl h
    · exact .inr (.inl ⟨hb, _, h⟩)

/-- A register write changes the operand registers and nothing else. -/
theorem writeReg_eq (s : State) (off : BitVec 8) (v : Word) :
    writeReg s off v
      = (((s.withSeed (writeReg s off v).seed).withLen (writeReg s off v).len).withBufLen
          (writeReg s off v).bufLen).withDstAddr (writeReg s off v).dstAddr := by
  unfold writeReg
  repeat' split
  all_goals rfl

@[simp] theorem writeReg_cfg (s : State) (off : BitVec 8) (v : Word) : (writeReg s off v).cfg = s.cfg := by
  rw [writeReg_eq]; simp only [withDstAddr_cfg, withBufLen_cfg, withLen_cfg, withSeed_cfg]
@[simp] theorem writeReg_gen (s : State) (off : BitVec 8) (v : Word) : (writeReg s off v).gen = s.gen := by
  rw [writeReg_eq]; simp only [withDstAddr_gen, withBufLen_gen, withLen_gen, withSeed_gen]
@[simp] theorem writeReg_engine (s : State) (off : BitVec 8) (v : Word) : (writeReg s off v).engine = s.engine := by
  rw [writeReg_eq]; simp only [withDstAddr_engine, withBufLen_engine, withLen_engine, withSeed_engine]
@[simp] theorem writeReg_ovr (s : State) (off : BitVec 8) (v : Word) : (writeReg s off v).ovr = s.ovr := by
  rw [writeReg_eq]; simp only [withDstAddr_ovr, withBufLen_ovr, withLen_ovr, withSeed_ovr]
@[simp] theorem writeReg_err (s : State) (off : BitVec 8) (v : Word) : (writeReg s off v).err = s.err := by
  rw [writeReg_eq]; simp only [withDstAddr_err, withBufLen_err, withLen_err, withSeed_err]
@[simp] theorem writeReg_latch (s : State) (off : BitVec 8) (v : Word) : (writeReg s off v).latch = s.latch := by
  rw [writeReg_eq]; simp only [withDstAddr_latch, withBufLen_latch, withLen_latch, withSeed_latch]
@[simp] theorem writeReg_mem (s : State) (off : BitVec 8) (v : Word) : (writeReg s off v).mem = s.mem := by
  rw [writeReg_eq]; simp only [withDstAddr_mem, withBufLen_mem, withLen_mem, withSeed_mem]
@[simp] theorem writeReg_touched (s : State) (off : BitVec 8) (v : Word) : (writeReg s off v).touched = s.touched := by
  rw [writeReg_eq]; simp only [withDstAddr_touched, withBufLen_touched, withLen_touched, withSeed_touched]
@[simp] theorem writeReg_fresh (s : State) (off : BitVec 8) (v : Word) : (writeReg s off v).fresh = s.fresh := by
  rw [writeReg_eq]; simp only [withDstAddr_fresh, withBufLen_fresh, withLen_fresh, withSeed_fresh]
@[simp] theorem writeReg_hosts (s : State) (off : BitVec 8) (v : Word) : (writeReg s off v).hosts = s.hosts := by
  rw [writeReg_eq]; simp only [withDstAddr_hosts, withBufLen_hosts, withLen_hosts, withSeed_hosts]
@[simp] theorem writeReg_sched (s : State) (off : BitVec 8) (v : Word) : (writeReg s off v).sched = s.sched := by
  rw [writeReg_eq]; simp only [withDstAddr_sched, withBufLen_sched, withLen_sched, withSeed_sched]
@[simp] theorem writeReg_observed (s : State) (off : BitVec 8) (v : Word) : (writeReg s off v).observed = s.observed := by
  rw [writeReg_eq]; simp only [withDstAddr_observed, withBufLen_observed, withLen_observed, withSeed_observed]
@[simp] theorem writeReg_busy (s : State) (off : BitVec 8) (v : Word) : (writeReg s off v).busy = s.busy := by
  rw [writeReg_eq]; simp only [withDstAddr_busy, withBufLen_busy, withLen_busy, withSeed_busy]
@[simp] theorem writeReg_stateValid (s : State) (off : BitVec 8) (v : Word) : (writeReg s off v).stateValid = s.stateValid := by
  rw [writeReg_eq]; simp only [withDstAddr_stateValid, withBufLen_stateValid, withLen_stateValid, withSeed_stateValid]
@[simp] theorem writeReg_host (s : State) (off : BitVec 8) (v : Word) (h : Nat) : (writeReg s off v).host h = s.host h := by
  rw [writeReg_eq]; simp only [withDstAddr_host, withBufLen_host, withLen_host, withSeed_host]

/-- A read of `STATUS` changes the reading host and nothing else. -/
theorem seeStatus_eq (s : State) (h : Nat) : s.seeStatus h = s.withHosts (s.seeStatus h).hosts := by
  unfold State.seeStatus
  split <;> rfl

theorem seeStatus_host (s : State) (h k : Nat) :
    ((s.seeStatus h).host k).prog = (s.host k).prog ∧ ((s.seeStatus h).host k).fault = (s.host k).fault := by
  unfold State.seeStatus
  split
  · exact ⟨rfl, rfl⟩
  · by_cases hk : k = h
    · subst hk; simp
    · simp [setHost_host_other _ _ _ _ hk]

/-- A register read changes the reading host and what has been observed. -/
theorem windowRead_eq (h : Nat) (off : BitVec 8) (s : State) :
    windowRead h off s = (s.withHosts (windowRead h off s).hosts).observe (.reg h off (readReg s off)) := by
  unfold windowRead
  split
  · rw [seeStatus_eq]; rfl
  · rfl

/-- A host write is a command, a register write or a bus error. -/
theorem hostWrite_next {k bytes : Nat} {addr v : Word} (h : hostWrite k bytes addr v s = .next t) :
    ∃ off, windowOffset? s.cfg addr = some off ∧
      ((accessOk bytes off = true ∧ off = 0x00#8 ∧ cmdWrite v s = .next t)
        ∨ (accessOk bytes off = true ∧ off ≠ 0x00#8 ∧ t = writeReg s off v)
        ∨ (accessOk bytes off = false ∧ t = recordFault k (.busError bytes off) s)) := by
  unfold hostWrite at h
  split at h
  · cases h
  · refine ⟨_, by assumption, ?_⟩
    split at h
    · unfold windowWrite at h
      split at h
      · exact .inl ⟨by assumption, by assumption, h⟩
      · exact .inr (.inl ⟨by assumption, by assumption, by simpa using h.symm⟩)
    · exact .inr (.inr ⟨Bool.eq_false_iff.mpr (by assumption), by simpa using h.symm⟩)

/-- A host read records the register's value, or a bus error. -/
theorem hostRead_next {k bytes : Nat} {addr : Word} (h : hostRead k bytes addr s = .next t) :
    ∃ off, windowOffset? s.cfg addr = some off ∧
      ((accessOk bytes off = true ∧ t = windowRead k off s)
        ∨ (accessOk bytes off = false ∧ t = recordFault k (.busError bytes off) s)) := by
  unfold hostRead at h
  split at h
  · cases h
  · refine ⟨_, by assumption, ?_⟩
    split at h
    · exact .inl ⟨by assumption, by simpa using h.symm⟩
    · exact .inr ⟨Bool.eq_false_iff.mpr (by assumption), by simpa using h.symm⟩

/-- The host's turn performs its next access, or nothing when its program is done. -/
theorem hostTurn_next {k : Nat} (h : hostTurn k s = .next t) :
    ((s.host k).prog = [] ∧ t = s)
      ∨ (∃ op rest, (s.host k).prog = op :: rest ∧ (s.host k).fault = none
          ∧ hostOp k op (s.setHost k { s.host k with prog := rest }) = .next t) := by
  unfold hostTurn at h
  split at h
  · exact .inl ⟨by assumption, by simpa using h.symm⟩
  · split at h
    · cases h
    · exact .inr ⟨_, _, by assumption, by assumption, h⟩

/-- A poll changes the polling host and what has been observed. -/
theorem hostPoll_eq (k : Nat) (s : State) :
    hostPoll k s = (s.withHosts (hostPoll k s).hosts).observe (.reg k 0x08#8 (readReg s 0x08#8)) := by
  unfold hostPoll
  split
  · rw [windowRead_eq]; rfl
  · exact windowRead_eq k 0x08#8 s

/-- A `check_err` changes the checking host and what has been observed. -/
theorem hostCheckErr_eq (k : Nat) (code : BitVec 4) (s : State) :
    hostCheckErr k code s = (s.withHosts (hostCheckErr k code s).hosts).observe (.reg k 0x08#8 (readReg s 0x08#8)) := by
  unfold hostCheckErr
  split
  · exact windowRead_eq k 0x08#8 s
  · unfold recordFault
    rw [windowRead_eq]; rfl

/-- The turn a step takes finds the state it stands in, but for the schedule. -/
theorem nextTurn_state (s : State) : ∃ q, (nextTurn s).2 = s.withSched q := by
  unfold nextTurn
  split
  · exact ⟨s.sched, rfl⟩
  · exact ⟨_, rfl⟩

/-- The offset of an address of the window. -/
@[simp] theorem windowOffset?_base_add (c : Config) (off : BitVec 8) :
    windowOffset? c (c.base + off.setWidth 64) = some off := by
  have h : c.base + off.setWidth 64 - c.base = off.setWidth 64 := by
    rw [BitVec.add_comm, BitVec.add_sub_cancel]
  have hlt : off.setWidth 64 < 256#64 := by
    rw [BitVec.lt_def, BitVec.toNat_setWidth]
    have := off.isLt
    simp only [BitVec.toNat_ofNat]
    omega
  have hback : (off.setWidth 64).setWidth 8 = off := by
    apply BitVec.eq_of_toNat_eq
    have := off.isLt
    simp only [BitVec.toNat_setWidth]
    omega
  simp [windowOffset?, h, hlt, hback]

@[simp] theorem windowOffset?_base (c : Config) : windowOffset? c c.base = some 0x00#8 := by
  have := windowOffset?_base_add c 0x00#8
  simpa using this

/-- A register access is of 8 bytes at a multiple of 8. -/
theorem accessOk_iff (n : Nat) (off : BitVec 8) : accessOk n off = true ↔ n = 8 ∧ off.toNat % 8 = 0 := by
  have h : ∀ off : BitVec 8, (off.extractLsb' 0 3 == 0#3) = decide (off.toNat % 8 = 0) := by decide
  simp [accessOk, h]

/-- Everything one access of a host can do: a command, a register write, a read or another access that changes only
hosts and what has been observed, a read or a write of destination bytes. -/
theorem hostOp_next {k : Nat} {op : HostOp} (h : hostOp k op s = .next t) :
    (∃ addr v, op = .write 8 addr v ∧ windowOffset? s.cfg addr = some 0x00#8 ∧ cmdWrite v s = .next t)
      ∨ (∃ off v, off ≠ 0x00#8 ∧ t = writeReg s off v)
      ∨ (∃ l o, t = (s.withHosts l).withObserved o)
      ∨ (∃ a n, agentLoad s (.host k) a n = .next t)
      ∨ (∃ a b, op = .storeMem a b ∧ agentStore s (.host k) a b = .next t) := by
  cases op with
  | write bytes addr v =>
    obtain ⟨off, hw, ⟨ha, rfl, hc⟩ | ⟨_, hne, rfl⟩ | ⟨_, rfl⟩⟩ := hostWrite_next h
    · have : bytes = 8 := ((accessOk_iff _ _).mp ha).1
      subst this
      exact .inl ⟨addr, v, rfl, hw, hc⟩
    · exact .inr (.inl ⟨_, _, hne, rfl⟩)
    · exact .inr (.inr (.inl ⟨hostSet s.hosts k { s.host k with fault := some (.busError bytes off) }, s.observed, rfl⟩))
  | read bytes addr =>
    obtain ⟨off, _, ⟨_, rfl⟩ | ⟨_, rfl⟩⟩ := hostRead_next h
    · exact .inr (.inr (.inl ⟨_, _, windowRead_eq k off s⟩))
    · exact .inr (.inr (.inl ⟨hostSet s.hosts k { s.host k with fault := some (.busError bytes off) }, s.observed, rfl⟩))
  | loadMem a n => exact .inr (.inr (.inr (.inl ⟨a, n, h⟩)))
  | storeMem a b => exact .inr (.inr (.inr (.inr ⟨a, b, rfl, h⟩)))
  | poll =>
    injection h with h
    exact .inr (.inr (.inl ⟨_, _, h ▸ hostPoll_eq k s⟩))
  | checkErr code =>
    injection h with h
    exact .inr (.inr (.inl ⟨_, _, h ▸ hostCheckErr_eq k code s⟩))
  | fence =>
    injection h with h
    exact .inr (.inr (.inl ⟨hostSet s.hosts k { s.host k with unfenced := [] }, s.observed, h.symm⟩))

/-- A read of `STATUS` changes no other host. -/
theorem seeStatus_host_other (s : State) (h k : Nat) (hk : k ≠ h) : (s.seeStatus h).host k = s.host k := by
  unfold State.seeStatus
  split
  · rfl
  · exact setHost_host_other _ _ _ _ hk

/-- A register read changes no other host. -/
theorem windowRead_host_other (h k : Nat) (off : BitVec 8) (s : State) (hk : k ≠ h) :
    (windowRead h off s).host k = s.host k := by
  unfold windowRead
  split
  · exact seeStatus_host_other s h k hk
  · rfl

/-- An access of a host changes no other host. -/
theorem hostOp_host_other {k j : Nat} {op : HostOp} (hj : j ≠ k) (h : hostOp k op s = .next t) :
    t.host j = s.host j := by
  have hset : ∀ (u : State) (a : HostAgent), (u.setHost k a).host j = u.host j :=
    fun u a => setHost_host_other _ _ _ _ hj
  cases op with
  | write bytes addr v =>
    obtain ⟨off, _, ⟨_, _, h⟩ | ⟨_, _, rfl⟩ | ⟨_, rfl⟩⟩ := hostWrite_next h
    · rcases cmdWrite_cases h with ⟨_, rfl⟩ | ⟨_, _, rfl⟩ | ⟨_, _, rfl, _⟩ | ⟨_, _, _, _, rfl⟩ <;> rfl
    · exact writeReg_host s off v j
    · exact hset s _
  | read bytes addr =>
    obtain ⟨off, _, ⟨_, rfl⟩ | ⟨_, rfl⟩⟩ := hostRead_next h
    · exact windowRead_host_other k j off s hj
    · exact hset s _
  | loadMem a n =>
    obtain ⟨_, rfl⟩ := agentLoad_next h
    rfl
  | storeMem a b =>
    rcases agentStore_next h with ⟨_, ⟨_, rfl⟩ | ⟨_, ⟨_, rfl⟩ | ⟨_, rfl⟩⟩⟩ | ⟨_, _, rfl⟩ <;> rfl
  | poll =>
    injection h with h
    subst h
    unfold hostPoll
    simp only
    split
    · rw [hset, windowRead_host_other k j _ s hj]
    · exact windowRead_host_other k j _ s hj
  | checkErr code =>
    injection h with h
    subst h
    unfold hostCheckErr
    simp only
    split
    · exact windowRead_host_other k j _ s hj
    · rw [recordFault, hset, windowRead_host_other k j _ s hj]
  | fence =>
    injection h with h
    subst h
    exact hset s _

/-- Whose turn it is by default does not depend on the ranges the hosts have yet to see ended. -/
@[simp] theorem firstHost_endRange (r : Region) (l : List HostAgent) : firstHost (endRange r l) = firstHost l := by
  simp only [firstHost, endRange, List.any_map, List.findIdx_map]
  rfl

/-- A turn that answers a next state: which agent took it, and what that agent's operation answered. -/
theorem takeTurn_next {u : Turn} (h : takeTurn u s = .next t) :
    (∃ k, u = .host k ∧ hostTurn k s = .next t)
      ∨ (u = .engine ∧ engineTurn s = .next t)
      ∨ (u = .reset ∧ t = applyReset s)
      ∨ (∃ a b, u = .otherWrite a b ∧ agentStore s .other a b = .next t)
      ∨ (∃ a n, u = .otherRead a n ∧ agentLoad s .other a n = .next t) := by
  cases u with
  | host k => exact .inl ⟨k, rfl, h⟩
  | engine => exact .inr (.inl ⟨rfl, h⟩)
  | reset => exact .inr (.inr (.inl ⟨rfl, by simpa [takeTurn] using h.symm⟩))
  | otherWrite a b => exact .inr (.inr (.inr (.inl ⟨a, b, rfl, h⟩)))
  | otherRead a n => exact .inr (.inr (.inr (.inr ⟨a, n, rfl, h⟩)))

/-- A step is a turn taken on the state without that turn. -/
theorem step_next (h : step s = .next t) : ∃ q, takeTurn (nextTurn s).1 (s.withSched q) = .next t := by
  obtain ⟨q, hq⟩ := nextTurn_state s
  exact ⟨q, by simpa [step, hq] using h⟩

end Sys2Proof.Machine
end

