-- ==== Sys2Proof/Laws/PerInstr.lean ====
section
/-! SUPPORT. Statements about every command as syntax, one lemma per constructor. -/
namespace Sys2Proof.Laws.Fields

/-- In a command's encoding the reserved bits 63:10 are 0, and `ENG` is 0 in every command but `SELECT` (30_encoding.md
R90). -/
def Statement (i : Instr) : Prop :=
  fieldReserved (encode i) = 0#54 ∧ (fieldOp (encode i) ≠ 0x04#8 → fieldEng (encode i) = 0#2)

theorem nop : Statement .nop := by unfold Statement; decide
theorem init : Statement .init := by unfold Statement; decide
theorem gen : Statement .gen := by unfold Statement; decide
theorem skip : Statement .skip := by unfold Statement; decide
theorem select (eng : BitVec 2) : Statement (.select eng) := by
  revert eng
  unfold Statement
  decide

end Sys2Proof.Laws.Fields
end

