-- ==== Sys2Proof/Laws/Variants.lean ====
section
/-! SUPPORT. The words held by the wide registers, the byte alignments of `V128` and the words of `SCALAR`. -/
namespace Sys2Proof.Machine

/-- Word j of a packed double-lane is its word j (R28). -/
theorem word256_pack256 (d : DoubleLane) (j : Fin 4) : word256 (pack256 d) j.val = d.nth j := by
  obtain ⟨a, b, c, e⟩ := d
  apply BitVec.eq_of_getLsbD_eq
  intro i hi
  fin_cases j <;>
    simp only [word256, pack256, Quad.nth, BitVec.getLsbD_extractLsb', BitVec.getLsbD_append, hi, decide_true,
      Bool.true_and]
  · simp [hi]
  · simp [hi, show ¬ 64 * 1 + i < 64 by omega]
  · simp [hi, show ¬ 64 * 2 + i < 64 by omega, show ¬ 64 * 2 + i - 64 < 64 by omega,
      show 64 * 2 + i - 64 - 64 = i by omega]
  · simp [hi, show ¬ 64 * 3 + i < 64 by omega, show ¬ 64 * 3 + i - 64 < 64 by omega,
      show ¬ 64 * 3 + i - 64 - 64 < 64 by omega, show 64 * 3 + i - 64 - 64 - 64 = i by omega]

/-- Eight 32-bit elements are the four words of two elements each. -/
theorem join256_eq_pack256 (f : Fin 8 → BitVec 32) :
    join256 f = pack256 ⟨f 1 ++ f 0, f 3 ++ f 2, f 5 ++ f 4, f 7 ++ f 6⟩ := by
  apply BitVec.eq_of_getLsbD_eq
  intro i hi
  simp only [join256, pack256, BitVec.getLsbD_append]
  generalize f 0 = a0
  generalize f 1 = a1
  generalize f 2 = a2
  generalize f 3 = a3
  generalize f 4 = a4
  generalize f 5 = a5
  generalize f 6 = a6
  generalize f 7 = a7
  have hq : i / 32 = 0 ∨ i / 32 = 1 ∨ i / 32 = 2 ∨ i / 32 = 3 ∨ i / 32 = 4 ∨ i / 32 = 5 ∨ i / 32 = 6 ∨ i / 32 = 7 := by
    omega
  rcases hq with h | h | h | h | h | h | h | h <;>
    (simp (disch := omega) only [if_pos, if_neg, Nat.sub_sub])

/-- Element i of a packed double-lane is its half-word i (R28, R21). -/
theorem elem256_pack256 (a : DoubleLane) (i : Fin 8) : elem256 (pack256 a) i.val = half a i := by
  have split : ∀ x : BitVec 256, elem256 x i.val = (word256 x (i.val / 2)).extractLsb' (32 * (i.val % 2)) 32 := by
    intro x
    apply BitVec.eq_of_getLsbD_eq
    intro k hk
    have := i.isLt
    simp only [elem256, word256, BitVec.getLsbD_extractLsb', hk, decide_true, Bool.true_and]
    rw [decide_eq_true (by omega : 32 * (i.val % 2) + k < 64)]
    simp only [Bool.true_and]
    congr 1
    omega
  have hw := word256_pack256 a ⟨i.val / 2, by omega⟩
  simp only at hw
  rw [split, half, hw]

theorem unpack256_pack256 (d : DoubleLane) : unpack256 (pack256 d) = d := by
  have h := word256_pack256 d
  obtain ⟨a, b, c, e⟩ := d
  simp only [unpack256, Quad.ofFn]
  rw [h 0, h 1, h 2, h 3]
  rfl

/-- An element-wise operation on packed double-lanes is the operation word by word. -/
theorem lanes256_pack256 (f : Word → Word → Word) (a b : DoubleLane) :
    lanes256 f (pack256 a) (pack256 b) = pack256 (Quad.zipWith f a b) := by
  have ha := word256_pack256 a
  have hb := word256_pack256 b
  simp only [lanes256, Quad.ofFn]
  rw [ha 0, ha 1, ha 2, ha 3, hb 0, hb 1, hb 2, hb 3]
  rfl

/-- The low word of a half. -/
theorem word128_append_low (x y : Word) : word128 (x ++ y) 0 = y := by
  apply BitVec.eq_of_getLsbD_eq
  intro i hi
  simp only [word128, BitVec.getLsbD_extractLsb', BitVec.getLsbD_append, hi, decide_true, Bool.true_and, Nat.mul_zero,
    Nat.zero_add, if_true]

/-- The high word of a half. -/
theorem word128_append_high (x y : Word) : word128 (x ++ y) 1 = x := by
  apply BitVec.eq_of_getLsbD_eq
  intro i hi
  simp only [word128, BitVec.getLsbD_extractLsb', BitVec.getLsbD_append, hi, decide_true, Bool.true_and, Nat.mul_one,
    show ¬ 64 + i < 64 by omega, if_false, Nat.add_sub_cancel_left]

/-- An element-wise operation on halves is the operation word by word. -/
theorem lanes128_append (f : Word → Word → Word) (a b c d : Word) :
    lanes128 f (a ++ b) (c ++ d) = f a c ++ f b d := by
  simp only [lanes128, word128_append_low, word128_append_high]

/-- `ALIGNR` by 4 bytes joins the high half of each word to the low half of the next (R165). -/
theorem alignr_four (w3 w2 w1 w0 : Word) :
    alignr (w3 ++ w2) (w1 ++ w0) 4 = ((w1 >>> 32) ||| (w2 <<< 32)) ++ ((w0 >>> 32) ||| (w1 <<< 32)) := by
  apply BitVec.eq_of_getLsbD_eq
  intro i hi
  have hq : i / 32 = 0 ∨ i / 32 = 1 ∨ i / 32 = 2 ∨ i / 32 = 3 := by omega
  simp only [alignr, BitVec.getLsbD_setWidth, BitVec.getLsbD_ushiftRight, BitVec.getLsbD_append, BitVec.getLsbD_or,
    BitVec.getLsbD_shiftLeft, hi, decide_true, Bool.true_and]
  rcases hq with h | h | h | h
  · rw [if_pos (by omega), if_pos (by omega), if_pos (by omega)]
    simp [show i < 32 by omega]
  · rw [if_pos (by omega), if_neg (by omega), if_pos (by omega), BitVec.getLsbD_of_ge _ _ (by omega : 64 ≤ 32 + i)]
    simp only [show ¬ i < 32 by omega, show i < 64 by omega, decide_true, decide_false, Bool.not_false, Bool.true_and,
      Bool.false_or]
    exact congrArg (BitVec.getLsbD _) (by omega)
  · rw [if_pos (by omega), if_neg (by omega), if_neg (by omega)]
    simp only [show i - 64 < 32 by omega, decide_true, Bool.not_true, Bool.and_false, Bool.false_and, Bool.or_false]
    exact congrArg (BitVec.getLsbD _) (by omega)
  · rw [if_neg (by omega), if_pos (by omega), if_neg (by omega), BitVec.getLsbD_of_ge _ _ (by omega : 64 ≤ 32 + (i - 64))]
    simp only [show ¬ i - 64 < 32 by omega, show i - 64 < 64 by omega, decide_true, decide_false, Bool.not_false, Bool.true_and,
      Bool.false_or]
    exact congrArg (BitVec.getLsbD _) (by omega)

/-- `ALIGNR` by 12 bytes is that by 4 one word further (R165). -/
theorem alignr_twelve (w3 w2 w1 w0 : Word) :
    alignr (w3 ++ w2) (w1 ++ w0) 12 = ((w2 >>> 32) ||| (w3 <<< 32)) ++ ((w1 >>> 32) ||| (w2 <<< 32)) := by
  apply BitVec.eq_of_getLsbD_eq
  intro i hi
  have hq : i / 32 = 0 ∨ i / 32 = 1 ∨ i / 32 = 2 ∨ i / 32 = 3 := by omega
  simp only [alignr, BitVec.getLsbD_setWidth, BitVec.getLsbD_ushiftRight, BitVec.getLsbD_append, BitVec.getLsbD_or,
    BitVec.getLsbD_shiftLeft, hi, decide_true, Bool.true_and]
  rcases hq with h | h | h | h
  · rw [if_pos (by omega), if_neg (by omega), if_pos (by omega)]
    simp only [show i < 32 by omega, decide_true, Bool.not_true, Bool.and_false, Bool.false_and, Bool.or_false]
    exact congrArg (BitVec.getLsbD _) (by omega)
  · rw [if_neg (by omega), if_pos (by omega), if_pos (by omega), BitVec.getLsbD_of_ge _ _ (by omega : 64 ≤ 32 + i)]
    simp only [show ¬ i < 32 by omega, show i < 64 by omega, decide_true, decide_false, Bool.not_false, Bool.true_and,
      Bool.false_or]
    exact congrArg (BitVec.getLsbD _) (by omega)
  · rw [if_neg (by omega), if_pos (by omega), if_neg (by omega)]
    simp only [show i - 64 < 32 by omega, decide_true, Bool.not_true, Bool.and_false, Bool.false_and, Bool.or_false]
    exact congrArg (BitVec.getLsbD _) (by omega)
  · rw [if_neg (by omega), if_neg (by omega), if_neg (by omega), BitVec.getLsbD_of_ge _ _ (by omega : 64 ≤ 32 + (i - 64))]
    simp only [show ¬ i - 64 < 32 by omega, show i - 64 < 64 by omega, decide_true, decide_false, Bool.not_false, Bool.true_and,
      Bool.false_or]
    exact congrArg (BitVec.getLsbD _) (by omega)

/-- Lane k of the `SCALAR` registers holds the words of double-lane k (R30). -/
theorem laneScalar_layoutScalar (g : GenState) (k : Fin 4) :
    laneScalar (layoutScalar g).ps k = wordsScalar (g.s.nth k) := by
  apply Vector.ext
  intro j hj
  simp only [laneScalar, layoutScalar, wordsScalar, Vector.getElem_ofFn]
  congr 1
  · congr 1
    apply Fin.ext
    simp only
    omega
  · apply Fin.ext
    simp only
    omega

/-- The mask 0xFFFFFFFF keeps the low half of a word. -/
theorem and_low_mask (x : Word) : x &&& 0xFFFFFFFF#64 = (0#32 ++ x.extractLsb' 0 32) := by
  apply BitVec.eq_of_getLsbD_eq
  intro i hi
  have : (0xFFFFFFFF#64 : Word).getLsbD i = decide (i < 32) := by
    revert hi; revert i; decide
  simp only [BitVec.getLsbD_and, BitVec.getLsbD_append, BitVec.getLsbD_extractLsb', this]
  split <;> rename_i h
  · simp [h]
  · simp [h]

/-- `half(a, x)` of R169 is half-word x, zero-extended. -/
theorem halfScalar_wordsScalar (a : DoubleLane) (x : Fin 8) : halfScalar (wordsScalar a) x = 0#32 ++ half a x := by
  unfold halfScalar
  rw [and_low_mask]
  congr 1
  have e : ∀ (y : Word) (n : Nat), (y >>> n).extractLsb' 0 32 = y.extractLsb' n 32 := by
    intro y n
    apply BitVec.eq_of_getLsbD_eq
    intro i hi
    simp [hi]
  rw [e, half]
  fin_cases x <;> rfl

end Sys2Proof.Machine
end

