-- ==== Sys2Proof/Tests/Slice0.lean ====
section
/-! SUPPORT. The model's own tests: the spec's vectors (95_test_vectors.md, by their names there), a word of each family
decoded, one step of each command, and for every obligation with hypotheses a state that meets them. -/
namespace Sys2Proof.Tests
open Sys2Proof.Machine

-- States

/-- The state of V-INIT-1. -/
def genA : GenState where
  s := ⟨⟨0xC6F25D98F15EC762#64, 0x85D6DA352E3D6DD5#64, 0x26E0B74DB776C13A#64, 0xF103A68B34CE2D51#64⟩,
     ⟨0xC740DA5CEAE8DB6B#64, 0x07D5C1BFD5D04453#64, 0xEA1B710812F52CE0#64, 0x061DF7CCD6CF8288#64⟩,
     ⟨0x42CCD98BF5FE6E6B#64, 0xB918FD814E74DD12#64, 0x1BCCEF385D62F058#64, 0xEEE5F736A30DDB6F#64⟩,
     ⟨0x53AAB40FF9965D95#64, 0xE2097C3AE6822D09#64, 0x395A5AA7A5A4A52C#64, 0x2BCEE75D12B468DC#64⟩⟩
  o := ⟨⟨0x53AAB40FF9965D95#64, 0xE2097C3AE6822D09#64, 0x395A5AA7A5A4A52C#64, 0x2BCEE75D12B468DC#64⟩,
     ⟨0x42CCD98BF5FE6E6B#64, 0xB918FD814E74DD12#64, 0x1BCCEF385D62F058#64, 0xEEE5F736A30DDB6F#64⟩,
     ⟨0xC740DA5CEAE8DB6B#64, 0x07D5C1BFD5D04453#64, 0xEA1B710812F52CE0#64, 0x061DF7CCD6CF8288#64⟩,
     ⟨0xC6F25D98F15EC762#64, 0x85D6DA352E3D6DD5#64, 0x26E0B74DB776C13A#64, 0xF103A68B34CE2D51#64⟩⟩
  c := ⟨0x5B#64, 0x41#64, 0x27#64, 0x0D#64⟩

/-- The input w of 95_test_vectors.md section 2.1. -/
def laneW : DoubleLane := ⟨0x0123456789ABCDEF#64, 0xFEDCBA9876543210#64, 0xFFFFFFFFFFFFFFFF#64, 0x8000000000000001#64⟩

/-- The input a of 95_test_vectors.md section 2.1, whose half-words are their own numbers. -/
def laneA : DoubleLane := ⟨0x0000000100000000#64, 0x0000000300000002#64, 0x0000000500000004#64, 0x0000000700000006#64⟩

/-- The seed of V-INIT-2. -/
def seedB : Quad Word := ⟨0x0123456789101112#64, 0x000000000B00B135#64, 0x1337D1CC00000000#64, 0x0000000000069420#64⟩

/-- Idle with a state. -/
def ready : State := { State.reset with gen := some genA }

/-- Idle with a state and operands. -/
def readyWith (len bufLen dst : Word) : State := { ready with len := len, bufLen := bufLen, dstAddr := dst }

/-- A `GEN` in flight. -/
def busyGen (nblk : Nat) (dst : Word) : State := { ready with latch := some (.gen nblk dst) }

/-- An `INIT` in flight from reset. -/
def busyInit : State := { State.reset with latch := some (.init (Quad.replicate 0#64)) }

/-- A `SKIP` in flight. -/
def busySkip (nblk : Nat) : State := { ready with latch := some (.skip nblk) }

/-- Host 0 has one access to make. -/
def waiting (s : State) (op : HostOp) : State := s.setHost 0 { s.host 0 with prog := [op] }

/-- The one access of host 0, now. -/
def hosted (s : State) (op : HostOp) : State := (waiting s op).withSched [.host 0]

/-- Host 0 has stopped with a bus error and has an access left, and so has host 1, which has not stopped. -/
def twoHosts (s : State) (op : HostOp) : State :=
  s.withHosts [⟨[op], some (.busError 4 0x24#8), [], []⟩, ⟨[op], none, [], []⟩]

/-- A range of a `GEN` has ended and host 0 has yet to see it. -/
def unseen (s : State) (r : Region) : State := s.setHost 0 { s.host 0 with unseen := [r] }

/-- A range of a `GEN` has ended, and host 0 has seen it and not fenced. -/
def unfenced (s : State) (r : Region) : State := s.setHost 0 { s.host 0 with unfenced := [r] }

/-- The state with one turn scheduled. -/
def turned (s : State) (u : Turn) : State := { s with sched := [u] }

/-- The state of another build. -/
def built (s : State) (c : Config) : State := { s with cfg := c }

/-- Only the first 4096 destination bytes are admitted. -/
def smallConfig : Config := { defaultConfig with dstAdmit := [⟨0, 0x1000⟩] }

/-- The engine's registers stand at 0x1000 of the destination space. -/
def mappedConfig : Config := { defaultConfig with engineRegs := [⟨0x1000, 0x100⟩] }

/-- A 32-bit destination space. -/
def narrowConfig : Config := { defaultConfig with paWidth := 32 }

/-- Two variants only. -/
def twoConfig : Config := { defaultConfig with capMask := 0b011#3 }

-- Well-formedness, decoding and the encoder

theorem test_wellFormed_refuses_reserved_variant : (Instr.select 3#2).wellFormed = false := by decide

theorem test_wellFormed_accepts : (Instr.select 2#2).wellFormed = true ∧ Instr.gen.wellFormed = true := by decide

theorem test_decode_nop : decodeTableWord 64 0x0 = some .nop := by decide
theorem test_decode_init : decodeTableWord 64 0x1 = some .init := by decide
theorem test_decode_gen : decodeTableWord 64 0x2 = some .gen := by decide
theorem test_decode_skip : decodeTableWord 64 0x3 = some .skip := by decide

/-- The two bits of `ENG` are bits 9 and 8: 0b01_0000_0100 and 0b10_0000_0100. -/
theorem test_decode_select :
    decodeTableWord 64 0b0000000100 = some (.select 0#2) ∧ decodeTableWord 64 0b0100000100 = some (.select 1#2)
      ∧ decodeTableWord 64 0b1000000100 = some (.select 2#2) ∧ decodeTableWord 64 0b1100000100 = none := by decide

/-- V-DEC-6 to V-DEC-10. -/
theorem test_decode_illegal :
    decodeTableWord 64 0x5 = none ∧ decodeTableWord 64 0xFF = none ∧ decodeTableWord 64 0x100 = none
      ∧ decodeTableWord 64 0x402 = none ∧ decodeTableWord 64 0x8000000000000002 = none
      ∧ decodeTableWord 64 0x502 = none := by decide

theorem test_encode :
    encode .nop = 0x0#64 ∧ encode .init = 0x1#64 ∧ encode .gen = 0x2#64 ∧ encode .skip = 0x3#64
      ∧ encode (.select 2#2) = 0x204#64 := by decide

/-- The first instruction after reset is the word that `withFetchWord` places. -/
theorem test_fetch :
    step (State.reset.withFetchWord 64 0x0) = exec .nop State.reset
      ∧ step (State.reset.withFetchWord 64 0x1) = exec .init State.reset
      ∧ step (State.reset.withFetchWord 64 0x2) = exec .gen State.reset
      ∧ step (State.reset.withFetchWord 64 0x3) = exec .skip State.reset
      ∧ step (State.reset.withFetchWord 64 0x204) = exec (.select 2#2) State.reset := ⟨rfl, rfl, rfl, rfl, rfl⟩

-- Datapath units

/-- V-PERM-1 to V-PERM-4. -/
theorem test_permutations :
    permA laneA = ⟨0x0000000600000005#64, 0x0000000000000007#64, 0x0000000200000001#64, 0x0000000400000003#64⟩
      ∧ permB laneA = ⟨0x0000000400000003#64, 0x0000000600000005#64, 0x0000000000000007#64, 0x0000000200000001#64⟩
      ∧ permA laneW = ⟨0x00000001FFFFFFFF#64, 0x89ABCDEF80000000#64, 0x7654321001234567#64, 0xFFFFFFFFFEDCBA98#64⟩
      ∧ permB laneW = ⟨0xFFFFFFFFFEDCBA98#64, 0x00000001FFFFFFFF#64, 0x89ABCDEF80000000#64, 0x7654321001234567#64⟩ := by
  decide

/-- V-SHR-1, V-SHR-2, V-ADD-1, V-ADD-2, V-XOR-1. -/
theorem test_word_units :
    wshr laneW 1 = ⟨0x0091A2B3C4D5E6F7#64, 0x7F6E5D4C3B2A1908#64, 0x7FFFFFFFFFFFFFFF#64, 0x4000000000000000#64⟩
      ∧ wshr laneW 3 = ⟨0x002468ACF13579BD#64, 0x1FDB97530ECA8642#64, 0x1FFFFFFFFFFFFFFF#64, 0x1000000000000000#64⟩
      ∧ wadd ⟨0xFFFFFFFFFFFFFFFF#64, 0x8000000000000000#64, 1#64, 0#64⟩ ⟨1#64, 0x8000000000000000#64, 0xFFFFFFFFFFFFFFFF#64, 0#64⟩
          = Quad.replicate 0#64
      ∧ wadd laneW ⟨1#64, 0x0123456789ABCDF0#64, 1#64, 0x7FFFFFFFFFFFFFFF#64⟩ = ⟨0x0123456789ABCDF0#64, 0#64, 0#64, 0#64⟩
      ∧ wxor laneW ⟨0xFFFFFFFFFFFFFFFF#64, 0xFFFFFFFFFFFFFFFF#64, 0#64, 1#64⟩
          = ⟨0xFEDCBA9876543210#64, 0x0123456789ABCDEF#64, 0xFFFFFFFFFFFFFFFF#64, 0x8000000000000000#64⟩ := by
  decide

/-- V-RND-2: one round from the seeded state of the zero seed. -/
theorem test_round :
    roundFn (seededState defaultConfig (Quad.replicate 0#64)) =
   ⟨⟨⟨0x1FDD4B71D0276575#64, 0xF918DC4626E34E2B#64, 0x652EDBEA9808B2E1#64, 0x6FD8A75ADBFD87AA#64⟩,
     ⟨0x2D2D2E182DC153CA#64, 0x0F9C3EC16D069F58#64, 0x54038960E6DE51A4#64, 0x742C4BF3A94E5C77#64⟩,
     ⟨0x763527B8B05EE990#64, 0xD9D956364ABBCBAF#64, 0x322710AFD30662EF#64, 0x2AA59CE904837B5E#64⟩,
     ⟨0xF98B491CD600A4DF#64, 0x75C9CE7468CEE9A6#64, 0xD92ECC887C6CB7C4#64, 0x2D6D988B6E379094#64⟩⟩,
    ⟨⟨0x675B8CDEBCE23A51#64, 0x76FD3E062FFE8B13#64, 0x5B9368CA3807728C#64, 0x27C7B777CF0737FB#64⟩,
     ⟨0x9508E972F07CFFC6#64, 0x1C8B285238C2F450#64, 0xE222D1D91C5E8C31#64, 0x68FA71FB1C91EE48#64⟩,
     ⟨0xE656026D0627C1AA#64, 0x8CD112324E2DA78D#64, 0xBC001762E4640525#64, 0x42B53FD1B5CA173E#64⟩,
     ⟨0x5B1809A09D9FBA5A#64, 0xD64568F727BD54F7#64, 0x662499CF35D8334B#64, 0x5E89D71AADCD2729#64⟩⟩,
    ⟨7#64, 5#64, 3#64, 1#64⟩⟩ := by
  decide +kernel

/-- V-V128-1, V-V128-2 and V-SCA-1: the byte alignments, the words of a half, and the specialised permutation. -/
theorem test_variant_datapaths :
    permA128 0x00000003000000020000000100000000#128 0x00000007000000060000000500000004#128
        = (0x00000000000000070000000600000005#128, 0x00000004000000030000000200000001#128)
      ∧ permB128 0x00000003000000020000000100000000#128 0x00000007000000060000000500000004#128
        = (0x00000006000000050000000400000003#128, 0x00000002000000010000000000000007#128)
      ∧ (layoutV128 genA).pc = #v[0x0000000000000041000000000000005B#128, 0x000000000000000D0000000000000027#128]
      ∧ permSpecialised #v[laneW.e0, laneW.e1, laneW.e2, laneW.e3] 2
        = #v[0x00000001FFFFFFFF#64, 0x89ABCDEF80000000#64, 0x7654321001234567#64, 0xFFFFFFFFFEDCBA98#64]
      ∧ permScalar #v[laneW.e0, laneW.e1, laneW.e2, laneW.e3] tableB
        = #v[0xFFFFFFFFFEDCBA98#64, 0x00000001FFFFFFFF#64, 0x89ABCDEF80000000#64, 0x7654321001234567#64] := by
  decide +kernel

-- One step of each command. STATUS values are those of 95_test_vectors.md sections 2.8 and 2.9.

/-- V-NOP-1. -/
theorem test_nop_clears_status :
    ∃ t, exec .nop { State.reset with ovr := true, err := .cap } = .next t ∧ statusWord t = 0x00#64 :=
  ⟨_, rfl, by decide⟩

/-- V-NOP-2. -/
theorem test_nop_keeps_valid : ∃ t, exec .nop { ready with ovr := true } = .next t ∧ statusWord t = 0x02#64 :=
  ⟨_, rfl, by decide⟩

/-- P1: `STATUS` reads 1 while `INIT` from reset is in flight. -/
theorem test_init_accepts : ∃ t, exec .init State.reset = .next t ∧ statusWord t = 0x01#64 := ⟨_, rfl, by decide⟩

/-- V-INIT-2: the state after `INIT` with the seed of the source's section 8. -/
theorem test_init_completes : (completeInit seedB State.reset).gen.map (fun g => g.s) = some
    ⟨⟨0x0DFC10CBA1B3E15A#64, 0x1209F70798E45B01#64, 0x71388677FF70E013#64, 0xB9CFA8C5DA340818#64⟩,
     ⟨0x2D1FBB152C39FEEA#64, 0x8838F08FAB26135F#64, 0x8FF2925253019EB8#64, 0x009736524AB36159#64⟩,
     ⟨0x171210DC2DCAD014#64, 0xDF2AEA4CFA083900#64, 0xE8F83F1BA1E69FE2#64, 0xA94EF10B0C9402C7#64⟩,
     ⟨0x59D5316D0D2224F5#64, 0x2BF6349F0B081B5A#64, 0x24DEF90B010CC12F#64, 0x48871287BD3822FA#64⟩⟩ := by
  decide +kernel

/-- V-GEN-1: bytes 0x00, 0x07, 0x20, 0x7F, 0x80 and 0xFF of the stream, and nothing right outside. -/
theorem test_gen_writes_the_stream :
    [0x0FFF, 0x1000, 0x1007, 0x1020, 0x107F, 0x1080, 0x10FF, 0x1100].map
        (memRead (completeGen 2 0x1000#64 genA (busyGen 2 0x1000#64)).mem)
      = [none, some 0x95#8, some 0x53#8, some 0x6B#8, some 0xF1#8, some 0x0E#8, some 0x02#8, none] := by
  decide +kernel

/-- V-ERR-8, V-ERR-9 and V-GEN-5: shape outranks range, range in a 32-bit space, and a zero-length `GEN`. -/
theorem test_gen_errors :
    (∃ t, exec .gen (readyWith 100#64 100#64 0xFFFFFFFFFFFFFFC0#64) = .next t ∧ statusWord t = 0x22#64)
      ∧ (∃ t, exec .gen (built (readyWith 256#64 256#64 0xFFFFFF80#64) narrowConfig) = .next t ∧ statusWord t = 0x52#64)
      ∧ (∃ t, exec .gen (readyWith 0#64 0#64 0x3000#64) = .next t ∧ statusWord t = 0x02#64)
      ∧ (∃ t, exec .gen (readyWith 0#64 128#64 0x3000#64) = .next t ∧ statusWord t = 0x22#64) :=
  ⟨⟨_, rfl, by decide⟩, ⟨_, rfl, by decide⟩, ⟨_, rfl, by decide⟩, ⟨_, rfl, by decide⟩⟩

/-- V-SKIP-1. -/
theorem test_skip_advances : rounds 1 genA =
   ⟨⟨⟨0x98475C1D9F901AFE#64, 0x344A347D88225D75#64, 0x41ADC97CA2ADBE35#64, 0x2FF89480203DF0DD#64⟩,
     ⟨0x2BDD4852A532DD37#64, 0xD7CA3ACDE4D5799A#64, 0x082C49E7087C9D6C#64, 0xD694038E621ACAAE#64⟩,
     ⟨0xC474483516CC266D#64, 0x528AED2C962065BF#64, 0x5C5B54AE717E51B7#64, 0xD4D5EBF40A9FEB38#64⟩,
     ⟨0xB019FBD5E13C47F8#64, 0x2EF59870962AA050#64, 0x00C1A94520837C07#64, 0xEBFC0A35F601412C#64⟩⟩,
    ⟨⟨0x718C03CB7F7AA20E#64, 0x9424EF8F7D05C7E2#64, 0xF9988060DDA69751#64, 0xAD5197D15D27CCF4#64⟩,
     ⟨0x84C2C99618F64B0F#64, 0x4E3816299E60342E#64, 0xF4702A6C057F9F71#64, 0x91F0D6D1022C59B8#64⟩,
     ⟨0x285EA7C87EAC5D06#64, 0x1ABFAC0D1E08FD25#64, 0x416C6039822EC232#64, 0xC4049EB5D63CB1F1#64⟩,
     ⟨0xEFA90067B3FEFB5A#64, 0x8540D7E172F51C25#64, 0x54771D497902CCDB#64, 0x0241E87A68852196#64⟩⟩,
    ⟨0x62#64, 0x46#64, 0x2A#64, 0x0E#64⟩⟩ := by
  decide +kernel

/-- V-SKIP-2, V-ERR-4 and V-ERR-7. -/
theorem test_skip_checks :
    (∃ t, exec .skip (readyWith 128#64 5#64 0xFFFFFFFFFFFFFFFF#64) = .next t ∧ statusWord t = 0x03#64)
      ∧ (∃ t, exec .skip (readyWith 100#64 100#64 0#64) = .next t ∧ statusWord t = 0x22#64)
      ∧ (∃ t, exec .skip { State.reset with len := 128#64 } = .next t ∧ statusWord t = 0x40#64) :=
  ⟨⟨_, rfl, by decide⟩, ⟨_, rfl, by decide⟩, ⟨_, rfl, by decide⟩⟩

/-- V-SEL-1 and V-SEL-2: the state is dropped, even by selecting the variant that is selected. -/
theorem test_select_drops_the_state :
    (∃ t, exec (.select 2#2) ready = .next t ∧ statusWord t = 0x200#64)
      ∧ (∃ t, exec (.select 0#2) ready = .next t ∧ statusWord t = 0x000#64) :=
  ⟨⟨_, rfl, by decide⟩, ⟨_, rfl, by decide⟩⟩

/-- V-ERR-5. -/
theorem test_select_not_built_in :
    (∃ t, exec (.select 2#2) (built ready twoConfig) = .next t ∧ statusWord t = 0x32#64)
      ∧ (∃ t, exec (.select 2#2) (built State.reset twoConfig) = .next t ∧ statusWord t = 0x30#64) :=
  ⟨⟨_, rfl, by decide⟩, ⟨_, rfl, by decide⟩⟩

/-- V-ERR-1 and V-ERR-10: an illegal word, and any word while busy. -/
theorem test_illegal_and_dropped :
    (∃ t, cmdWrite 0x5#64 ready = .next t ∧ statusWord t = 0x12#64)
      ∧ (∃ t, cmdWrite 0x5#64 busyInit = .next t ∧ statusWord t = 0x05#64) :=
  ⟨⟨_, rfl, by decide⟩, ⟨_, rfl, by decide⟩⟩

/-- V-RST-1 for `CAP_MASK = 0b100`. -/
theorem test_reset_of_another_build :
    statusWord (applyReset (built ready { defaultConfig with capMask := 0b100#3 })) = 0x200#64
      ∧ capWord (built ready { defaultConfig with capMask := 0b100#3 }) = 0x4#64 := by decide

-- For each obligation with hypotheses, a state that meets them

theorem inv_busyGen : (busyGen 2 0x1000#64).inv :=
  ⟨by decide, by decide, by decide, by decide, ⟨rfl, rfl, by decide, by decide, fun a ha => by cases ha⟩⟩

theorem inv_reset : State.reset.inv := ⟨by decide, by decide, by decide, by decide, rfl⟩

theorem engineTurn_busyGen :
    engineTurn (busyGen 2 0x1000#64) = .next (completeGen 2 0x1000#64 genA (busyGen 2 0x1000#64)) := by
  have key : ∀ (s : State) (n : Nat) (d : Word) (g : GenState), s.latch = some (.gen n d) → s.gen = some g →
      engineEnabled s = true → engineTurn s = .next (completeGen n d g s) := by
    intro s n d g h1 h2 h3
    simp [engineTurn, h3, complete, h1, h2]
  have h3 : engineEnabled (busyGen 2 0x1000#64) = true := by decide +kernel
  have h1 : (busyGen 2 0x1000#64).latch = some (.gen 2 0x1000#64) := rfl
  have h2 : (busyGen 2 0x1000#64).gen = some genA := rfl
  exact key (busyGen 2 0x1000#64) 2 0x1000#64 genA h1 h2 h3

theorem step_busyGen : step (busyGen 2 0x1000#64) = .next (completeGen 2 0x1000#64 genA (busyGen 2 0x1000#64)) := by
  have key : ∀ s : State, s.sched = [] → engineEnabled s = true → step s = engineTurn s := by
    intro s h1 h2
    simp [step, nextTurn, h1, defaultTurn, h2, takeTurn]
  have h1 : (busyGen 2 0x1000#64).sched = [] := rfl
  have h2 : engineEnabled (busyGen 2 0x1000#64) = true := by decide +kernel
  rw [key (busyGen 2 0x1000#64) h1 h2]
  exact engineTurn_busyGen

theorem witness_DecodeOfEncode : (Instr.select 2#2).wellFormed = true := by decide

theorem witness_EncodeOfDecode : decode 0x204#64 = .ok (.select 2#2) := by decide

/-- The edges of the four clauses: `OP` 4 and 5, bits 10 and 63, `ENG` with and without `SELECT`. -/
theorem witness_IllegalWordsAreRejected :
    decode 0x5#64 = .error .unassignedOpcode ∧ decode 0x4#64 = .ok (.select 0#2) ∧ decode 0x400#64 = .error .reservedBits
      ∧ decode 0x8000000000000000#64 = .error .reservedBits ∧ decode 0x103#64 = .error .engOutsideSelect
      ∧ decode 0x304#64 = .error .reservedVariant ∧ State.reset.busy = false := by decide

theorem witness_StepRunsDecodedCommand :
    (∀ s ∈ [hosted State.reset (.write 8 0x0#64 0x1#64), waiting State.reset (.write 8 0x0#64 0x1#64)],
        (s.host 0).prog = .write 8 0x0#64 0x1#64 :: [] ∧ (s.host 0).fault = none
          ∧ windowOffset? s.cfg 0x0#64 = some 0x00#8)
      ∧ decode 0x1#64 = .ok .init ∧ (hosted State.reset (.write 8 0x0#64 0x1#64)).sched = .host 0 :: []
      ∧ (waiting State.reset (.write 8 0x0#64 0x1#64)).sched = []
      ∧ engineEnabled (waiting State.reset (.write 8 0x0#64 0x1#64)) = false
      ∧ firstHost (waiting State.reset (.write 8 0x0#64 0x1#64)).hosts = 0
      ∧ firstHost (twoHosts State.reset .poll).hosts = 1 := by decide

theorem witness_CommandWhileBusyIsDropped :
    (busyGen 2 0x1000#64).busy = true ∧ (busyGen 2 0x1000#64).inv := ⟨by decide, inv_busyGen⟩

theorem witness_NopCompletes :
    State.reset.busy = false ∧ busyInit.busy = true ∧ fieldOp 0x100#64 = 0x00#8 ∧ 0x100#64 ≠ 0#64
      ∧ statusWord { State.reset with ovr := true, err := .cap } = 0x0000000000000034#64 := by decide

theorem witness_SelectCompletes :
    ready.busy = false ∧ ready.cfg.capMask.getLsbD Variant.v256.id.toNat = true ∧ ready.cfg.capMask = 0b111#3
      ∧ (built ready twoConfig).busy = false ∧ (built ready twoConfig).cfg.capMask = 0b011#3
      ∧ (built ready twoConfig).cfg.capMask.getLsbD Variant.v256.id.toNat = false := by decide

theorem witness_SelectOfReservedIdIsIllegal : ready.busy = false := by decide

theorem witness_InitRunsToCompletion : ready.busy = false ∧ State.reset.busy = false := by decide

/-- Lengths 1, 127 and 129 miss a multiple of 128, and 128 with a buffer of 127 mismatches. -/
theorem witness_ShapeIsChecked :
    (∀ s ∈ [readyWith 1#64 1#64 0#64, readyWith 127#64 127#64 0#64, readyWith 129#64 129#64 0#64],
        s.busy = false ∧ s.stateValid = true ∧ s.len.toNat % 128 ≠ 0)
      ∧ (∀ s ∈ [readyWith 128#64 127#64 0#64, readyWith 256#64 128#64 0#64],
        s.busy = false ∧ s.stateValid = true ∧ s.bufLen ≠ s.len)
      ∧ (readyWith 100#64 100#64 0#64).busy = false ∧ (readyWith 100#64 100#64 0#64).stateValid = true
      ∧ (readyWith 100#64 100#64 0#64).len = 100#64
      ∧ (readyWith 256#64 128#64 0#64).bufLen = 128#64 ∧ (readyWith 256#64 128#64 0#64).len = 256#64 := by decide

/-- Both sides of V-GEN-4: the last 128 bytes of the space, and 128 bytes more. -/
theorem witness_RangeIsChecked :
    (∀ s ∈ [readyWith 128#64 128#64 0xFFFFFFFFFFFFFF80#64, readyWith 256#64 256#64 0xFFFFFFFFFFFFFF80#64],
        s.busy = false ∧ s.stateValid = true ∧ s.len.toNat % 128 = 0 ∧ s.bufLen = s.len)
      ∧ ¬ ((readyWith 128#64 128#64 0xFFFFFFFFFFFFFF80#64).dstAddr.toNat + (128#64).toNat > 2 ^ ready.cfg.paWidth)
      ∧ (readyWith 256#64 256#64 0xFFFFFFFFFFFFFF80#64).dstAddr.toNat + (256#64).toNat > 2 ^ ready.cfg.paWidth := by decide

theorem witness_RangeIsChecked_skip : ∃ t, exec .skip (readyWith 128#64 5#64 0xFFFFFFFFFFFFFFFF#64) = .next t := ⟨_, rfl⟩

theorem witness_NoStateIsChecked :
    State.reset.busy = false ∧ State.reset.stateValid = false
      ∧ (∃ t, exec (.select Variant.v128.id) ready = .next t ∧ t.err = .ok)
      ∧ (∃ t, engineTurn busyInit = .next t ∧ busyInit.stateValid = false ∧ t.stateValid = true) :=
  ⟨by decide, by decide, ⟨_, rfl, rfl⟩, ⟨_, rfl, rfl, rfl⟩⟩

/-- Every code of the chain is reached. -/
theorem witness_OneErrorInPriorityOrder :
    ready.busy = false ∧ busyInit.busy = true ∧ (∃ t, cmdWrite 0x5#64 busyInit = .next t)
      ∧ (∃ t, cmdWrite 0x502#64 State.reset = .next t ∧ t.err = .illegal)
      ∧ (∃ t, cmdWrite 0x204#64 (built ready twoConfig) = .next t ∧ t.err = .cap)
      ∧ (∃ t, cmdWrite 0x2#64 { State.reset with len := 100#64 } = .next t ∧ t.err = .noState)
      ∧ (∃ t, cmdWrite 0x2#64 (readyWith 100#64 100#64 0xFFFFFFFFFFFFFFC0#64) = .next t ∧ t.err = .shape)
      ∧ (∃ t, cmdWrite 0x2#64 (readyWith 256#64 256#64 0xFFFFFFFFFFFFFF80#64) = .next t ∧ t.err = .range)
      ∧ (∃ t, cmdWrite 0x2#64 (readyWith 128#64 128#64 0xFFFFFFFFFFFFFF80#64) = .next t ∧ t.err = .ok) :=
  ⟨by decide, by decide, ⟨_, rfl⟩, ⟨_, rfl, rfl⟩, ⟨_, rfl, rfl⟩, ⟨_, rfl, rfl⟩, ⟨_, rfl, rfl⟩, ⟨_, rfl, rfl⟩, ⟨_, rfl, rfl⟩⟩

theorem witness_RejectedCommandChangesNothingElse :
    ready.busy = false ∧ (∃ t, cmdWrite 0x5#64 ready = .next t ∧ t.err ≠ .ok)
      ∧ (∃ t, takeTurn .engine busyInit = .next t ∧ t.busy = false) ∧ (∀ h, Turn.engine ≠ .host h)
      ∧ Turn.engine ≠ .reset :=
  ⟨by decide, ⟨_, rfl, by decide⟩, ⟨_, rfl, rfl⟩, fun _ h => (nomatch h), by decide⟩

/-- A zero-length `GEN` at the very end of a 32-bit space. -/
def zeroAtEnd : State := built (readyWith 0#64 0#64 0x100000000#64) narrowConfig

theorem witness_ZeroLengthCompletesAtAcceptance :
    zeroAtEnd.busy = false ∧ zeroAtEnd.stateValid = true ∧ zeroAtEnd.len = 0#64 ∧ zeroAtEnd.bufLen = 0#64
      ∧ zeroAtEnd.dstAddr.toNat ≤ 2 ^ zeroAtEnd.cfg.paWidth := by decide

/-- A `GEN` of one block right above the engine's registers. -/
def aboveRegs : State := built (readyWith 128#64 128#64 0x1100#64) mappedConfig

theorem witness_GenIsAccepted :
    aboveRegs.busy = false ∧ aboveRegs.stateValid = true ∧ aboveRegs.len ≠ 0#64 ∧ aboveRegs.len.toNat % 128 = 0
      ∧ aboveRegs.bufLen = aboveRegs.len ∧ aboveRegs.dstAddr.toNat + aboveRegs.len.toNat ≤ 2 ^ aboveRegs.cfg.paWidth
      ∧ (∀ r ∈ aboveRegs.cfg.engineRegs, ∀ a, r.base ≤ a → a < r.base + r.size →
          ¬ (aboveRegs.dstAddr.toNat ≤ a ∧ a < aboveRegs.dstAddr.toNat + aboveRegs.len.toNat))
      ∧ aboveRegs.gen = some genA ∧ rangeExists aboveRegs.cfg aboveRegs.dstAddr.toNat aboveRegs.len.toNat = true := by
  refine ⟨by decide, by decide, by decide, by decide, by decide, by decide, ?_, rfl, by decide⟩
  intro r hr a _ ha
  have h1 : r = ⟨0x1000, 0x100⟩ := by simpa [aboveRegs, built, mappedConfig] using hr
  have h2 : aboveRegs.dstAddr.toNat = 0x1100 := by decide
  subst h1
  simp only at ha
  omega

/-- A range whose last byte is the first of the registers, and one whose first byte is the last of them. -/
theorem witness_GenMeetingEngineRegistersIsRefused :
    ∀ x ∈ [(built (readyWith 128#64 128#64 0xF81#64) mappedConfig, 0x1000),
           (built (readyWith 128#64 128#64 0x10FF#64) mappedConfig, 0x10FF)],
      x.1.busy = false ∧ x.1.stateValid = true ∧ x.1.len.toNat % 128 = 0 ∧ x.1.bufLen = x.1.len
        ∧ x.1.dstAddr.toNat + x.1.len.toNat ≤ 2 ^ x.1.cfg.paWidth ∧ ⟨0x1000, 0x100⟩ ∈ x.1.cfg.engineRegs
        ∧ 0x1000 ≤ x.2 ∧ x.2 < 0x1000 + 0x100
        ∧ x.1.dstAddr.toNat ≤ x.2 ∧ x.2 < x.1.dstAddr.toNat + x.1.len.toNat := by decide

theorem witness_SkipRunsToCompletion :
    (readyWith 128#64 5#64 0#64).busy = false ∧ (readyWith 128#64 5#64 0#64).gen = some genA
      ∧ (readyWith 128#64 5#64 0#64).len ≠ 0#64 ∧ (readyWith 128#64 5#64 0#64).len.toNat % 128 = 0 := by decide +kernel

theorem witness_AcceptanceFrame :
    (∃ t, exec .nop ready = .next t) ∧ (∃ t, exec .init ready = .next t)
      ∧ (∃ t, exec .gen (readyWith 128#64 128#64 0x1000#64) = .next t)
      ∧ (∃ t, exec .skip (readyWith 128#64 128#64 0x1000#64) = .next t) ∧ (∃ t, exec (.select 1#2) ready = .next t) :=
  ⟨⟨_, rfl⟩, ⟨_, rfl⟩, ⟨_, rfl⟩, ⟨_, rfl⟩, ⟨_, rfl⟩⟩

/-- The last byte of the last block, and a byte another agent wrote. -/
theorem witness_GenCompletionWritesTheStream :
    (busyGen 2 0x1000#64).latch = some (.gen 2 0x1000#64) ∧ (busyGen 2 0x1000#64).gen = some genA
      ∧ rangeExists (busyGen 2 0x1000#64).cfg (0x1000#64).toNat (128 * 2) = true ∧ 1 < 2
      ∧ (0x1000#64).toNat + 128 * 1 + 32 * 3 + 8 * 3 + 7 ∉ ((busyGen 2 0x1000#64).withTouched [0x1000]).touched := by
  decide +kernel

theorem witness_CompletionFrame :
    latchInv (busyGen 2 0x1000#64) ∧ (∃ t, engineTurn (busyGen 2 0x1000#64) = .next t)
      ∧ latchInv (busySkip 1) ∧ (∃ t, engineTurn (busySkip 1) = .next t) :=
  ⟨inv_busyGen.2.2.2.2, ⟨_, engineTurn_busyGen⟩, ⟨rfl, rfl, by decide, rfl⟩, ⟨_, rfl⟩⟩

/-- A `GEN` in flight whose range ends one byte beyond the admitted ones, so that its last byte does not exist. -/
def stuckGen : State := built (busyGen 1 0xF81#64) smallConfig

/-- R68: a read of that byte returns any value, here the free byte it draws, and a write of it is no fault. -/
theorem test_unadmitted_byte_in_flight :
    byteExists stuckGen.cfg 0x1000 = false
      ∧ (∃ t, agentLoad stuckGen (.host 0) 0x1000 1 = .next t
          ∧ t.observed = [.bytes (.host 0) 0x1000 [Config.freeByte 0]])
      ∧ agentStore stuckGen (.host 0) 0x1000 7#8 = .next stuckGen :=
  ⟨by decide, ⟨_, rfl, rfl⟩, rfl⟩

/-- Each clause at an edge: the byte right behind a range, the last byte in flight, the last byte of an unseen range, and
the same where the byte does not exist. -/
theorem witness_TouchedBytesAreUnspecified :
    (byteExists ready.cfg 0x1080 = true ∧ inFlight (busyGen 1 0x1000#64) 0x1080 = false
        ∧ (∀ r ∈ ((unseen ready ⟨0x1000, 128⟩).host 0).unseen, inRegion r 0x1080 = false))
      ∧ inFlight (busyGen 1 0x1000#64) 0x107F = true
      ∧ (⟨0x1000, 128⟩ ∈ ((unseen ready ⟨0x1000, 128⟩).host 0).unseen ∧ inRegion ⟨0x1000, 128⟩ 0x107F = true
        ∧ inFlight (unseen ready ⟨0x1000, 128⟩) 0x107F = false)
      ∧ (byteExists stuckGen.cfg 0x1000 = false ∧ inFlight stuckGen 0x1000 = true
        ∧ byteExists stuckGen.cfg 0x1001 = false ∧ inFlight stuckGen 0x1001 = false
        ∧ (∀ r ∈ (stuckGen.host 0).unseen, inRegion r 0x1001 = false)
        ∧ byteExists (unseen (built ready smallConfig) ⟨0xF81, 128⟩).cfg 0x1000 = false
        ∧ ⟨0xF81, 128⟩ ∈ ((unseen (built ready smallConfig) ⟨0xF81, 128⟩).host 0).unseen
        ∧ inRegion ⟨0xF81, 128⟩ 0x1000 = true)
      ∧ ((busyGen 1 0x1000#64).withTouched [0x107F]).latch = some (.gen 1 0x1000#64)
      ∧ engineEnabled ((busyGen 1 0x1000#64).withTouched [0x107F]) = true
      ∧ (∃ t, engineTurn ((busyGen 1 0x1000#64).withTouched [0x107F]) = .next t)
      ∧ 0x107F ∈ ((busyGen 1 0x1000#64).withTouched [0x107F]).touched :=
  ⟨by decide, by decide, by decide, by decide, by decide, by decide, ⟨_, rfl⟩, by decide⟩

theorem witness_ChunkedGenEqualsOneGen :
    ready.touched = [] ∧ (0x1080#64).toNat = (0x1000#64).toNat + 128 * 1 := by decide

theorem witness_SkipThenGenEqualsLongerGen : ready.touched = [] ∧ 255 < 128 * 2 := by decide

theorem witness_StreamPositionCountsBlocks :
    ready.touched = [] ∧ (∀ l ∈ [Latch.skip 1, .gen 1 0x1000#64], l.streams ready.cfg = true)
      ∧ rangeExists ready.cfg (0x2000#64).toNat (128 * 2) = true ∧ 1 < 2 ∧ 127 < 128 := by decide +kernel

theorem witness_SeedingKeepsHalfTheConstants : configWf defaultConfig = true := by decide

theorem witness_ResetTakesOneStep :
    (turned (busyGen 2 0x1000#64) .reset).sched = .reset :: [] ∧ (busyGen 2 0x1000#64).cfg.capMask ≠ 0#3
      ∧ (busyGen 2 0x1000#64).cfg.capMask.getLsbD Variant.v256.id.toNat = true := by decide

/-- The last byte of the aborted range, and the bytes right outside it. -/
theorem witness_ResetAbortsTheCommand :
    (turned (busyGen 2 0x1000#64) .reset).sched = .reset :: [] ∧ 255 < flightBytes (turned (busyGen 2 0x1000#64) .reset)
      ∧ byteExists (busyGen 2 0x1000#64).cfg (flightStart (turned (busyGen 2 0x1000#64) .reset) + 255) = true
      ∧ 0x0FFF < flightStart (turned (busyGen 2 0x1000#64) .reset)
      ∧ flightStart (turned (busyGen 2 0x1000#64) .reset) + flightBytes (turned (busyGen 2 0x1000#64) .reset) ≤ 0x1100 := by
  decide

/-- The first and the last reserved offsets. -/
theorem witness_StatusAndCapFields :
    2 < 3 ∧ (0x00#8).toNat % 8 = 0 ∧ (0x18#8).toNat % 8 = 0
      ∧ ((0x58#8).toNat % 8 = 0 ∧ 0x58 ≤ (0x58#8).toNat) ∧ ((0xF8#8).toNat % 8 = 0 ∧ 0x58 ≤ (0xF8#8).toNat) := by decide

theorem witness_WindowAccess :
    (0xF8#8).toNat % 8 = 0 ∧ 0x50 < (0xF8#8).toNat ∧ 0xF8#8 ≠ 0x00#8 ∧ (0x08#8).toNat % 8 = 0 ∧ 0x00 < (0x08#8).toNat
      ∧ (0x20#8).toNat % 8 = 0 ∧ (0x50#8).toNat % 8 = 0 ∧ (0x00#8).toNat % 8 = 0 ∧ (0xFF#8).toNat % 8 ≠ 0 ∧ 4 ≠ 8 := by decide

/-- The first and the last operand register, and the offsets right outside. -/
theorem witness_WrittenRegisterReadsBack :
    ((0x20#8).toNat % 8 = 0 ∧ 0x20 ≤ (0x20#8).toNat) ∧ ((0x50#8).toNat % 8 = 0 ∧ (0x50#8).toNat ≤ 0x50)
      ∧ ((0x18#8).toNat % 8 = 0 ∧ (0x18#8).toNat < 0x20) ∧ ((0x58#8).toNat % 8 = 0 ∧ 0x50 < (0x58#8).toNat)
      ∧ 0x28#8 ≠ 0x20#8 := by decide

theorem witness_ReadsHaveNoSideEffects :
    (∀ bytes addr v, HostOp.read 8 0x8#64 ≠ .write bytes addr v) ∧ (∀ a b, HostOp.read 8 0x8#64 ≠ .storeMem a b)
      ∧ (∃ t, hostOp 0 (.read 8 0x8#64) (busyGen 2 0x1000#64) = .next t) :=
  ⟨fun _ _ _ h => (nomatch h), fun _ _ h => (nomatch h), ⟨_, rfl⟩⟩

theorem witness_HostFaultIsNeverCleared :
    ((twoHosts ready .poll).host 0).fault = some (.busError 4 0x24#8) ∧ ((twoHosts ready .poll).host 0).prog ≠ []
      ∧ ((twoHosts ready .poll).host 1).prog = .poll :: [] ∧ ((twoHosts ready .poll).host 1).fault = none
      ∧ (∃ t, step (turned (twoHosts ready .poll) .reset) = .next t) :=
  ⟨by decide, by decide, by decide, by decide, ⟨_, rfl⟩⟩

/-- R295 and R297: after the bus error of host 0, the command of host 1 is accepted. -/
theorem test_another_host_goes_on :
    ∃ t, step (turned (twoHosts ready (.write 8 0x0#64 0x204#64)) (.host 1)) = .next t ∧ t.engine = .v256 :=
  ⟨_, rfl, rfl⟩

/-- R326: with a fence and no read of `BUSY = 0`, a byte of a completed range still reads as any value, here the free
byte the read draws. -/
theorem test_a_fence_alone_does_not_end_the_hazard :
    ∃ t, agentLoad (hostFence 0 (unseen ready ⟨0x1000, 128⟩)) (.host 0) 0x1000 1 = .next t
      ∧ t.observed = [.bytes (.host 0) 0x1000 [Config.freeByte 0]] := ⟨_, rfl, rfl⟩

theorem witness_StepKeepsInvariant :
    State.reset.inv ∧ (∃ t, step State.reset = .next t)
      ∧ (busyGen 2 0x1000#64).inv ∧ (∃ t, step (busyGen 2 0x1000#64) = .next t) :=
  ⟨inv_reset, ⟨_, rfl⟩, inv_busyGen, ⟨_, step_busyGen⟩⟩

theorem witness_StepKeepsMemoryCanonical :
    memWf (turned (ready.withMem [(3, 1#8), (9, 2#8)]) (.otherWrite 5 7#8)).mem = true
      ∧ (∃ t, step (turned (ready.withMem [(3, 1#8), (9, 2#8)]) (.otherWrite 5 7#8)) = .next t) :=
  ⟨by decide, ⟨_, rfl⟩⟩

theorem witness_StepKeepsParameters : ∃ t, step (turned ready .reset) = .next t := ⟨_, rfl⟩

theorem witness_OnlySelectAndResetChangeEngine :
    issues (hosted ready (.write 8 0x0#64 0x204#64)) 0 0x204#64 ∧ (∃ t, step (hosted ready (.write 8 0x0#64 0x204#64)) = .next t ∧ t.engine ≠ ready.engine)
      ∧ (∃ t, step (turned (ready.withEngine .v256) .reset) = .next t ∧ t.engine ≠ (ready.withEngine .v256).engine) :=
  ⟨⟨0x0#64, [], rfl, by decide⟩, ⟨_, rfl, by decide⟩, ⟨_, rfl, by decide⟩⟩

theorem witness_OnlyCompletionSelectAndResetChangeTheState :
    (∃ t, step (turned busyInit .engine) = .next t ∧ t.gen ≠ busyInit.gen)
      ∧ (∃ t, step (turned ready .reset) = .next t ∧ t.gen ≠ ready.gen)
      ∧ (∃ t, step (hosted ready (.write 8 0x0#64 0x204#64)) = .next t ∧ t.gen ≠ ready.gen) :=
  ⟨⟨_, rfl, fun h => by cases h⟩, ⟨_, rfl, fun h => by cases h⟩, ⟨_, rfl, fun h => by cases h⟩⟩

/-- The completing `GEN`, another agent, and the host each change a byte; reset may. -/
theorem witness_OnlyOwnersChangeADestinationByte :
    latchInv ready ∧ latchInv (busyGen 2 0x1000#64)
      ∧ (memRead (completeGen 1 0x1000#64 genA (busyGen 1 0x1000#64)).mem 0x1000 ≠ memRead (busyGen 1 0x1000#64).mem 0x1000)
      ∧ (∃ t, step (turned ready (.otherWrite 5 7#8)) = .next t ∧ memRead t.mem 5 ≠ memRead ready.mem 5)
      ∧ (∃ t, step (hosted ready (.storeMem 5 7#8)) = .next t ∧ memRead t.mem 5 ≠ memRead ready.mem 5) :=
  ⟨rfl, inv_busyGen.2.2.2.2, by decide +kernel, ⟨_, rfl, by decide⟩, ⟨_, rfl, by decide⟩⟩

theorem witness_OnlyCompletionAndResetClearBusy :
    (∃ t, step (turned busyInit .engine) = .next t ∧ busyInit.busy = true ∧ t.busy = false)
      ∧ (∃ t, step (turned busyInit .reset) = .next t ∧ t.busy = false) :=
  ⟨⟨_, rfl, rfl, rfl⟩, ⟨_, rfl, rfl⟩⟩

/-- One byte of the range is beyond the admitted ones. -/
theorem witness_UnadmittedGenIsStuckUntilReset :
    (turned (built (busyGen 1 0xF81#64) smallConfig) .engine).stuck
      ∧ (∃ t, step (turned (built (busyGen 1 0xF81#64) smallConfig) .engine) = .next t)
      ∧ (∃ t, step (turned (built (busyGen 1 0xF81#64) smallConfig) .reset) = .next t) :=
  ⟨⟨1, 0xF81#64, rfl, by decide⟩, ⟨_, rfl⟩, ⟨_, rfl⟩⟩

theorem not_stuck_busyGen : ¬ (busyGen 2 0x1000#64).stuck := by
  rintro ⟨n, d, h, hr⟩
  have h2 : Latch.gen 2 0x1000#64 = .gen n d := Option.some.inj h
  injection h2 with hn hd
  subst hn
  subst hd
  have : rangeExists (busyGen 2 0x1000#64).cfg (0x1000#64).toNat (blockBytes * 2) = true := by decide +kernel
  rw [this] at hr
  cases hr

theorem witness_LongCommandCompletes :
    (busyGen 2 0x1000#64).inv ∧ (busyGen 2 0x1000#64).busy = true ∧ ¬ (busyGen 2 0x1000#64).stuck
      ∧ (busyGen 2 0x1000#64).sched = [] := ⟨inv_busyGen, rfl, not_stuck_busyGen, rfl⟩

theorem witness_PollTerminates :
    (waiting (busyGen 2 0x1000#64) .poll).inv ∧ (waiting (busyGen 2 0x1000#64) .poll).busy = true
      ∧ ¬ (waiting (busyGen 2 0x1000#64) .poll).stuck ∧ (waiting (busyGen 2 0x1000#64) .poll).sched = []
      ∧ firstHost (waiting (busyGen 2 0x1000#64) .poll).hosts = 0
      ∧ ((waiting (busyGen 2 0x1000#64) .poll).host 0).fault = none
      ∧ ((waiting (busyGen 2 0x1000#64) .poll).host 0).prog = .poll :: [] :=
  ⟨inv_busyGen, rfl, not_stuck_busyGen, rfl, rfl, rfl, rfl⟩

theorem witness_GeneratorStateIsOpaque : Turn.host 0 ≠ .engine ∧ Turn.otherRead 0 1 ≠ .engine := by decide

/-- Each clause: a command, an engine turn, and accesses of a host at `CAP` and at `LEN`, to destination bytes, and of
`CMD`; bits 7 and 10 stand beside the field `ENGINE`. -/
theorem witness_VariantNeverChangesAResult :
    (∀ e, Instr.gen ≠ .select e) ∧ (∀ h, Turn.engine ≠ .host h) ∧ Turn.engine ≠ .reset
      ∧ (∀ op ∈ [HostOp.read 8 0x10#64, .write 8 0x40#64 1#64, .write 8 0x0#64 0x2#64, .loadMem 5 2, .storeMem 5 7#8],
          op ≠ .poll ∧ (∀ c, op ≠ .checkErr c)
            ∧ ∀ addr, op = .read 8 addr → windowOffset? ready.cfg addr ≠ some 0x08#8)
      ∧ 0x10#8 ≠ 0x08#8 ∧ ¬ (8 ≤ 7 ∧ 7 ≤ 9) ∧ ¬ (8 ≤ 10 ∧ 10 ≤ 9) := by
  refine ⟨by decide, fun _ h => (nomatch h), by decide, ?_, by decide, by decide, by decide⟩
  intro op hop
  simp only [List.mem_cons, List.not_mem_nil, or_false] at hop
  rcases hop with rfl | rfl | rfl | rfl | rfl
  · refine ⟨by decide, fun _ h => (nomatch h), fun addr h => ?_⟩
    injection h with _ h
    subst h
    decide
  all_goals exact ⟨by decide, fun _ h => (nomatch h), fun _ h => (nomatch h)⟩

/-- R327: rewriting `LEN` while a `GEN` is in flight leaves its latch alone. -/
theorem test_register_write_in_flight :
    ∃ t, windowWrite 0x40#8 5#64 (busyGen 2 0x1000#64) = .next t ∧ t.len = 5#64
      ∧ t.latch = some (.gen 2 0x1000#64) := ⟨_, rfl, rfl, rfl⟩

theorem witness_InFlightBytesReadAsAnyValue :
    (∀ x, inFlight (busyGen 1 0x1000#64) x = false → memRead [(0x1000, 5#8)] x = memRead (busyGen 1 0x1000#64).mem x)
      ∧ inFlight (busyGen 1 0x1000#64) 0x107F = true
      ∧ inFlight stuckGen 0x1000 = true ∧ byteExists stuckGen.cfg 0x1000 = false := by
  refine ⟨?_, by decide, by decide, by decide⟩
  intro x hx
  have hne : 0x1000 ≠ x := fun h => by
    subst h
    revert hx
    decide
  simp [memRead, hne, busyGen, ready, State.reset]

/-- Each clause: two bytes right in front of an unseen range, the last byte of an unseen and of an unfenced range, a
completing `GEN` with a host listed, and `STATUS` read busy and idle. -/
theorem witness_FencedReadReturnsMemory :
    (rangeExists (ready.withMem [(3, 1#8), (4, 2#8)]).cfg 3 [1#8, 2#8].length = true
        ∧ (∀ i, i < [1#8, 2#8].length → inFlight (ready.withMem [(3, 1#8), (4, 2#8)]) (3 + i) = false
          ∧ memRead (ready.withMem [(3, 1#8), (4, 2#8)]).mem (3 + i) = [1#8, 2#8][i]?)
        ∧ (∀ i, i < [1#8, 2#8].length → ∀ r ∈ ((unseen ready ⟨5, 128⟩).host 0).unseen, inRegion r (3 + i) = false)
        ∧ (∀ i, i < [1#8, 2#8].length → ∀ r ∈ ((unfenced ready ⟨5, 128⟩).host 0).unfenced, inRegion r (3 + i) = false)
        ∧ (built ready { defaultConfig with fenceNeeded := false }).cfg.fenceNeeded = false)
      ∧ (inRegion ⟨5, 128⟩ 132 = true
        ∧ ⟨5, 128⟩ ∈ ((unseen ready ⟨5, 128⟩).host 0).unseen ∧ ready.cfg.fenceNeeded = true
        ∧ ⟨5, 128⟩ ∈ ((unfenced ready ⟨5, 128⟩).host 0).unfenced)
      ∧ (1 < 2 ∧ byteExists stuckGen.cfg (0x1000 + 1) = false ∧ inFlight stuckGen (0x1000 + 1) = false
        ∧ (∀ r ∈ (stuckGen.host 0).unseen, inRegion r (0x1000 + 1) = false)
        ∧ ∀ r ∈ (stuckGen.host 0).unfenced, inRegion r (0x1000 + 1) = false)
      ∧ ((busyGen 2 0x1000#64).latch = some (.gen 2 0x1000#64) ∧ (busyGen 2 0x1000#64).gen = some genA
        ∧ rangeExists (busyGen 2 0x1000#64).cfg (0x1000#64).toNat (128 * 2) = true
        ∧ 0 < (busyGen 2 0x1000#64).hosts.length)
      ∧ ready.busy = false ∧ busyInit.busy = true := by
  decide +kernel

end Sys2Proof.Tests
end

section
/-! PROOFS. The host's accesses to the register window (20_memory.md R61). -/
namespace Sys2Proof.Machine

variable {s : State} {off : BitVec 8} {bytes : Nat}

/-- A well-formed read of the window reads the register. -/
theorem hostOp_read_of_accessOk (h : Nat) (hok : accessOk bytes off = true) :
    hostOp h (.read bytes (s.cfg.base + off.setWidth 64)) s = .next (windowRead h off s) := by
  simp [hostOp, hostRead, hok]

/-- A well-formed write of the window is a register write or a command. -/
theorem hostOp_write_of_accessOk (h : Nat) (v : Word) (hok : accessOk bytes off = true) :
    hostOp h (.write bytes (s.cfg.base + off.setWidth 64) v) s = windowWrite off v s := by
  simp [hostOp, hostWrite, hok]

theorem hostOp_read_of_not_accessOk (h : Nat) (hbad : accessOk bytes off = false) :
    hostOp h (.read bytes (s.cfg.base + off.setWidth 64)) s = .next (recordFault h (.busError bytes off) s) := by
  simp [hostOp, hostRead, hbad]

theorem hostOp_write_of_not_accessOk (h : Nat) (v : Word) (hbad : accessOk bytes off = false) :
    hostOp h (.write bytes (s.cfg.base + off.setWidth 64) v) s = .next (recordFault h (.busError bytes off) s) := by
  simp [hostOp, hostWrite, hbad]

theorem accessOk_eq_false (hbad : bytes ≠ 8 ∨ off.toNat % 8 ≠ 0) : accessOk bytes off = false := by
  rw [Bool.eq_false_iff, ne_eq, accessOk_iff]
  omega

theorem windowWrite_cmd (v : Word) (s : State) : windowWrite 0x00#8 v s = cmdWrite v s := if_pos rfl

theorem windowWrite_of_ne_cmd (v : Word) (s : State) (hoff : off ≠ 0x00#8) :
    windowWrite off v s = .next (writeReg s off v) := if_neg hoff

theorem sameEngine_windowRead (h : Nat) (off : BitVec 8) (s : State) : sameEngine s (windowRead h off s) := by
  rw [windowRead_eq]
  simp [sameEngine, sameOperandRegs]

theorem windowRead_observed (h : Nat) (off : BitVec 8) (s : State) :
    (windowRead h off s).observed = .reg h off (readReg s off) :: s.observed := by
  rw [windowRead_eq]
  simp

/-- The aligned offsets from `SEED0` to `DST_ADDR` are the seven operand registers (10_state.md R32). -/
theorem operandOffset_cases (halign : off.toNat % 8 = 0) (hlo : 0x20 ≤ off.toNat) (hhi : off.toNat ≤ 0x50) :
    off = 0x20#8 ∨ off = 0x28#8 ∨ off = 0x30#8 ∨ off = 0x38#8 ∨ off = 0x40#8 ∨ off = 0x48#8 ∨ off = 0x50#8 := by
  simp only [← BitVec.toNat_inj, BitVec.toNat_ofNat]
  omega

/-- An operand register reads back the value written, whole. -/
theorem readReg_writeReg_same (s : State) (v : Word) (halign : off.toNat % 8 = 0) (hlo : 0x20 ≤ off.toNat)
    (hhi : off.toNat ≤ 0x50) : readReg (writeReg s off v) off = v := by
  rcases operandOffset_cases halign hlo hhi with rfl | rfl | rfl | rfl | rfl | rfl | rfl <;> rfl

/-- A write outside the operand registers is ignored (10_state.md R34, R35, R40). -/
theorem writeReg_of_not_operand (s : State) (v : Word) (hout : off.toNat < 0x20 ∨ 0x50 < off.toNat) :
    writeReg s off v = s := by
  have hne : ∀ x : BitVec 8, 0x20 ≤ x.toNat → x.toNat ≤ 0x50 → off ≠ x := by
    rintro x hlo hhi rfl
    omega
  simp [writeReg, hne]

/-- Settles O34: the window finds the offset of any address at `BASE` plus an offset, and `accessOk` divides its accesses
into those of the register and those that record a bus error. -/
theorem windowAccess : Obligations.WindowAccess := by
  intro s h off v
  refine ⟨fun halign => ?_, fun bytes hbad => ?_⟩
  · have hok : accessOk 8 off = true := (accessOk_iff 8 off).mpr ⟨rfl, halign⟩
    rw [hostOp_write_of_accessOk h v hok]
    refine ⟨⟨_, hostOp_read_of_accessOk h hok, sameEngine_windowRead h off s, windowRead_observed h off s⟩,
      windowWrite_of_ne_cmd v s, ?_, fun ⟨hlo, hhi⟩ => readReg_writeReg_same s v halign hlo hhi,
      fun hout => writeReg_of_not_operand s v (hout.imp_left And.right)⟩
    rintro rfl
    exact windowWrite_cmd v s
  · have hno : accessOk bytes off = false := accessOk_eq_false hbad
    exact ⟨hostOp_read_of_not_accessOk h hno, hostOp_write_of_not_accessOk h v hno⟩

end Sys2Proof.Machine
end

section
/-! PROOFS. The illegal words and their answer (30_encoding.md R94 to R96). -/
namespace Sys2Proof.Machine

variable {v w : Word}

/-- The opcodes 0x00 to 0x04 are the assigned ones (R94). -/
theorem lt_five_iff_assigned (op : BitVec 8) :
    op.toNat < 5 ↔ op = 0x00#8 ∨ op = 0x01#8 ∨ op = 0x02#8 ∨ op = 0x03#8 ∨ op = 0x04#8 := by
  simp only [← BitVec.toNat_inj, BitVec.toNat_ofNat]
  omega

/-- Two command words with the same fields are the same word (R90). -/
theorem word_eq_iff_fields :
    v = w ↔ fieldReserved v = fieldReserved w ∧ fieldEng v = fieldEng w ∧ fieldOp v = fieldOp w := by
  refine ⟨by rintro rfl; exact ⟨rfl, rfl, rfl⟩, fun ⟨hres, heng, hop⟩ => ?_⟩
  rw [word_eq_fields v, word_eq_fields w, hres, heng, hop]

/-- The word that holds an opcode and nothing else, by its fields (R90). -/
theorem word_eq_setWidth_iff (op : BitVec 8) :
    v = op.setWidth 64 ↔ fieldReserved v = 0#54 ∧ fieldEng v = 0#2 ∧ fieldOp v = op := by
  have hres : fieldReserved (op.setWidth 64) = 0#54 := by revert op; decide
  have heng : fieldEng (op.setWidth 64) = 0#2 := by revert op; decide
  have hop : fieldOp (op.setWidth 64) = op := by revert op; decide
  rw [word_eq_iff_fields, hres, heng, hop]

/-- A row with no free bits is matched by its pattern alone. -/
theorem matchesWord_exact (name : String) (p : Word) :
    (OpcodeRow.mk name p 0xFFFFFFFFFFFFFFFF#64).matchesWord v = true ↔ v = p := by
  rw [OpcodeRow.matchesWord, beq_iff_eq, show 0xFFFFFFFFFFFFFFFF#64 = BitVec.allOnes 64 from rfl, BitVec.and_allOnes]

/-- The row of `SELECT` leaves `ENG` free (R94). -/
theorem matchesWord_select :
    (OpcodeRow.mk "SELECT" 0x0000000000000004#64 0xFFFFFFFFFFFFFCFF#64).matchesWord v = true ↔
      fieldReserved v = 0#54 ∧ fieldOp v = 0x04#8 := by
  have hres : fieldReserved (v &&& 0xFFFFFFFFFFFFFCFF#64) = fieldReserved v := by
    rw [fieldReserved, BitVec.extractLsb'_and]
    exact BitVec.and_allOnes
  have heng : fieldEng (v &&& 0xFFFFFFFFFFFFFCFF#64) = 0#2 := by
    rw [fieldEng, BitVec.extractLsb'_and]
    exact BitVec.and_zero
  have hop : fieldOp (v &&& 0xFFFFFFFFFFFFFCFF#64) = fieldOp v := by
    rw [fieldOp, BitVec.extractLsb'_and]
    exact BitVec.and_allOnes
  rw [OpcodeRow.matchesWord, beq_iff_eq, show 0x0000000000000004#64 = (0x04#8).setWidth 64 from rfl,
    word_eq_setWidth_iff, hres, heng, hop]
  simp only [true_and]

/-- A word matches a row of the table when `OP` is assigned, the reserved bits are 0, and `ENG` is 0 beside any `OP` but
that of `SELECT`. -/
theorem matchesRow_iff :
    (∃ r ∈ opcodeTable, r.matchesWord v = true) ↔
      (fieldOp v).toNat < 5 ∧ fieldReserved v = 0#54 ∧ (fieldEng v = 0#2 ∨ fieldOp v = 0x04#8) := by
  have hrows : (∃ r ∈ opcodeTable, r.matchesWord v = true) ↔
      v = (0x00#8).setWidth 64 ∨ v = (0x01#8).setWidth 64 ∨ v = (0x02#8).setWidth 64 ∨ v = (0x03#8).setWidth 64
        ∨ (fieldReserved v = 0#54 ∧ fieldOp v = 0x04#8) := by
    simp [opcodeTable, matchesWord_exact, matchesWord_select]
  rw [hrows, lt_five_iff_assigned]
  simp only [word_eq_setWidth_iff]
  tauto

/-- The decoder rejects the words that fall under one of the four clauses of R95. -/
theorem decode_error_iff :
    (∃ e, decode v = .error e) ↔
      (5 ≤ (fieldOp v).toNat ∨ fieldReserved v ≠ 0#54 ∨ (fieldEng v ≠ 0#2 ∧ fieldOp v ≠ 0x04#8)
        ∨ (fieldOp v = 0x04#8 ∧ fieldEng v = 3#2)) := by
  rw [← Nat.not_lt, lt_five_iff_assigned]
  rcases ne_or_eq (fieldReserved v) 0#54 with hres | hres
  · simp [decode, hres]
  rcases eq_or_ne (fieldOp v) 0x04#8 with hop | hop
  · by_cases heng : fieldEng v = 3#2 <;> simp [decode, hres, hop, heng]
  rcases ne_or_eq (fieldEng v) 0#2 with heng | heng
  · simp [decode, hres, hop, heng]
  by_cases hlow : fieldOp v = 0x00#8 ∨ fieldOp v = 0x01#8 ∨ fieldOp v = 0x02#8 ∨ fieldOp v = 0x03#8
  · rcases hlow with h | h | h | h <;> simp [decode, hres, heng, h]
  · simp only [not_or] at hlow
    simp [decode, hres, heng, hop, hlow]

/-- An idle engine answers an illegal word with `ERR_ILLEGAL`, `OVR` cleared, and nothing else (R96). -/
theorem cmdWrite_illegal_of_idle {e : Illegal} {s : State} (hv : decode v = .error e) (hidle : s.busy = false) :
    cmdWrite v s = .next ((s.withOvr false).withErr .illegal) := by
  rw [cmdWrite, hv]
  exact accept_idle _ hidle

/-- Settles O4: the decoder's branches are the four clauses of R95, and a word under none of them matches a row. -/
theorem illegalWordsAreRejected : Obligations.IllegalWordsAreRejected := by
  refine ⟨fun v => decode_error_iff, fun v => ?_, fun v e s => cmdWrite_illegal_of_idle⟩
  rw [decode_error_iff, matchesRow_iff, ← Nat.not_lt]
  tauto

end Sys2Proof.Machine
end

section
/-! PROOFS. Permutations A and B as rotations of the half-words and as shifts of whole words (40_datapath_units.md R124,
R125). -/
namespace Sys2Proof.Machine

theorem nth_ofFn {α : Type} (f : Fin 4 → α) (j : Fin 4) : (Quad.ofFn f).nth j = f j := by
  fin_cases j <;> rfl

/-- An even half-word is the low half of its word (10_state.md R21). -/
theorem half_even (a : DoubleLane) (j : Fin 4) : half a ⟨2 * j.val, by omega⟩ = (a.nth j).extractLsb' 0 32 := by
  fin_cases j <;> rfl

/-- An odd half-word is the high half of its word (10_state.md R21). -/
theorem half_odd (a : DoubleLane) (j : Fin 4) : half a ⟨2 * j.val + 1, by omega⟩ = (a.nth j).extractLsb' 32 32 := by
  fin_cases j <;> rfl

/-- Where the table names the high half of word k and then the low half of word l, the gathered word is two shifts and
an OR. -/
theorem nth_perm_eq_shifts (a : DoubleLane) {t : PermTable} {j k l : Fin 4}
    (hlow : t[2 * j.val] = ⟨2 * k.val + 1, by omega⟩) (hhigh : t[2 * j.val + 1] = ⟨2 * l.val, by omega⟩) :
    (perm a t).nth j = (a.nth k >>> 32) ||| (a.nth l <<< 32) := by
  rw [perm, nth_ofFn, hlow, hhigh, half_even, half_odd, funnel]

/-- Entry i of the table of permutation A is i + 5 mod 8 (R124). -/
theorem tableA_getElem : ∀ i : Fin 8, tableA[i.val] = i + 5 := by decide

/-- Entry i of the table of permutation B is i + 3 mod 8 (R125). -/
theorem tableB_getElem : ∀ i : Fin 8, tableB[i.val] = i + 3 := by decide

theorem half_permA (a : DoubleLane) (i : Fin 8) : half (permA a) i = half a (i + 5) := by
  rw [permA, half_perm, tableA_getElem]

theorem half_permB (a : DoubleLane) (i : Fin 8) : half (permB a) i = half a (i + 3) := by
  rw [permB, half_perm, tableB_getElem]

/-- Word j of `PERM_A` joins the high half of word j + 2 to the low half of word j + 3. -/
theorem nth_permA (a : DoubleLane) (j : Fin 4) :
    (permA a).nth j = (a.nth (j + 2) >>> 32) ||| (a.nth (j + 3) <<< 32) := by
  have htable : ∀ j : Fin 4, tableA[2 * j.val] = ⟨2 * (j + 2).val + 1, by omega⟩
      ∧ tableA[2 * j.val + 1] = ⟨2 * (j + 3).val, by omega⟩ := by decide
  exact nth_perm_eq_shifts a (htable j).left (htable j).right

/-- Word j of `PERM_B` joins the high half of word j + 1 to the low half of word j + 2. -/
theorem nth_permB (a : DoubleLane) (j : Fin 4) :
    (permB a).nth j = (a.nth (j + 1) >>> 32) ||| (a.nth (j + 2) <<< 32) := by
  have htable : ∀ j : Fin 4, tableB[2 * j.val] = ⟨2 * (j + 1).val + 1, by omega⟩
      ∧ tableB[2 * j.val + 1] = ⟨2 * (j + 2).val, by omega⟩ := by decide
  exact nth_perm_eq_shifts a (htable j).left (htable j).right

/-- Settles O53: the entries of table A rotate the half-words by 5, which pairs them into words by two shifts. -/
theorem permutationAIsARotation : Obligations.PermutationAIsARotation :=
  ⟨half_permA, nth_permA, by decide⟩

/-- Settles O54: the entries of table B rotate the half-words by 3, which pairs them into words by two shifts. -/
theorem permutationBIsARotation : Obligations.PermutationBIsARotation :=
  ⟨half_permB, nth_permB, by decide⟩

end Sys2Proof.Machine
end

section
/-! PROOFS. The permutations, counter and diffusion shuffle of the physical variants against the logical ones
(41_engine_variants.md R173). -/
namespace Sys2Proof.Machine

theorem nth_zipWith {α β γ : Type} (f : α → β → γ) (a : Quad α) (b : Quad β) (j : Fin 4) :
    (Quad.zipWith f a b).nth j = f (a.nth j) (b.nth j) := by
  fin_cases j <;> rfl

-- V256 (R162 to R164)

/-- A gather by an index vector that spells out a table is the permutation by that table (R162). -/
theorem vperm32_pack256 (a : DoubleLane) {idx : BitVec 256} {t : PermTable}
    (hidx : ∀ i : Fin 8, (elem256 idx i.val).toNat % 8 = t[i.val].val) :
    vperm32 (pack256 a) idx = pack256 (perm a t) := by
  simp only [vperm32, hidx, elem256_pack256, join256_eq_pack256]
  rfl

/-- `IDX_A` spells out table A, and `IDX_B` table B. -/
theorem permsAgreeV256_all (a : DoubleLane) : permsAgreeV256 a :=
  ⟨vperm32_pack256 a (by decide), vperm32_pack256 a (by decide)⟩

theorem layoutV256_eq (g : GenState) :
    layoutV256 g = ⟨#v[pack256 g.s.e0, pack256 g.s.e1, pack256 g.s.e2, pack256 g.s.e3],
      #v[pack256 g.o.e0, pack256 g.o.e1, pack256 g.o.e2, pack256 g.o.e3], pack256 g.c⟩ := rfl

theorem add256_pack256 (a b : DoubleLane) : add256 (pack256 a) (pack256 b) = pack256 (wadd a b) :=
  lanes256_pack256 _ a b

/-- Injection on named registers; stated apart from the layout, whose packed registers are dear to unfold. -/
theorem injectV256_mk (s0 s1 s2 s3 pc : BitVec 256) (po : Vector (BitVec 256) 4) :
    injectV256 ⟨#v[s0, s1, s2, s3], po, pc⟩ = ⟨#v[s0, add256 s1 pc, s2, add256 s3 pc], po, pc⟩ := rfl

theorem injectV256_layoutV256 (g : GenState) :
    injectV256 (layoutV256 g) = layoutV256 { g with s := injectCounter g.s g.c } := by
  rw [layoutV256_eq, injectV256_mk, add256_pack256, add256_pack256]
  rfl

theorem advanceV256_layoutV256 (g : GenState) :
    advanceV256 (layoutV256 g) = layoutV256 { g with c := advanceCounter g.c } := by
  rw [layoutV256_eq, advanceV256, pinc256, add256_pack256]
  rfl

theorem shuffleV256_layoutV256 (g : GenState) :
    shuffleV256 (layoutV256 g) = layoutV256 { g with s := lshuf g.o } := by
  simp only [shuffleV256, layoutV256, nth_lshuf, Vector.getElem_ofFn]

theorem reindexingsCommuteV256_all (g : GenState) : reindexingsCommuteV256 g :=
  ⟨injectV256_layoutV256 g, advanceV256_layoutV256 g, shuffleV256_layoutV256 g⟩

-- V128 (R165 to R168)

theorem half128_zero (a : DoubleLane) : half128 a 0 = a.nth 1 ++ a.nth 0 := rfl

theorem half128_one (a : DoubleLane) : half128 a 1 = a.nth 3 ++ a.nth 2 := rfl

/-- The alignments by 4 bytes pair the half-words into words as `PERM_A` does (R166). -/
theorem permA128_half128 (a : DoubleLane) :
    permA128 (half128 a 0) (half128 a 1) = (half128 (permA a) 0, half128 (permA a) 1) := by
  simp only [permA128, half128_zero, half128_one, alignr_four, nth_permA]
  rfl

/-- The alignments by 12 bytes pair the half-words into words as `PERM_B` does (R167). -/
theorem permB128_half128 (a : DoubleLane) :
    permB128 (half128 a 0) (half128 a 1) = (half128 (permB a) 0, half128 (permB a) 1) := by
  simp only [permB128, half128_zero, half128_one, alignr_twelve, nth_permB]
  rfl

theorem layoutV128_eq (g : GenState) :
    layoutV128 g = ⟨#v[half128 g.s.e0 0, half128 g.s.e0 1, half128 g.s.e1 0, half128 g.s.e1 1,
        half128 g.s.e2 0, half128 g.s.e2 1, half128 g.s.e3 0, half128 g.s.e3 1],
      #v[half128 g.o.e0 0, half128 g.o.e0 1, half128 g.o.e1 0, half128 g.o.e1 1,
        half128 g.o.e2 0, half128 g.o.e2 1, half128 g.o.e3 0, half128 g.o.e3 1],
      #v[half128 g.c 0, half128 g.c 1]⟩ := rfl

/-- An element-wise operation on like halves is that half of the operation word by word. -/
theorem lanes128_half128 (f : Word → Word → Word) (a b : DoubleLane) (q : Nat) :
    lanes128 f (half128 a q) (half128 b q) = half128 (Quad.zipWith f a b) q := by
  unfold half128
  split <;> exact lanes128_append f _ _ _ _

theorem add128_half128 (a b : DoubleLane) (q : Nat) :
    add128 (half128 a q) (half128 b q) = half128 (wadd a b) q := lanes128_half128 _ a b q

theorem injectV128_mk (s0 s1 s2 s3 s4 s5 s6 s7 c0 c1 : BitVec 128) (po : Vector (BitVec 128) 8) :
    injectV128 ⟨#v[s0, s1, s2, s3, s4, s5, s6, s7], po, #v[c0, c1]⟩
      = ⟨#v[s0, s1, add128 s2 c0, add128 s3 c1, s4, s5, add128 s6 c0, add128 s7 c1], po, #v[c0, c1]⟩ := rfl

theorem advanceV128_mk (ps po : Vector (BitVec 128) 8) (c0 c1 : BitVec 128) :
    advanceV128 ⟨ps, po, #v[c0, c1]⟩ = ⟨ps, po, #v[add128 c0 (half128 inc 0), add128 c1 (half128 inc 1)]⟩ := rfl

theorem injectV128_layoutV128 (g : GenState) :
    injectV128 (layoutV128 g) = layoutV128 { g with s := injectCounter g.s g.c } := by
  rw [layoutV128_eq, injectV128_mk, add128_half128 g.s.e1 _ 0, add128_half128 g.s.e1 _ 1, add128_half128 g.s.e3 _ 0,
    add128_half128 g.s.e3 _ 1]
  rfl

theorem advanceV128_layoutV128 (g : GenState) :
    advanceV128 (layoutV128 g) = layoutV128 { g with c := advanceCounter g.c } := by
  rw [layoutV128_eq, advanceV128_mk, add128_half128, add128_half128]
  rfl

theorem shuffleV128_layoutV128 (g : GenState) :
    shuffleV128 (layoutV128 g) = layoutV128 { g with s := lshuf g.o } := by
  have hlane : ∀ p : Nat, (2 * (3 - p / 2) + p % 2) / 2 = 3 - p / 2 := by omega
  have hhalf : ∀ p : Nat, (2 * (3 - p / 2) + p % 2) % 2 = p % 2 := by omega
  simp only [shuffleV128, layoutV128, nth_lshuf, Vector.getElem_ofFn, hlane, hhalf]

theorem reindexingsCommuteV128_all (g : GenState) : reindexingsCommuteV128 g :=
  ⟨injectV128_layoutV128 g, advanceV128_layoutV128 g, shuffleV128_layoutV128 g⟩

-- SCALAR (R169 to R171)

/-- The recombination of R169 joins one half-word to the next above it. -/
theorem low_or_high_shift (x y : BitVec 32) : (0#32 ++ x) ||| ((0#32 ++ y) <<< 32) = y ++ x := by
  have hwide : ∀ z : BitVec 32, 0#32 ++ z = z.setWidth 64 := fun z =>
    (BitVec.setWidth_eq_append (by decide)).symm
  rw [hwide, hwide, BitVec.or_comm, ← BitVec.setWidth_append_eq_shiftLeft_setWidth_or, BitVec.setWidth_eq]

/-- The generic form is the gather by its table (R169, R123). -/
theorem permScalar_wordsScalar (a : DoubleLane) (t : PermTable) :
    permScalar (wordsScalar a) t = wordsScalar (perm a t) := by
  simp only [permScalar, halfScalar_wordsScalar, low_or_high_shift]
  simp only [wordsScalar, perm, nth_ofFn]

theorem permSpecialised_two (a : DoubleLane) : permSpecialised (wordsScalar a) 2 = wordsScalar (permA a) := by
  simp only [permSpecialised, wordsScalar, Vector.getElem_ofFn, nth_permA]
  rfl

theorem permSpecialised_one (a : DoubleLane) : permSpecialised (wordsScalar a) 1 = wordsScalar (permB a) := by
  simp only [permSpecialised, wordsScalar, Vector.getElem_ofFn, nth_permB]
  rfl

theorem permsAgreeScalar_all (g : GenState) (k : Fin 4) : permsAgreeScalar g k := by
  simp only [permsAgreeScalar, laneScalar_layoutScalar]
  exact ⟨permScalar_wordsScalar _ _, permScalar_wordsScalar _ _, permSpecialised_two _, permSpecialised_one _⟩

theorem zipScalar_wordsScalar (f : Word → Word → Word) (a b : DoubleLane) :
    zipScalar f (wordsScalar a) (wordsScalar b) = wordsScalar (Quad.zipWith f a b) := by
  simp only [zipScalar, wordsScalar, Fin.getElem_fin, Vector.getElem_ofFn, nth_zipWith]

theorem layoutScalar_ps (g : GenState) :
    (layoutScalar g).ps = joinScalar (wordsScalar g.s.e0) (wordsScalar g.s.e1) (wordsScalar g.s.e2)
      (wordsScalar g.s.e3) := rfl

theorem layoutScalar_pc (g : GenState) : (layoutScalar g).pc = wordsScalar g.c := rfl

theorem injectScalar_layoutScalar (g : GenState) :
    injectScalar (layoutScalar g) = layoutScalar { g with s := injectCounter g.s g.c } := by
  have hps : (injectScalar (layoutScalar g)).ps = (layoutScalar { g with s := injectCounter g.s g.c }).ps := by
    rw [layoutScalar_ps]
    simp only [injectScalar, laneScalar_layoutScalar, layoutScalar_pc, zipScalar_wordsScalar]
    rfl
  exact congrArg (fun ps => { layoutScalar g with ps := ps }) hps

theorem advanceScalar_layoutScalar (g : GenState) :
    advanceScalar (layoutScalar g) = layoutScalar { g with c := advanceCounter g.c } :=
  congrArg (fun pc => { layoutScalar g with pc := pc }) (zipScalar_wordsScalar _ g.c inc)

theorem shuffleScalar_layoutScalar (g : GenState) :
    shuffleScalar (layoutScalar g) = layoutScalar { g with s := lshuf g.o } := by
  have hlane : ∀ p : Nat, (4 * (3 - p / 4) + p % 4) / 4 = 3 - p / 4 := by omega
  have hword : ∀ p : Nat, (4 * (3 - p / 4) + p % 4) % 4 = p % 4 := by omega
  simp only [shuffleScalar, layoutScalar, nth_lshuf, Vector.getElem_ofFn, hlane, hword]

theorem reindexingsCommuteScalar_all (g : GenState) : reindexingsCommuteScalar g :=
  ⟨injectScalar_layoutScalar g, advanceScalar_layoutScalar g, shuffleScalar_layoutScalar g⟩

/-- Settles O59: each permutation pairs the half-words as the tables say, and each reindexing moves whole double-lanes
or adds word by word, which the layouts keep. -/
theorem variantPermutationsAgree : Obligations.VariantPermutationsAgree := by
  refine ⟨fun a => ⟨⟨permA128_half128 a, permB128_half128 a⟩, permsAgreeV256_all a, permSpecialised_two a,
    permSpecialised_one a⟩, permsAgreeScalar_all, fun g => ?_⟩
  exact ⟨reindexingsCommuteV256_all g, reindexingsCommuteV128_all g, reindexingsCommuteScalar_all g⟩

end Sys2Proof.Machine
end

section
/-! PROOFS. The shape check of `GEN` and `SKIP` (42_generate.md R204). -/
namespace Sys2Proof.Machine

variable {s : State}

theorem exec_gen_of_idle (hidle : s.busy = false) : exec .gen s = acceptGen (s.withOvr false) :=
  accept_idle acceptGen hidle

theorem exec_skip_of_idle (hidle : s.busy = false) : exec .skip s = acceptSkip (s.withOvr false) :=
  accept_idle acceptSkip hidle

/-- Both causes of R204 end the handling of a `GEN` that finds a state. -/
theorem acceptGen_of_misshaped (hvalid : s.stateValid = true)
    (hshape : lenMisshaped s = true ∨ bufMisshaped s = true) : acceptGen s = raise s .shape := by
  rcases hshape with hlen | hbuf
  · simp [acceptGen, hvalid, hlen]
  · simp [acceptGen, hvalid, hbuf]

/-- A `SKIP` that finds a state is held to the length alone; `BUF_LEN` does not matter (R204). -/
theorem acceptSkip_of_misshaped (hvalid : s.stateValid = true) (hlen : lenMisshaped s = true) :
    acceptSkip s = raise s .shape := by
  simp [acceptSkip, hvalid, hlen]

theorem exec_gen_of_misshaped (hidle : s.busy = false) (hvalid : s.stateValid = true)
    (hshape : s.len.toNat % 128 ≠ 0 ∨ s.bufLen ≠ s.len) :
    exec .gen s = .next ((s.withOvr false).withErr .shape) := by
  rw [← lenMisshaped_iff, ← bufMisshaped_iff] at hshape
  rw [exec_gen_of_idle hidle]
  exact acceptGen_of_misshaped (s := s.withOvr false) hvalid hshape

theorem exec_skip_of_misshaped (hidle : s.busy = false) (hvalid : s.stateValid = true)
    (hlen : s.len.toNat % 128 ≠ 0) : exec .skip s = .next ((s.withOvr false).withErr .shape) := by
  rw [exec_skip_of_idle hidle]
  exact acceptSkip_of_misshaped (s := s.withOvr false) hvalid ((lenMisshaped_iff s).mpr hlen)

/-- Settles O12: each cause of R204 fails its check at acceptance, and each example shows one of the causes. -/
theorem shapeIsChecked : Obligations.ShapeIsChecked := by
  intro s hidle hvalid
  refine ⟨fun hlen => ⟨exec_gen_of_misshaped hidle hvalid (.inl hlen), exec_skip_of_misshaped hidle hvalid hlen⟩,
    fun hbuf => exec_gen_of_misshaped hidle hvalid (.inr hbuf), fun hlen => ?_, fun hbuf hlen => ?_⟩
  · exact exec_gen_of_misshaped hidle hvalid (.inl (by rw [hlen]; decide))
  · exact exec_gen_of_misshaped hidle hvalid (.inr (by rw [hbuf, hlen]; decide))

end Sys2Proof.Machine
end

section
/-! PROOFS. What the completion of a `GEN` leaves in destination memory (42_generate.md R201, 20_memory.md R62, R63). -/
namespace Sys2Proof.Machine

variable {s : State} {nblk : Nat} {dst : Word} {g : GenState}

/-- A `GEN` in flight whose bytes all exist completes at the engine's turn (60_exceptions.md R289). -/
theorem engineTurn_of_gen (hlatch : s.latch = some (.gen nblk dst)) (hgen : s.gen = some g)
    (hexists : rangeExists s.cfg dst.toNat (blockBytes * nblk) = true) :
    engineTurn s = .next (completeGen nblk dst g s) := by
  simp [engineTurn, engineEnabled, complete, hlatch, hgen, hexists]

/-- A byte of block b that no other agent wrote meanwhile is that byte of the pending output after b rounds. -/
theorem memRead_completeGen_of_untouched {b x : Nat} (hb : b < nblk) (hx : x < 128)
    (huntouched : dst.toNat + 128 * b + x ∉ s.touched) :
    memRead (completeGen nblk dst g s).mem (dst.toNat + 128 * b + x) = (blockBytesOf (rounds b g).o)[x]? := by
  rw [completeGen_mem, memRead_scrambleEach_outside _ _ _ _ huntouched, genBlocks_read _ _ _ _ _ _ hb hx]

/-- Settles O22: the turn is the completion, which leaves each untouched byte as the run of blocks wrote it, and the
layout of a block places byte i of word j of double-lane k at offset 32k + 8j + i. -/
theorem genCompletionWritesTheStream : Obligations.GenCompletionWritesTheStream := by
  intro s nblk dst g hlatch hgen hexists
  refine ⟨_, engineTurn_of_gen hlatch hgen hexists, completeGen_busy .., completeGen_gen .., ?_⟩
  intro b k j i hb huntouched
  have haddr : dst.toNat + 128 * b + 32 * k.val + 8 * j.val + i.val
      = dst.toNat + 128 * b + (32 * k.val + 8 * j.val + i.val) := by omega
  rw [haddr] at huntouched ⊢
  rw [memRead_completeGen_of_untouched hb (by omega) huntouched, blockBytes_get]

end Sys2Proof.Machine
end

section
/-! PROOFS. The control commands `NOP` and `SELECT` (44_control_commands.md R260, R261). -/
namespace Sys2Proof.Machine

variable {s : State} {v : Variant}

/-- `NOP` is the only legal word with `OP` 0: any other has a reserved bit set or a nonzero `ENG` (R95, R260). -/
theorem decode_error_of_op_zero {w : Word} (hop : fieldOp w = 0x00#8) (hne : w ≠ 0#64) : ∃ e, decode w = .error e := by
  rw [decode_error_iff]
  rcases ne_or_eq (fieldReserved w) 0#54 with hres | hres
  · exact .inr (.inl hres)
  · have heng : fieldEng w ≠ 0#2 := fun heng => hne ((word_eq_setWidth_iff 0x00#8).mpr ⟨hres, heng, hop⟩)
    exact .inr (.inr (.inl ⟨heng, by rw [hop]; decide⟩))

theorem exec_nop_of_busy (hbusy : s.busy = true) : exec .nop s = .next (s.withOvr true) :=
  accept_busy (fun t => .next (t.withErr .ok)) hbusy

theorem exec_nop_of_idle (hidle : s.busy = false) : exec .nop s = .next ((s.withOvr false).withErr .ok) :=
  accept_idle (fun t => .next (t.withErr .ok)) hidle

/-- `BUSY` is bit 0 of `STATUS` (10_state.md R34). -/
theorem statusWord_getLsbD_busy (s : State) : (statusWord s).getLsbD 0 = s.busy := by
  rw [statusWord, BitVec.getLsbD_append]
  simp

/-- `VALID` is bit 1 of `STATUS` (10_state.md R34). -/
theorem statusWord_getLsbD_valid (s : State) : (statusWord s).getLsbD 1 = s.stateValid := by
  rw [statusWord, BitVec.getLsbD_append, BitVec.getLsbD_append]
  simp

/-- `ENGINE` is bits 9:8 of `STATUS` (10_state.md R34). -/
theorem statusWord_extract_engine (s : State) : (statusWord s).extractLsb' 8 2 = s.engine.id := by
  rw [statusWord]
  iterate 5 rw [BitVec.extractLsb'_append_eq_of_le (by decide)]
  exact BitVec.extractLsb'_append_eq_right

/-- Settles O8: acceptance either drops `NOP` or clears `OVR` and `ERR`, and `STATUS` 0x34 shows an idle engine with no
state and variant 0. -/
theorem nopCompletes : Obligations.NopCompletes := by
  refine ⟨rfl, fun w => decode_error_of_op_zero, fun s hidle => ⟨exec_nop_of_idle hidle, hidle⟩,
    fun s => exec_nop_of_busy, fun s hstatus => ?_⟩
  have hbusy : s.busy = false := by rw [← statusWord_getLsbD_busy, hstatus]; decide
  have hvalid : s.stateValid = false := by rw [← statusWord_getLsbD_valid, hstatus]; decide
  have hengine : s.engine.id = 0#2 := by rw [← statusWord_extract_engine, hstatus]; decide
  refine ⟨_, exec_nop_of_idle hbusy, ?_⟩
  simp [statusWord, ErrCode.code, hbusy, hvalid, hengine]

/-- The identifier of a variant that exists reaches `AcceptSelect` with that variant (R261). -/
theorem exec_select_of_idle (hidle : s.busy = false) (v : Variant) :
    exec (.select v.id) s = acceptSelect (s.withOvr false) v := by
  rw [exec, execSelect, accept_idle _ hidle, ofId?_id]

theorem exec_select_of_supported (hidle : s.busy = false) (hbuilt : supported s.cfg.capMask v = true) :
    exec (.select v.id) s = .next ((((s.withOvr false).withEngine v).withGen none).withErr .ok) := by
  rw [exec_select_of_idle hidle, acceptSelect, withOvr_cfg, if_pos hbuilt]

theorem exec_select_of_not_supported (hidle : s.busy = false) (hmissing : supported s.cfg.capMask v = false) :
    exec (.select v.id) s = .next ((s.withOvr false).withErr .cap) := by
  rw [exec_select_of_idle hidle, acceptSelect, withOvr_cfg, if_neg (by simp [hmissing]), raise]

/-- Settles O9: `SELECT` of a variant has two outcomes, by its bit in `CAP_MASK`, and each example of R261 shows one. -/
theorem selectCompletes : Obligations.SelectCompletes := by
  refine ⟨by decide, by decide, by decide, ⟨.reservedVariant, by decide⟩,
    fun s v hidle hbuilt => ⟨exec_select_of_supported hidle hbuilt, rfl, hidle⟩,
    fun s v hidle hmissing => exec_select_of_not_supported hidle hmissing, fun s hidle hmask => ?_, fun s hidle hmask => ?_⟩
  · have hmissing : supported s.cfg.capMask .v256 = false := by rw [hmask]; decide
    exact ⟨_, exec_select_of_not_supported hidle hmissing, rfl, rfl⟩
  · have hbuilt : supported s.cfg.capMask .v256 = true := by rw [hmask]; decide
    exact ⟨_, exec_select_of_supported hidle hbuilt, rfl, rfl, rfl⟩

end Sys2Proof.Machine
end

section
/-! PROOFS. What acceptance drops, what it rejects, and that no error arises after it (60_exceptions.md R280, R285,
R287). -/
namespace Sys2Proof.Machine

variable {s t : State}

/-- A busy engine drops every command (R287). -/
theorem exec_of_busy (hbusy : s.busy = true) (i : Instr) : exec i s = .next (s.withOvr true) := by
  cases i with
  | nop => exact exec_nop_of_busy hbusy
  | init => rw [exec, execInit, accept_busy _ hbusy]
  | gen => exact accept_busy acceptGen hbusy
  | skip => exact accept_busy acceptSkip hbusy
  | select eng => rw [exec, execSelect, accept_busy _ hbusy]

/-- A busy engine drops every word written to `CMD`, legal or not (R287). -/
theorem cmdWrite_of_busy (hbusy : s.busy = true) (v : Word) : cmdWrite v s = .next (s.withOvr true) := by
  unfold cmdWrite
  split
  · exact exec_of_busy hbusy _
  · exact accept_busy _ hbusy

/-- Each kind of long command in flight carries `ERR_OK` in the invariant (R287). -/
theorem err_eq_ok_of_latchInv (hbusy : s.busy = true) (hlatch : latchInv s) : s.err = .ok := by
  unfold latchInv at hlatch
  split at hlatch
  · next hnone => simp [State.busy, hnone] at hbusy
  · exact hlatch.left
  · exact hlatch.left
  · exact hlatch.left

/-- Settles O7: every command and every illegal word goes through acceptance, which drops it while busy. -/
theorem commandWhileBusyIsDropped : Obligations.CommandWhileBusyIsDropped := by
  refine fun s hbusy => ⟨cmdWrite_of_busy hbusy, exec_of_busy hbusy, ?_⟩
  rintro ⟨-, -, -, -, hlatch⟩
  exact err_eq_ok_of_latchInv hbusy hlatch

/-- The first check of `GEN` is for a state (R285, R288). -/
theorem acceptGen_of_noState (hnone : s.stateValid = false) : acceptGen s = raise s .noState := by
  simp [acceptGen, hnone]

/-- The first check of `SKIP` is for a state (R285, R288). -/
theorem acceptSkip_of_noState (hnone : s.stateValid = false) : acceptSkip s = raise s .noState := by
  simp [acceptSkip, hnone]

theorem exec_gen_of_noState (hidle : s.busy = false) (hnone : s.stateValid = false) :
    exec .gen s = .next ((s.withOvr false).withErr .noState) := by
  rw [exec_gen_of_idle hidle]
  exact acceptGen_of_noState (s := s.withOvr false) hnone

theorem exec_skip_of_noState (hidle : s.busy = false) (hnone : s.stateValid = false) :
    exec .skip s = .next ((s.withOvr false).withErr .noState) := by
  rw [exec_skip_of_idle hidle]
  exact acceptSkip_of_noState (s := s.withOvr false) hnone

/-- A `SELECT` that reports `ERR_OK` is an accepted one, which drops the state (44_control_commands.md R261). -/
theorem stateValid_of_exec_select_ok {v : Variant} (hidle : s.busy = false) (h : exec (.select v.id) s = .next t)
    (hok : t.err = .ok) : t.stateValid = false := by
  rw [exec_select_of_idle hidle] at h
  rcases acceptSelect_next h with ⟨-, rfl⟩ | ⟨-, rfl⟩
  · rfl
  · cases hok

/-- A `GEN` or `SKIP` completes on a state it found, so only `INIT` makes one where there was none (R285). -/
theorem latch_init_of_engineTurn_makes_state (h : engineTurn s = .next t) (hbefore : s.stateValid = false)
    (hafter : t.stateValid = true) : ∃ seed, s.latch = some (.init seed) := by
  have hgen : s.gen = none := by simpa [State.stateValid] using hbefore
  have hchanged : t ≠ s := by
    rintro rfl
    simp [hbefore] at hafter
  rcases engineTurn_next h with ⟨-, h⟩ | ⟨-, ht⟩
  · rcases complete_next h with ⟨-, ht⟩ | ⟨seed, hlatch, -⟩ | ⟨_, _, _, -, hsome, -⟩ | ⟨_, _, -, hsome, -⟩
    · exact absurd ht hchanged
    · exact ⟨seed, hlatch⟩
    · simp [hgen] at hsome
    · simp [hgen] at hsome
  · exact absurd ht hchanged

/-- Settles O14: the check for a state comes first, reset and an accepted `SELECT` leave none, and of the completions only
that of `INIT` needs none. -/
theorem noStateIsChecked : Obligations.NoStateIsChecked :=
  ⟨fun _ hidle hnone => ⟨exec_gen_of_noState hidle hnone, exec_skip_of_noState hidle hnone⟩,
    applyReset_stateValid, fun _ _ _ => stateValid_of_exec_select_ok, fun _ _ => latch_init_of_engineTurn_makes_state⟩

/-- Of what a `CMD` write to an idle engine can do, only reporting a code leaves one other than `ERR_OK` (R280). -/
theorem cmdWrite_rejected {v : Word} (hidle : s.busy = false) (h : cmdWrite v s = .next t) (hrejected : t.err ≠ .ok) :
    t = (s.withOvr false).withErr t.err := by
  rcases cmdWrite_cases h with ⟨hbusy, -⟩ | ⟨-, code, rfl⟩ | ⟨-, l, rfl, -⟩ | ⟨-, w, -, -, rfl⟩
  · simp [hidle] at hbusy
  · rfl
  · exact absurd rfl hrejected
  · exact absurd rfl hrejected

/-- A completion reports nothing: every error was found at acceptance (R280, 42_generate.md R206). -/
theorem complete_keeps_err_ovr (h : complete s = .next t) : t.err = s.err ∧ t.ovr = s.ovr := by
  rcases complete_next h with ⟨-, rfl⟩ | ⟨seed, -, rfl⟩ | ⟨nblk, dst, g, -, -, rfl⟩ | ⟨nblk, g, -, -, rfl⟩
  · exact ⟨rfl, rfl⟩
  · exact ⟨completeInit_err .., completeInit_ovr ..⟩
  · exact ⟨completeGen_err .., completeGen_ovr ..⟩
  · exact ⟨completeSkip_err .., completeSkip_ovr ..⟩

theorem engineTurn_keeps_err_ovr (h : engineTurn s = .next t) : t.err = s.err ∧ t.ovr = s.ovr := by
  rcases engineTurn_next h with ⟨-, h⟩ | ⟨-, rfl⟩
  · exact complete_keeps_err_ovr h
  · exact ⟨rfl, rfl⟩

theorem agentStore_keeps_err_ovr {who : Agent} {a : Nat} {b : Byte} (h : agentStore s who a b = .next t) :
    t.err = s.err ∧ t.ovr = s.ovr := by
  rcases agentStore_next h with ⟨-, ⟨-, rfl⟩ | ⟨-, ⟨-, rfl⟩ | ⟨-, rfl⟩⟩⟩ | ⟨-, -, rfl⟩ <;> exact ⟨rfl, rfl⟩

theorem agentLoad_keeps_err_ovr {who : Agent} {a n : Nat} (h : agentLoad s who a n = .next t) :
    t.err = s.err ∧ t.ovr = s.ovr := by
  obtain ⟨-, rfl⟩ := agentLoad_next h
  exact ⟨rfl, rfl⟩

/-- Settles O16: a code other than `ERR_OK` comes from `raise` alone, and no operation of the engine's turn or of another
agent's writes `ERR` or `OVR`. -/
theorem rejectedCommandChangesNothingElse : Obligations.RejectedCommandChangesNothingElse := by
  refine ⟨fun s t v => cmdWrite_rejected, fun s t u hnotHost hnotReset h => ?_⟩
  rcases takeTurn_next h with ⟨k, hu, -⟩ | ⟨-, h⟩ | ⟨hu, -⟩ | ⟨a, b, -, h⟩ | ⟨a, n, -, h⟩
  · exact absurd hu (hnotHost k)
  · exact engineTurn_keeps_err_ovr h
  · exact absurd hu hnotReset
  · exact agentStore_keeps_err_ovr h
  · exact agentLoad_keeps_err_ovr h

end Sys2Proof.Machine
end

section
/-! PROOFS. Reset (70_reset_and_hazards.md section 1). -/
namespace Sys2Proof.Machine

variable {s : State} {mask : BitVec 3}

/-- A mask that supports none of the three variants is 0 (00_scope.md R7). -/
theorem mask_eq_zero_of_unsupported (hmask : ∀ v : Variant, supported mask v = false) : mask = 0#3 := by
  refine BitVec.eq_of_getLsbD_eq fun i hi => ?_
  rw [BitVec.getLsbD_zero]
  match i, hi with
  | 0, _ => exact hmask .scalar
  | 1, _ => exact hmask .v128
  | 2, _ => exact hmask .v256

theorem supported_lowestVariant (hne : mask ≠ 0#3) : supported mask (lowestVariant mask) = true := by
  unfold lowestVariant
  split_ifs with hscalar hv128 hv256
  · exact hscalar
  · exact hv128
  · exact hv256
  · refine absurd (mask_eq_zero_of_unsupported fun v => ?_) hne
    cases v
    case scalar => exact eq_false_of_ne_true hscalar
    case v128 => exact eq_false_of_ne_true hv128
    case v256 => exact eq_false_of_ne_true hv256

/-- No supported variant is below the lowest one. -/
theorem lowestVariant_id_le {v : Variant} (hv : supported mask v = true) :
    (lowestVariant mask).id.toNat ≤ v.id.toNat := by
  unfold lowestVariant
  split_ifs with hscalar hv128 hv256
  · exact Nat.zero_le _
  · cases v
    case scalar => exact absurd hv hscalar
    case v128 | v256 => decide
  · cases v
    case scalar => exact absurd hv hscalar
    case v128 => exact absurd hv hv128
    case v256 => exact Nat.le_refl _
  · exact Nat.zero_le _

/-- After reset every offset but those of `STATUS` and `CAP` reads 0 (10_state.md R43). -/
theorem readReg_applyReset (s : State) {off : BitVec 8} (hstatus : off ≠ 0x08#8) :
    readReg (applyReset s) off = if off = 0x10#8 then s.cfg.capMask.setWidth 64 else 0#64 := by
  simp [readReg, hstatus, capWord, Quad.replicate]

/-- The step of a nonempty schedule is its first turn, taken on the state without that turn. -/
theorem step_of_sched {u : Turn} {q : List Turn} (hsched : s.sched = u :: q) : step s = takeTurn u (s.withSched q) := by
  simp [step, nextTurn, hsched]

/-- Settles O31: the step is `applyReset` on any state; the operand registers it sets read 0, and the variant it sets is
supported and the least such. -/
theorem resetTakesOneStep : Obligations.ResetTakesOneStep := fun s q hsched =>
  ⟨applyReset (s.withSched q), step_of_sched hsched, rfl, rfl, rfl, rfl,
    fun _ hstatus => readReg_applyReset (s.withSched q) hstatus,
    fun hne => ⟨supported_lowestVariant hne, fun _ hv => lowestVariant_id_le hv⟩, rfl, rfl, rfl⟩

end Sys2Proof.Machine
end

section
/-! PROOFS. Decoding and encoding are inverse (30_encoding.md R90 to R96). -/
namespace Sys2Proof.Machine

/-- The field `OP` of a command's word (R94). -/
def opOf : Instr → BitVec 8
  | .nop => 0x00#8
  | .init => 0x01#8
  | .gen => 0x02#8
  | .skip => 0x03#8
  | .select _ => 0x04#8

/-- The field `ENG` of a command's word (R92). -/
def engOf : Instr → BitVec 2
  | .select eng => eng
  | _ => 0#2

/-- The encoding of a command, by its fields (R94). -/
theorem encode_fields (i : Instr) :
    fieldReserved (encode i) = 0#54 ∧ fieldEng (encode i) = engOf i ∧ fieldOp (encode i) = opOf i := by
  cases i with
  | nop => decide
  | init => decide
  | gen => decide
  | skip => decide
  | select eng => revert eng; decide

/-- A word decodes to a command when its fields are those of the command and the command is well formed (R95, R96). -/
theorem decode_eq_ok_iff {v : Word} {i : Instr} :
    decode v = .ok i ↔
      (fieldReserved v = 0#54 ∧ fieldEng v = engOf i ∧ fieldOp v = opOf i) ∧ i.wellFormed = true := by
  constructor
  · intro h
    unfold decode at h
    split_ifs at h with hres hsel hrsv heng hnop hinit hgen hskip <;> cases h <;>
      simp_all [engOf, opOf, Instr.wellFormed]
  · rintro ⟨⟨hres, heng, hop⟩, hwf⟩
    cases i with
    | select eng => simp_all [decode, engOf, opOf, Instr.wellFormed]
    | nop | init | gen | skip => simp [decode, hres, heng, hop, engOf, opOf]

/-- Settles O2: the fields of an encoding are those of its command, and the decoder goes by the fields. -/
theorem decodeOfEncode : Obligations.DecodeOfEncode :=
  fun i hwf => decode_eq_ok_iff.mpr ⟨encode_fields i, hwf⟩

/-- Settles O3: a decoded word has the fields of its command's encoding, and the fields make the word. -/
theorem encodeOfDecode : Obligations.EncodeOfDecode := by
  intro v i h
  obtain ⟨⟨hres, heng, hop⟩, hwf⟩ := decode_eq_ok_iff.mp h
  obtain ⟨hres', heng', hop'⟩ := encode_fields i
  exact ⟨hwf, word_eq_iff_fields.mpr ⟨hres'.trans hres.symm, heng'.trans heng.symm, hop'.trans hop.symm⟩⟩

/-- Settles O1: fourteen closed words, each decoded. -/
theorem specWordsDecode : Obligations.SpecWordsDecode := by
  unfold Obligations.SpecWordsDecode
  decide

end Sys2Proof.Machine
end

section
/-! PROOFS. What one step of the machine can do to the engine and to destination memory, said once for every turn of every
agent; the whole-machine rules are derived from it. -/
namespace Sys2Proof.Machine

variable {s t : State} {q : List Turn} {l : List HostAgent} {who : Agent} {a n k : Nat} {b : Byte}

/-- The next turn is a write of that byte by a host or another agent. -/
def WritesByte (s : State) (a : Nat) (b : Byte) : Prop :=
  (nextTurn s).1 = .otherWrite a b ∨ ∃ h p, (nextTurn s).1 = .host h ∧ (s.host h).prog = .storeMem a b :: p

/-- The latch that the acceptance of a long command leaves, with the checks it passed (42_generate.md R200, R202). -/
def Latches (s : State) (x : Latch) : Prop :=
  x = initOperands s
    ∨ (s.stateValid = true ∧ lenMisshaped s = false ∧ outOfRange s = false ∧ s.len ≠ 0#64 ∧ x = genOperands s)
    ∨ (s.stateValid = true ∧ lenMisshaped s = false ∧ s.len ≠ 0#64 ∧ x = skipOperands s)

/-- Everything a step that answers a next state can do. The hosts, the schedule, the observations and the counter of free
values are left open where no rule below speaks of them. -/
inductive StepEffect (s : State) : State → Prop
  /-- A read, a fence, a bus error, a write that changes nothing, or a turn with nothing to do. -/
  | quiet (q : List Turn) (l : List HostAgent) (o : List Observation) (f : Nat) :
      StepEffect s ((((s.withSched q).withHosts l).withObserved o).withFresh f)
  | register (q : List Turn) (l : List HostAgent) (off : BitVec 8) (v : Word) :
      StepEffect s (writeReg ((s.withSched q).withHosts l) off v)
  | drops (q : List Turn) (l : List HostAgent) (hbusy : s.busy = true) :
      StepEffect s (((s.withSched q).withHosts l).withOvr true)
  | reports (q : List Turn) (l : List HostAgent) (code : ErrCode) (hidle : s.busy = false) :
      StepEffect s ((((s.withSched q).withHosts l).withOvr false).withErr code)
  | latches (q : List Turn) (l : List HostAgent) (x : Latch) (hidle : s.busy = false) (hx : Latches s x) :
      StepEffect s (((((s.withSched q).withHosts l).withOvr false).withErr .ok).withLatch (some x))
  | selects (q : List Turn) (l : List HostAgent) (h : Nat) (v : Word) (w : Variant) (hidle : s.busy = false)
      (hturn : (nextTurn s).1 = .host h) (hissues : issues s h v) (hdecode : decode v = .ok (.select w.id))
      (hbuilt : supported s.cfg.capMask w = true) :
      StepEffect s ((((((s.withSched q).withHosts l).withOvr false).withEngine w).withGen none).withErr .ok)
  | notes (q : List Turn) (l : List HostAgent) (a : Nat) (hexists : byteExists s.cfg a = true)
      (hflight : inFlight s a = true) :
      StepEffect s (((s.withSched q).withHosts l).withTouched (if a ∈ s.touched then s.touched else a :: s.touched))
  | stores (q : List Turn) (l : List HostAgent) (f a : Nat) (b c : Byte) (hwrites : WritesByte s a b)
      (hexists : byteExists s.cfg a = true) :
      StepEffect s ((((s.withSched q).withHosts l).withMem (memWrite s.mem a c)).withFresh f)
  | completes (q : List Turn) {t : State} (hturn : nextTurn s = (.engine, s.withSched q))
      (henabled : engineEnabled s = true) (hcomplete : complete (s.withSched q) = .next t) : StepEffect s t
  | resets (q : List Turn) (hturn : (nextTurn s).1 = .reset) : StepEffect s (applyReset (s.withSched q))

theorem agentStore_effect (hwrites : WritesByte s a b)
    (h : agentStore ((s.withSched q).withHosts l) who a b = .next t) : StepEffect s t := by
  rcases agentStore_next h with ⟨hexists, ⟨hflight, rfl⟩ | ⟨-, ⟨-, rfl⟩ | ⟨-, rfl⟩⟩⟩ | ⟨-, -, rfl⟩
  · exact .notes q l a hexists hflight
  · exact .stores q l _ a b _ hwrites hexists
  · exact .stores q l s.fresh a b b hwrites hexists
  · exact .quiet q l s.observed s.fresh

theorem agentLoad_effect (h : agentLoad ((s.withSched q).withHosts l) who a n = .next t) : StepEffect s t := by
  obtain ⟨-, rfl⟩ := agentLoad_next h
  exact .quiet q l _ _

theorem cmdWrite_effect {v : Word} (hturn : (nextTurn s).1 = .host k) (hissues : issues s k v)
    (h : cmdWrite v ((s.withSched q).withHosts l) = .next t) : StepEffect s t := by
  rcases cmdWrite_cases h with ⟨hbusy, rfl⟩ | ⟨hidle, code, rfl⟩ | ⟨hidle, x, rfl, hx⟩ | ⟨hidle, w, hdecode, hbuilt, rfl⟩
  · exact .drops q l hbusy
  · exact .reports q l code hidle
  · exact .latches q l x hidle hx
  · exact .selects q l k v w hidle hturn hissues hdecode hbuilt

theorem hostTurn_effect (hturn : (nextTurn s).1 = .host k) (h : hostTurn k (s.withSched q) = .next t) :
    StepEffect s t := by
  rcases hostTurn_next h with ⟨-, rfl⟩ | ⟨op, p, hprog, -, h⟩
  · exact .quiet q s.hosts s.observed s.fresh
  rcases hostOp_next h with ⟨addr, v, rfl, haddr, h⟩ | ⟨off, v, -, rfl⟩ | ⟨l, o, rfl⟩ | ⟨a, n, h⟩ | ⟨a, b, rfl, h⟩
  · exact cmdWrite_effect hturn ⟨addr, p, hprog, haddr⟩ h
  · exact .register q _ off v
  · exact .quiet q l o s.fresh
  · exact agentLoad_effect h
  · exact agentStore_effect (.inr ⟨k, p, hturn, hprog⟩) h

theorem step_effect (h : step s = .next t) : StepEffect s t := by
  obtain ⟨q, hq⟩ := nextTurn_state s
  rw [step, hq] at h
  rcases takeTurn_next h with ⟨k, hturn, h⟩ | ⟨hturn, h⟩ | ⟨hturn, rfl⟩ | ⟨a, b, hturn, h⟩ | ⟨a, n, -, h⟩
  · exact hostTurn_effect hturn h
  · rcases engineTurn_next h with ⟨henabled, h⟩ | ⟨-, rfl⟩
    · exact .completes q (Prod.ext hturn hq) henabled h
    · exact .quiet q s.hosts s.observed s.fresh
  · exact .resets q hturn
  · exact agentStore_effect (q := q) (l := s.hosts) (.inl hturn) h
  · exact agentLoad_effect (q := q) (l := s.hosts) h

/-- An enabled completion is that of the long command in flight. -/
theorem complete_of_enabled (henabled : engineEnabled s = true) (h : complete s = .next t) :
    (∃ seed, s.latch = some (.init seed) ∧ t = completeInit seed s)
      ∨ (∃ nblk dst g, s.latch = some (.gen nblk dst) ∧ rangeExists s.cfg dst.toNat (blockBytes * nblk) = true
          ∧ t = completeGen nblk dst g s)
      ∨ (∃ nblk g, s.latch = some (.skip nblk) ∧ t = completeSkip nblk g s) := by
  rcases complete_next h with ⟨hnone, -⟩ | ⟨seed, hlatch, ht⟩ | ⟨nblk, dst, g, hlatch, -, ht⟩ | ⟨nblk, g, hlatch, -, ht⟩
  · simp [engineEnabled, hnone] at henabled
  · exact .inl ⟨seed, hlatch, ht⟩
  · exact .inr (.inl ⟨nblk, dst, g, hlatch, by simpa [engineEnabled, hlatch] using henabled, ht⟩)
  · exact .inr (.inr ⟨nblk, g, hlatch, ht⟩)

/-- An enabled completion finds the engine busy and leaves it idle. -/
theorem busy_of_complete (henabled : engineEnabled s = true) (h : complete s = .next t) :
    s.busy = true ∧ t.busy = false := by
  rcases complete_of_enabled henabled h with ⟨seed, hlatch, rfl⟩ | ⟨nblk, dst, g, hlatch, -, rfl⟩ | ⟨nblk, g, hlatch, rfl⟩ <;>
    exact ⟨by simp [State.busy, hlatch], rfl⟩

/-- A completion leaves the parameters and `ENGINE` alone. -/
theorem complete_keeps_cfg_engine (h : complete s = .next t) : t.cfg = s.cfg ∧ t.engine = s.engine := by
  rcases complete_next h with ⟨-, rfl⟩ | ⟨seed, -, rfl⟩ | ⟨nblk, dst, g, -, -, rfl⟩ | ⟨nblk, g, -, -, rfl⟩ <;>
    exact ⟨rfl, rfl⟩

end Sys2Proof.Machine
end

section
/-! PROOFS. The invariant, and destination memory in canonical form, are kept by every step (10_state.md section 1,
20_memory.md sections 1 and 3). -/
namespace Sys2Proof.Machine

variable {s t : State}

/-- A well-formed length that is not 0 is a positive number of whole blocks (42_generate.md R203, R204). -/
theorem blocksOf_pos (hne : s.len ≠ 0#64) (hshape : lenMisshaped s = false) : 0 < blocksOf s.len := by
  have hpos : 0 < s.len.toNat := by
    rw [Nat.pos_iff_ne_zero]
    exact fun h => hne (BitVec.eq_of_toNat_eq h)
  have hmod : s.len.toNat % 128 = 0 := by simpa [lenMisshaped, blockBytes] using hshape
  simp only [blocksOf, blockBytes]
  omega

theorem blockBytes_mul_blocksOf (hshape : lenMisshaped s = false) : blockBytes * blocksOf s.len = s.len.toNat := by
  have hmod : s.len.toNat % 128 = 0 := by simpa [lenMisshaped, blockBytes] using hshape
  simp only [blocksOf, blockBytes]
  omega

theorem inFlight_congr (hlatch : t.latch = s.latch) (a : Nat) : inFlight t a = inFlight s a := by
  simp only [inFlight, flightStart, flightBytes, hlatch]

/-- The consistency of the command in flight depends on these fields alone. -/
theorem latchInv_congr (h : latchInv s) (hlatch : t.latch = s.latch) (herr : t.err = s.err)
    (hvalid : t.stateValid = s.stateValid) (hcfg : t.cfg = s.cfg) (htouched : t.touched = s.touched) : latchInv t := by
  simpa only [latchInv, inFlight_congr hlatch, hlatch, herr, hvalid, hcfg, htouched] using h

@[simp] theorem latchInv_withSched (q : List Turn) : latchInv (s.withSched q) ↔ latchInv s := Iff.rfl
@[simp] theorem latchInv_withHosts (l : List HostAgent) : latchInv (s.withHosts l) ↔ latchInv s := Iff.rfl
@[simp] theorem latchInv_withObserved (o : List Observation) : latchInv (s.withObserved o) ↔ latchInv s := Iff.rfl
@[simp] theorem latchInv_withFresh (f : Nat) : latchInv (s.withFresh f) ↔ latchInv s := Iff.rfl
@[simp] theorem latchInv_withOvr (x : Bool) : latchInv (s.withOvr x) ↔ latchInv s := Iff.rfl
@[simp] theorem latchInv_withMem (m : Memory) : latchInv (s.withMem m) ↔ latchInv s := Iff.rfl

theorem touched_of_idle (hidle : s.busy = false) (h : latchInv s) : s.touched = [] := by
  have hnone : s.latch = none := by simpa [State.busy] using hidle
  simpa [latchInv, hnone] using h

theorem latchInv_of_idle (hidle : s.busy = false) (htouched : s.touched = []) : latchInv s := by
  have hnone : s.latch = none := by simpa [State.busy] using hidle
  simpa [latchInv, hnone] using htouched

theorem latchInv_of_gen {nblk : Nat} {dst : Word} (hlatch : s.latch = some (.gen nblk dst)) (h : latchInv s) :
    s.err = .ok ∧ s.stateValid = true ∧ 0 < nblk ∧ dst.toNat + blockBytes * nblk ≤ 2 ^ s.cfg.paWidth
      ∧ ∀ a ∈ s.touched, inFlight s a = true ∧ byteExists s.cfg a = true := by
  simpa [latchInv, hlatch] using h

/-- Bytes are noted only while a `GEN` is in flight. -/
theorem latch_gen_of_inFlight {a : Nat} (h : inFlight s a = true) : ∃ nblk dst, s.latch = some (.gen nblk dst) := by
  rcases hlatch : s.latch with _ | _ | ⟨nblk, dst⟩ | _
  case some.gen => exact ⟨nblk, dst, rfl⟩
  all_goals simp [inFlight, inRegion, flightStart, flightBytes, hlatch] at h

/-- An accepted long command latches consistent operands (R203, R205, R285). -/
theorem latchInv_latched {x : Latch} (hx : Latches s x) (htouched : s.touched = []) :
    latchInv ((s.withErr .ok).withLatch (some x)) := by
  rcases hx with rfl | ⟨hvalid, hshape, hrange, hne, rfl⟩ | ⟨hvalid, hshape, hne, rfl⟩
  · exact ⟨rfl, htouched⟩
  · refine ⟨rfl, hvalid, blocksOf_pos hne hshape, ?_, ?_⟩
    · rw [blockBytes_mul_blocksOf hshape]
      simpa [outOfRange] using hrange
    · simp [htouched]
  · exact ⟨rfl, hvalid, blocksOf_pos hne hshape, htouched⟩

/-- Noting one more existing byte of the range in flight keeps the bookkeeping consistent (20_memory.md R68). -/
theorem latchInv_noted {a : Nat} (hexists : byteExists s.cfg a = true) (hflight : inFlight s a = true) (h : latchInv s) :
    latchInv (s.withTouched (if a ∈ s.touched then s.touched else a :: s.touched)) := by
  split
  · exact h
  · obtain ⟨nblk, dst, hlatch⟩ := latch_gen_of_inFlight hflight
    obtain ⟨herr, hvalid, hpos, hrange, hnoted⟩ := latchInv_of_gen hlatch h
    have hall : ∀ x ∈ a :: s.touched, inFlight s x = true ∧ byteExists s.cfg x = true :=
      List.forall_mem_cons.mpr ⟨⟨hflight, hexists⟩, hnoted⟩
    rw [latchInv, withTouched_latch, hlatch]
    exact ⟨herr, hvalid, hpos, hrange, hall⟩

theorem latchInv_of_complete (henabled : engineEnabled s = true) (h : latchInv s) (hcomplete : complete s = .next t) :
    latchInv t := by
  refine latchInv_of_idle (busy_of_complete henabled hcomplete).right ?_
  rcases complete_of_enabled henabled hcomplete with ⟨seed, hlatch, rfl⟩ | ⟨nblk, dst, g, -, -, rfl⟩ | ⟨nblk, g, hlatch, rfl⟩
  · simp only [latchInv, hlatch] at h
    exact h.right
  · rfl
  · simp only [latchInv, hlatch] at h
    obtain ⟨-, -, -, htouched⟩ := h
    exact htouched

theorem latchInv_step (h : latchInv s) (hstep : step s = .next t) : latchInv t := by
  cases step_effect hstep with
  | quiet | drops | stores => simpa using h
  | register =>
    exact latchInv_congr h (writeReg_latch ..) (writeReg_err ..) (writeReg_stateValid ..) (writeReg_cfg ..)
      (writeReg_touched ..)
  | selects q l k v w hidle => exact latchInv_of_idle hidle (touched_of_idle (s := s) hidle h)
  | reports q l code hidle => exact latchInv_of_idle hidle (touched_of_idle (s := s) hidle h)
  | latches q l x hidle hx =>
    exact latchInv_congr (latchInv_latched hx (touched_of_idle hidle h)) (by simp) (by simp) (by simp) (by simp) (by simp)
  | notes q l a hexists hflight => exact latchInv_congr (latchInv_noted hexists hflight h) (by simp) (by simp) (by simp) (by simp) (by simp)
  | completes q hturn henabled hcomplete => 
    exact latchInv_of_complete (s := s.withSched q) henabled ((latchInv_withSched q).mpr h) hcomplete
  | resets => exact latchInv_of_idle rfl rfl

theorem memWf_complete (h : memWf s.mem = true) (hcomplete : complete s = .next t) : memWf t.mem = true := by
  rcases complete_next hcomplete with ⟨-, rfl⟩ | ⟨seed, -, rfl⟩ | ⟨nblk, dst, g, -, -, rfl⟩ | ⟨nblk, g, -, -, rfl⟩
  · exact h
  · exact h
  · exact memWf_scrambleEach _ _ _ (memWf_genBlocks _ _ _ _ h)
  · exact h

/-- Settles O40: every write of memory is by `memWrite`, which keeps the addresses rising. -/
theorem stepKeepsMemoryCanonical : Obligations.StepKeepsMemoryCanonical := by
  intro s t h hstep
  cases step_effect hstep with
  | quiet | drops | reports | latches | selects | notes => exact h
  | register => rw [writeReg_mem]; exact h
  | stores => exact memWf_memWrite _ _ _ h
  | completes q hturn henabled hcomplete => exact memWf_complete (s := s.withSched q) h hcomplete
  | resets => exact memWf_scramble _ _ _ _ _ h

/-- A completion lists only bytes of its range, noted bytes and bytes listed before (20_memory.md R69). -/
theorem byteExists_complete (henabled : engineEnabled s = true) (hlatch : latchInv s)
    (h : ∀ c ∈ s.mem, byteExists s.cfg c.1 = true) (hcomplete : complete s = .next t) :
    ∀ c ∈ t.mem, byteExists s.cfg c.1 = true := by
  rcases complete_of_enabled henabled hcomplete with ⟨seed, -, rfl⟩ | ⟨nblk, dst, g, hgen, hexists, rfl⟩ | ⟨nblk, g, -, rfl⟩
  · exact h
  · obtain ⟨-, -, -, -, hnoted⟩ := latchInv_of_gen hgen hlatch
    intro c hc
    rcases scrambleEach_mem hc with hc | hc
    · exact (hnoted c.1 hc).right
    rcases genBlocks_mem hc with ⟨i, hi, hc⟩ | hc
    · rw [hc]
      exact (rangeExists_iff _ _ _).mp hexists i hi
    · exact h c hc
  · exact h

theorem byteExists_step (hlatch : latchInv s) (h : ∀ c ∈ s.mem, byteExists s.cfg c.1 = true)
    (hstep : step s = .next t) : ∀ c ∈ t.mem, byteExists s.cfg c.1 = true := by
  cases step_effect hstep with
  | quiet | drops | reports | latches | selects | notes => exact h
  | register => rw [writeReg_mem]; exact h
  | stores q l f a b c hwrites hexists =>
    intro d hd
    rcases mem_memWrite hd with rfl | hd
    · exact hexists
    · exact h d hd
  | completes q hturn henabled hcomplete =>
    exact byteExists_complete (s := s.withSched q) henabled ((latchInv_withSched q).mpr hlatch) h hcomplete
  | resets => exact fun c hc => (scramble_mem hc).elim id (h c)

theorem cfg_step (hstep : step s = .next t) : t.cfg = s.cfg := by
  cases step_effect hstep with
  | quiet | drops | reports | latches | selects | notes | stores | resets => rfl
  | register => exact writeReg_cfg ..
  | completes q hturn henabled hcomplete => exact (complete_keeps_cfg_engine hcomplete).left

/-- Settles O41: no effect of a step writes the parameters. -/
theorem stepKeepsParameters : Obligations.StepKeepsParameters := fun _ _ => cfg_step

/-- `ENGINE` stays a built-in variant: `SELECT` checks it, and reset takes the lowest one (10_state.md R27, R43). -/
theorem supported_step (hmask : s.cfg.capMask ≠ 0#3) (h : supported s.cfg.capMask s.engine = true)
    (hstep : step s = .next t) : supported s.cfg.capMask t.engine = true := by
  cases step_effect hstep with
  | quiet | drops | reports | latches | notes | stores => exact h
  | register => rw [writeReg_engine]; exact h
  | selects q l k v w hidle hturn hissues hdecode hbuilt => exact hbuilt
  | completes q hturn henabled hcomplete => rw [(complete_keeps_cfg_engine hcomplete).right]; exact h
  | resets => exact supported_lowestVariant hmask

theorem capMask_ne_zero {c : Config} (h : configWf c = true) : c.capMask ≠ 0#3 := by
  simp only [configWf, Bool.and_eq_true, bne_iff_ne] at h
  obtain ⟨⟨⟨⟨-, hmask⟩, -⟩, -⟩, -⟩ := h
  exact hmask

/-- Settles O39: each part of the invariant is kept by every effect of a step, and the parameters are the same. -/
theorem stepKeepsInvariant : Obligations.StepKeepsInvariant := by
  rintro s t ⟨hcfg, hmem, hexists, hengine, hlatch⟩ hstep
  rw [State.inv, cfg_step hstep]
  exact ⟨hcfg, stepKeepsMemoryCanonical s t hmem hstep, byteExists_step hlatch hexists hstep,
    supported_step (capMask_ne_zero hcfg) hengine hstep, latchInv_step hlatch hstep⟩

/-- Settles O38: every part of the invariant is a closed fact of the state after reset. -/
theorem resetMeetsInvariant : Obligations.ResetMeetsInvariant := by
  refine ⟨by decide, memWf_reset, ?_, by decide, rfl⟩
  intro c hc
  cases hc

end Sys2Proof.Machine
end

section
/-! PROOFS. Who changes `ENGINE`, the generator state, `BUSY` and a destination byte, and how a long command ends
(10_state.md section 1, 20_memory.md sections 1, 3 and 5, 60_exceptions.md section 1). -/
namespace Sys2Proof.Machine

variable {s t : State} {a nblk : Nat} {dst : Word}

/-- Settles O42: of the effects of a step only a selection and reset write `ENGINE`. -/
theorem onlySelectAndResetChangeEngine : Obligations.OnlySelectAndResetChangeEngine := by
  intro s t hstep hchanged
  cases step_effect hstep with
  | quiet | drops | reports | latches | notes | stores => exact absurd rfl hchanged
  | register => exact absurd (writeReg_engine ..) hchanged
  | selects q l h v w hidle hturn hissues hdecode => exact .inr ⟨h, v, w.id, hturn, hidle, hissues, hdecode, rfl, rfl⟩
  | completes q hturn henabled hcomplete => exact absurd (complete_keeps_cfg_engine hcomplete).right hchanged
  | resets q hturn => exact .inl hturn

/-- Settles O43: of the effects of a step only a completion, a selection and reset write the generator state. -/
theorem onlyCompletionSelectAndResetChangeTheState : Obligations.OnlyCompletionSelectAndResetChangeTheState := by
  intro s t hstep hchanged
  cases step_effect hstep with
  | quiet | drops | reports | latches | notes | stores => exact absurd rfl hchanged
  | register => exact absurd (writeReg_gen ..) hchanged
  | selects q l h v w hidle hturn hissues hdecode =>
    exact .inr (.inr ⟨h, v, w.id, hturn, hidle, hissues, hdecode, rfl, rfl, rfl⟩)
  | completes q hturn henabled hcomplete =>
    exact .inl ⟨congrArg Prod.fst hturn, busy_of_complete (s := s.withSched q) henabled hcomplete⟩
  | resets q hturn => exact .inr (.inl ⟨hturn, rfl⟩)

theorem inFlight_iff : inFlight s a = true ↔ flightStart s ≤ a ∧ a < flightStart s + flightBytes s :=
  inRegion_iff _ _

theorem not_inFlight_iff : inFlight s a = false ↔ a < flightStart s ∨ flightStart s + flightBytes s ≤ a := by
  rw [← Bool.not_eq_true, inFlight_iff]
  omega

/-- A completion writes no byte outside the range in flight, since only bytes of that range are noted (R68). -/
theorem memRead_complete_of_not_inFlight (hlatch : latchInv s) (hout : inFlight s a = false)
    (h : complete s = .next t) : memRead t.mem a = memRead s.mem a := by
  rcases complete_next h with ⟨-, rfl⟩ | ⟨seed, -, rfl⟩ | ⟨nblk, dst, g, hgen, -, rfl⟩ | ⟨nblk, g, -, -, rfl⟩
  · rfl
  · rfl
  · obtain ⟨-, -, -, -, hnoted⟩ := latchInv_of_gen hgen hlatch
    have hmem : a ∉ s.touched := fun ha => by simp [(hnoted a ha).left] at hout
    rw [not_inFlight_iff] at hout
    simp only [flightStart, flightBytes, hgen] at hout
    rw [completeGen_mem, memRead_scrambleEach_outside _ _ _ _ hmem, memRead_genBlocks_outside _ _ _ _ _ hout]
  · rfl

theorem memRead_applyReset_of_not_inFlight (hout : inFlight s a = false) :
    memRead (applyReset s).mem a = memRead s.mem a :=
  memRead_scramble_outside _ _ _ _ _ _ (not_inFlight_iff.mp hout)

/-- Settles O44: of the effects of a step only a store, a completion and reset write memory, the last two in the range in
flight. -/
theorem onlyOwnersChangeADestinationByte : Obligations.OnlyOwnersChangeADestinationByte := by
  intro s t a hlatch hstep hchanged
  cases step_effect hstep with
  | quiet | drops | reports | latches | selects | notes => exact absurd rfl hchanged
  | register => exact absurd (by rw [writeReg_mem]; rfl) hchanged
  | stores q l f x b c hwrites =>
    have hx : a = x := by
      by_contra hne
      exact hchanged (memRead_memWrite_other _ _ _ _ hne)
    subst hx
    rcases hwrites with hturn | ⟨h, p, hturn, hprog⟩
    · exact .inr (.inl ⟨b, hturn⟩)
    · exact .inr (.inr ⟨h, b, p, hturn, hprog⟩)
  | completes q hturn henabled hcomplete =>
    refine .inl ⟨.inl (congrArg Prod.fst hturn), ?_⟩
    by_contra hout
    exact hchanged (memRead_complete_of_not_inFlight (s := s.withSched q) ((latchInv_withSched q).mpr hlatch)
      (Bool.eq_false_iff.mpr hout) hcomplete)
  | resets q hturn =>
    refine .inl ⟨.inr hturn, ?_⟩
    by_contra hout
    exact hchanged (memRead_applyReset_of_not_inFlight (s := s.withSched q) (Bool.eq_false_iff.mpr hout))

/-- While a long command is in flight, a step leaves the latch as it is, or is a reset or the completion. -/
theorem latch_step_of_busy (hbusy : s.busy = true) (hstep : step s = .next t) :
    t.latch = s.latch
      ∨ (nextTurn s).1 = .reset
      ∨ (nextTurn s).1 = .engine ∧ engineEnabled s = true ∧ complete (nextTurn s).2 = .next t := by
  cases step_effect hstep with
  | quiet | drops | notes | stores => exact .inl rfl
  | register => exact .inl (writeReg_latch ..)
  | reports q l code hidle => simp [hbusy] at hidle
  | latches q l x hidle => simp [hbusy] at hidle
  | selects q l h v w hidle => simp [hbusy] at hidle
  | completes q hturn henabled hcomplete =>
    rw [hturn]
    exact .inr (.inr ⟨rfl, henabled, hcomplete⟩)
  | resets q hturn => exact .inr (.inl hturn)

/-- Settles O45: a step that leaves the latch as it is leaves `BUSY`. -/
theorem onlyCompletionAndResetClearBusy : Obligations.OnlyCompletionAndResetClearBusy := by
  intro s t hstep hbefore hafter
  rcases latch_step_of_busy hbefore hstep with hlatch | hreset | hcompletes
  · rw [State.busy, hlatch, ← State.busy, hbefore] at hafter
    cases hafter
  · exact .inr hreset
  · exact .inl hcompletes

theorem busy_step_of_reset (hreset : (nextTurn s).1 = .reset) (hstep : step s = .next t) : t.busy = false := by
  obtain ⟨q, h⟩ := step_next hstep
  rw [hreset] at h
  cases h
  rfl

theorem engineEnabled_of_stuck (h : s.stuck) : engineEnabled s = false := by
  obtain ⟨nblk, dst, hlatch, habsent⟩ := h
  simp [engineEnabled, hlatch, habsent]

theorem stuck_congr (hlatch : t.latch = s.latch) (hcfg : t.cfg = s.cfg) (h : s.stuck) : t.stuck := by
  simpa only [State.stuck, hlatch, hcfg] using h

theorem busy_of_stuck (h : s.stuck) : s.busy = true := by
  obtain ⟨nblk, dst, hlatch, -⟩ := h
  simp [State.busy, hlatch]

/-- Settles O46: a stuck `GEN` keeps its latch, since the engine has no completing step. -/
theorem unadmittedGenIsStuckUntilReset : Obligations.UnadmittedGenIsStuckUntilReset := by
  refine fun s t hstuck hstep => ⟨fun hnotReset => ?_, fun hreset => busy_step_of_reset hreset hstep⟩
  rcases latch_step_of_busy (busy_of_stuck hstuck) hstep with hlatch | hreset | ⟨-, henabled, -⟩
  · have hstuck' : t.stuck := stuck_congr hlatch (cfg_step hstep) hstuck
    exact ⟨hlatch, hstuck', busy_of_stuck hstuck'⟩
  · exact absurd hreset hnotReset
  · rw [engineEnabled_of_stuck hstuck] at henabled
    cases henabled

/-- A long command in flight that is not stuck has its completion step (R289). -/
theorem engineEnabled_of_not_stuck (hbusy : s.busy = true) (hfree : ¬ s.stuck) : engineEnabled s = true := by
  rcases hlatch : s.latch with _ | _ | ⟨nblk, dst⟩ | _
  · simp [State.busy, hlatch] at hbusy
  · simp [engineEnabled, hlatch]
  · have hexists : rangeExists s.cfg dst.toNat (blockBytes * nblk) = true := by
      by_contra habsent
      exact hfree ⟨nblk, dst, hlatch, Bool.eq_false_iff.mpr habsent⟩
    simp [engineEnabled, hlatch, hexists]
  · simp [engineEnabled, hlatch]

/-- In the invariant a completion finds the state it needs (R285). -/
theorem complete_answers (hinv : latchInv s) : ∃ t, complete s = .next t := by
  have hhas : s.stateValid = true → ∃ g, s.gen = some g := Option.isSome_iff_exists.mp
  rcases hlatch : s.latch with _ | seed | ⟨nblk, dst⟩ | nblk
  · exact ⟨s, by simp [complete, hlatch]⟩
  · exact ⟨completeInit seed s, by simp [complete, hlatch]⟩
  · obtain ⟨-, hvalid, -⟩ := latchInv_of_gen hlatch hinv
    obtain ⟨g, hgen⟩ := hhas hvalid
    exact ⟨completeGen nblk dst g s, by simp [complete, hlatch, hgen]⟩
  · simp only [latchInv, hlatch] at hinv
    obtain ⟨-, hvalid, -⟩ := hinv
    obtain ⟨g, hgen⟩ := hhas hvalid
    exact ⟨completeSkip nblk g s, by simp [complete, hlatch, hgen]⟩

/-- With nothing left in the schedule, the step of a busy engine that is not stuck is the completion (log 1). -/
theorem step_of_busy_unscheduled (hbusy : s.busy = true) (hfree : ¬ s.stuck) (hsched : s.sched = []) :
    step s = complete s := by
  simp [step, nextTurn, hsched, defaultTurn, takeTurn, engineTurn, engineEnabled_of_not_stuck hbusy hfree]

/-- Settles O47: the engine's turn comes, and its completion answers. -/
theorem longCommandCompletes : Obligations.LongCommandCompletes := by
  rintro s ⟨-, -, -, -, hlatch⟩ hbusy hfree hsched
  obtain ⟨t, hcomplete⟩ := complete_answers hlatch
  exact ⟨t, (step_of_busy_unscheduled hbusy hfree hsched).trans hcomplete,
    (busy_of_complete (engineEnabled_of_not_stuck hbusy hfree) hcomplete).right⟩

/-- A completion changes no host but for the ranges it has yet to see ended (log 26). -/
theorem complete_keeps_host (h : complete s = .next t) (k : Nat) :
    (t.host k).prog = (s.host k).prog ∧ (t.host k).fault = (s.host k).fault
      ∧ (t.host k).unfenced = (s.host k).unfenced := by
  rcases complete_next h with ⟨-, rfl⟩ | ⟨seed, -, rfl⟩ | ⟨nblk, dst, g, -, -, rfl⟩ | ⟨nblk, g, -, -, rfl⟩
  · exact ⟨rfl, rfl, rfl⟩
  · exact ⟨rfl, rfl, rfl⟩
  · exact ⟨endRange_prog _ _ _, endRange_fault _ _ _, endRange_unfenced _ _ _⟩
  · exact ⟨rfl, rfl, rfl⟩

theorem complete_keeps_turns (h : complete s = .next t) :
    t.sched = s.sched ∧ t.observed = s.observed ∧ firstHost t.hosts = firstHost s.hosts := by
  rcases complete_next h with ⟨-, rfl⟩ | ⟨seed, -, rfl⟩ | ⟨nblk, dst, g, -, -, rfl⟩ | ⟨nblk, g, -, -, rfl⟩
  · exact ⟨rfl, rfl, rfl⟩
  · exact ⟨rfl, rfl, rfl⟩
  · exact ⟨rfl, rfl, firstHost_endRange _ _⟩
  · exact ⟨rfl, rfl, rfl⟩

theorem engineEnabled_of_idle (hidle : s.busy = false) : engineEnabled s = false := by
  have hnone : s.latch = none := by simpa [State.busy] using hidle
  simp [engineEnabled, hnone]

/-- A host that has not stopped performs its next access, taken off its program. -/
theorem hostTurn_of_next {h : Nat} {op : HostOp} {p : List HostOp} (hprog : (s.host h).prog = op :: p)
    (hfault : (s.host h).fault = none) : hostTurn h s = hostOp h op (s.setHost h { s.host h with prog := p }) := by
  simp [hostTurn, hprog, hfault]

/-- With nothing left in the schedule and no completion to take, the first host that can move performs its next access. -/
theorem step_of_unscheduled_host {h : Nat} {op : HostOp} {p : List HostOp} (henabled : engineEnabled s = false)
    (hsched : s.sched = []) (hfirst : firstHost s.hosts = h) (hfault : (s.host h).fault = none)
    (hprog : (s.host h).prog = op :: p) : step s = hostOp h op (s.setHost h { s.host h with prog := p }) := by
  simp [step, nextTurn, hsched, defaultTurn, henabled, hfirst, takeTurn, hostTurn_of_next hprog hfault]

theorem windowRead_busy (h : Nat) (off : BitVec 8) (s : State) : (windowRead h off s).busy = s.busy := by
  rw [windowRead_eq]
  rfl

theorem windowRead_prog (h k : Nat) (off : BitVec 8) (s : State) :
    ((windowRead h off s).host k).prog = (s.host k).prog := by
  unfold windowRead
  split
  · exact (seeStatus_host s h k).left
  · rfl

/-- Settles O48: the first step is the completion, which leaves the poll first in its program, and the poll then reads
`BUSY = 0`. -/
theorem pollTerminates : Obligations.PollTerminates := by
  rintro s h p ⟨-, -, -, -, hlatch⟩ hbusy hfree hsched hfirst hfault hprog
  obtain ⟨t, hcomplete⟩ := complete_answers hlatch
  obtain ⟨hsched', hobserved, hfirst'⟩ := complete_keeps_turns hcomplete
  obtain ⟨hprog', hfault', -⟩ := complete_keeps_host hcomplete h
  have hidle : t.busy = false := (busy_of_complete (engineEnabled_of_not_stuck hbusy hfree) hcomplete).right
  have hfirstStep : step s = .next t := (step_of_busy_unscheduled hbusy hfree hsched).trans hcomplete
  have hsecondStep : step t = .next (windowRead h 0x08#8 (t.setHost h { t.host h with prog := p })) := by
    rw [step_of_unscheduled_host (engineEnabled_of_idle hidle) (hsched'.trans hsched) (hfirst'.trans hfirst)
      (hfault'.trans hfault) (hprog'.trans hprog), hostOp, hostPoll, setHost_busy, hidle, if_neg Bool.false_ne_true]
  refine ⟨windowRead h 0x08#8 (t.setHost h { t.host h with prog := p }),
    statusWord (t.setHost h { t.host h with prog := p }), ?_, ?_, ?_, ?_, ?_⟩
  · simp only [Host.Core.run, hfirstStep, hsecondStep]
  · rw [windowRead_prog, setHost_host_same]
  · rw [windowRead_busy, setHost_busy, hidle]
  · rw [windowRead_observed, setHost_observed, hobserved]
    rfl
  · rw [statusWord_getLsbD_busy, setHost_busy, hidle]

theorem agentStore_hosts {who : Agent} {b : Byte} (h : agentStore s who a b = .next t) : t.hosts = s.hosts := by
  rcases agentStore_next h with ⟨-, ⟨-, rfl⟩ | ⟨-, ⟨-, rfl⟩ | ⟨-, rfl⟩⟩⟩ | ⟨-, -, rfl⟩ <;> rfl

theorem engineTurn_keeps_host (h : engineTurn s = .next t) (k : Nat) :
    (t.host k).prog = (s.host k).prog ∧ (t.host k).fault = (s.host k).fault
      ∧ (t.host k).unfenced = (s.host k).unfenced := by
  rcases engineTurn_next h with ⟨-, h⟩ | ⟨-, rfl⟩
  · exact complete_keeps_host h k
  · exact ⟨rfl, rfl, rfl⟩

/-- A host with a recorded fault makes no access, and no other host's access changes it (R297). -/
theorem hostTurn_keeps_fault {h k : Nat} {f : HostFault} (hfault : (s.host h).fault = some f)
    (hturn : hostTurn k s = .next t) : (t.host h).fault = some f := by
  rcases hostTurn_next hturn with ⟨-, rfl⟩ | ⟨op, p, -, hnone, hop⟩
  · exact hfault
  · have hne : h ≠ k := by
      rintro rfl
      simp [hfault] at hnone
    rw [hostOp_host_other hne hop, setHost_host_other _ _ _ _ hne, hfault]

theorem takeTurn_keeps_fault {h : Nat} {f : HostFault} {u : Turn} (hfault : (s.host h).fault = some f)
    (hturn : takeTurn u s = .next t) : (t.host h).fault = some f := by
  rcases takeTurn_next hturn with ⟨k, -, hturn⟩ | ⟨-, hturn⟩ | ⟨-, rfl⟩ | ⟨a, b, -, hturn⟩ | ⟨a, n, -, hturn⟩
  · exact hostTurn_keeps_fault hfault hturn
  · obtain ⟨-, hkept, -⟩ := engineTurn_keeps_host hturn h
    exact hkept.trans hfault
  · obtain ⟨-, hkept, -⟩ := endFlight_host s h
    exact hkept.trans hfault
  · rw [State.host, agentStore_hosts hturn]
    exact hfault
  · obtain ⟨-, rfl⟩ := agentLoad_next hturn
    exact hfault

/-- Settles O37: every turn keeps a recorded fault, and a host's turn looks at its own fault alone. -/
theorem hostFaultIsNeverCleared : Obligations.HostFaultIsNeverCleared := by
  refine fun s h f hfault => ⟨fun t hstep => ?_, fun hprog => ?_, fun k op p => hostTurn_of_next⟩
  · obtain ⟨q, hturn⟩ := step_next hstep
    exact takeTurn_keeps_fault (s := s.withSched q) hfault hturn
  · obtain ⟨op, p, hcons⟩ := List.exists_cons_of_ne_nil hprog
    simp [hostTurn, hcons, hfault]

end Sys2Proof.Machine
end

section
/-! PROOFS. The acceptance of each command, one equation per outcome, in the order of its checks (30_encoding.md R96,
42_generate.md, 43_initialize.md section 1, 60_exceptions.md R288). -/
namespace Sys2Proof.Machine

variable {s t : State}

theorem lenMisshaped_eq_false (hlen : s.len.toNat % 128 = 0) : lenMisshaped s = false := by
  rw [Bool.eq_false_iff, ne_eq, lenMisshaped_iff, not_not, hlen]

/-- `GEN`'s checks for a state and for the shape pass (42_generate.md R204, 60_exceptions.md R285). -/
def GenShaped (s : State) : Prop := s.stateValid = true ∧ lenMisshaped s = false ∧ bufMisshaped s = false

theorem genShaped_of (hvalid : s.stateValid = true) (hlen : s.len.toNat % 128 = 0) (hbuf : s.bufLen = s.len) :
    GenShaped s :=
  ⟨hvalid, lenMisshaped_eq_false hlen, by rw [Bool.eq_false_iff, ne_eq, bufMisshaped_iff, not_not, hbuf]⟩

section Gen
variable (hidle : s.busy = false) (hshaped : GenShaped s)
include hidle hshaped

theorem exec_gen_of_outOfRange (hrange : 2 ^ s.cfg.paWidth < s.dstAddr.toNat + s.len.toNat) :
    exec .gen s = .next ((s.withOvr false).withErr .range) := by
  obtain ⟨hvalid, hlen, hbuf⟩ := hshaped
  rw [← outOfRange_iff] at hrange
  simp [exec_gen_of_idle hidle, acceptGen, hvalid, hlen, hbuf, hrange, raise]

variable (hin : s.dstAddr.toNat + s.len.toNat ≤ 2 ^ s.cfg.paWidth)
include hin

/-- What `AcceptGen` does with a range inside the space (42_generate.md R200, R203; 20_memory.md R70). -/
theorem exec_gen_of_inRange :
    (s.len = 0#64 → exec .gen s = .next ((s.withOvr false).withErr .ok))
      ∧ (s.len ≠ 0#64 → meetsEngineRegs s.cfg s.dstAddr.toNat s.len.toNat = true →
          exec .gen s = .refused .rangeMeetsEngineRegisters)
      ∧ (s.len ≠ 0#64 → meetsEngineRegs s.cfg s.dstAddr.toNat s.len.toNat = false →
          exec .gen s
            = .next (((s.withOvr false).withErr .ok).withLatch (some (.gen (s.len.toNat / 128) s.dstAddr)))) := by
  obtain ⟨hvalid, hlen, hbuf⟩ := hshaped
  have hin' : outOfRange s = false := by rw [Bool.eq_false_iff, ne_eq, outOfRange_iff, Nat.not_lt]; exact hin
  refine ⟨fun hzero => ?_, fun hne hmeets => ?_, fun hne hapart => ?_⟩
  · simp [exec_gen_of_idle hidle, acceptGen, hvalid, hlen, hbuf, hin', hzero]
  · simp [exec_gen_of_idle hidle, acceptGen, hvalid, hlen, hbuf, hin', hne, hmeets]
  · simp [exec_gen_of_idle hidle, acceptGen, hvalid, hlen, hbuf, hin', hne, hapart, genOperands, blocksOf, blockBytes]

end Gen

section Skip
variable (hidle : s.busy = false) (hvalid : s.stateValid = true)
include hidle hvalid

theorem exec_skip_of_zero (hzero : s.len = 0#64) : exec .skip s = .next ((s.withOvr false).withErr .ok) := by
  have hlen : lenMisshaped s = false := lenMisshaped_eq_false (by rw [hzero]; rfl)
  simp [exec_skip_of_idle hidle, acceptSkip, hvalid, hlen, hzero]

theorem exec_skip_of_accepted (hlen : s.len.toNat % 128 = 0) (hne : s.len ≠ 0#64) :
    exec .skip s = .next (((s.withOvr false).withErr .ok).withLatch (some (.skip (s.len.toNat / 128)))) := by
  simp [exec_skip_of_idle hidle, acceptSkip, hvalid, lenMisshaped_eq_false hlen, hne, skipOperands, blocksOf, blockBytes]

end Skip

theorem exec_init_of_idle (hidle : s.busy = false) :
    exec .init s = .next (((s.withOvr false).withErr .ok).withLatch (some (.init s.seed))) :=
  accept_idle (fun t => .next ((t.withErr .ok).withLatch (some (initOperands t)))) hidle

/-- Settles O11: the completion builds the state from the latch and the parameters, not from the seed registers. -/
theorem initRunsToCompletion : Obligations.InitRunsToCompletion :=
  fun _ hidle => ⟨_, exec_init_of_idle hidle, rfl, rfl, rfl, fun _ => rfl⟩

-- The code an idle engine reports

/-- Whatever an operation that answers one state reports, that state does. -/
theorem err_of_eq_next {o : Host.Outcome State Fault Refusal} {u : State} (h : o = .next t) (heq : o = .next u) :
    t.err = u.err := by
  cases h.symm.trans heq
  rfl

theorem err_exec_gen (hidle : s.busy = false) (h : exec .gen s = .next t) :
    t.err =
      if s.stateValid = false then .noState
      else if s.len.toNat % 128 ≠ 0 ∨ s.bufLen ≠ s.len then .shape
      else if 2 ^ s.cfg.paWidth < s.dstAddr.toNat + s.len.toNat then .range
      else .ok := by
  split_ifs with hnone hshape hrange
  · exact err_of_eq_next h (exec_gen_of_noState hidle hnone)
  · exact err_of_eq_next h (exec_gen_of_misshaped hidle (Bool.eq_true_of_not_eq_false hnone) hshape)
  all_goals
    simp only [not_or, not_not] at hshape
    have hshaped : GenShaped s := genShaped_of (Bool.eq_true_of_not_eq_false hnone) hshape.left hshape.right
  · exact err_of_eq_next h (exec_gen_of_outOfRange hidle hshaped hrange)
  · obtain ⟨hzero, hmeets, haccepted⟩ := exec_gen_of_inRange hidle hshaped (Nat.not_lt.mp hrange)
    by_cases hlen : s.len = 0#64
    · exact err_of_eq_next h (hzero hlen)
    · cases happ : meetsEngineRegs s.cfg s.dstAddr.toNat s.len.toNat
      · exact err_of_eq_next h (haccepted hlen happ)
      · cases h.symm.trans (hmeets hlen happ)

theorem err_exec_skip (hidle : s.busy = false) (h : exec .skip s = .next t) :
    t.err =
      if s.stateValid = false then .noState
      else if s.len.toNat % 128 ≠ 0 then .shape
      else .ok := by
  split_ifs with hnone hshape
  · exact err_of_eq_next h (exec_skip_of_noState hidle hnone)
  all_goals
    have hvalid : s.stateValid = true := Bool.eq_true_of_not_eq_false hnone
  · exact err_of_eq_next h (exec_skip_of_misshaped hidle hvalid hshape)
  · by_cases hzero : s.len = 0#64
    · exact err_of_eq_next h (exec_skip_of_zero hidle hvalid hzero)
    · exact err_of_eq_next h (exec_skip_of_accepted hidle hvalid (not_not.mp hshape) hzero)

/-- `SELECT` of a well-formed identifier reports whether its variant is built in (44_control_commands.md R261). -/
theorem err_exec_select {e : BitVec 2} (hidle : s.busy = false) (hwf : e ≠ 3#2) (h : exec (.select e) s = .next t) :
    t.err = if s.cfg.capMask.getLsbD e.toNat = true then .ok else .cap := by
  obtain ⟨v, hv⟩ := Option.ne_none_iff_exists'.mp (mt (ofId?_eq_none_iff e).mp hwf)
  obtain rfl := id_of_ofId? hv
  split_ifs with hbuilt
  · exact err_of_eq_next h (exec_select_of_supported hidle hbuilt)
  · exact err_of_eq_next h (exec_select_of_not_supported hidle (Bool.eq_false_of_not_eq_true hbuilt))

/-- Settles O15: each command reports the first of its checks that fails; a dropped word leaves `ERR`. -/
theorem oneErrorInPriorityOrder : Obligations.OneErrorInPriorityOrder := by
  refine ⟨fun s t v hbusy h => err_of_eq_next (u := s.withOvr true) h (cmdWrite_of_busy hbusy v), fun s t v hidle h => ?_⟩
  rcases cmdWrite_next h with ⟨i, hdecode, h⟩ | ⟨e, hdecode, h⟩ <;> rw [hdecode]
  · cases i with
    | nop => exact err_of_eq_next h (exec_nop_of_idle hidle)
    | init => exact err_of_eq_next h (exec_init_of_idle hidle)
    | gen => exact err_exec_gen hidle h
    | skip => exact err_exec_skip hidle h
    | select e =>
      obtain ⟨-, hwf⟩ := decode_eq_ok_iff.mp hdecode
      exact err_exec_select hidle (by simpa [Instr.wellFormed] using hwf) h
  · exact err_of_eq_next h (accept_idle _ hidle)

/-- Settles O13: of the outcomes of a well-shaped `GEN` the sum beyond the space is the one that reports `ERR_RANGE`, and
`SKIP` has no range check. -/
theorem rangeIsChecked : Obligations.RangeIsChecked := by
  refine ⟨fun s hidle hvalid hlen hbuf => ⟨fun h => ?_, exec_gen_of_outOfRange hidle (genShaped_of hvalid hlen hbuf)⟩,
    fun s t hidle h => ?_⟩
  · have herr := err_exec_gen hidle h
    by_contra hin
    simp [hvalid, hlen, hbuf, hin] at herr
  · rw [err_exec_skip hidle h]
    split_ifs <;> decide

/-- Settles O17: the length 0 is a multiple of 128, and it is handled after the checks and before the latch. -/
theorem zeroLengthCompletesAtAcceptance : Obligations.ZeroLengthCompletesAtAcceptance := by
  refine fun s hidle hvalid hzero => ⟨exec_skip_of_zero hidle hvalid hzero, fun hbuf hin => ?_⟩
  have hshaped : GenShaped s := genShaped_of hvalid (by rw [hzero]; rfl) (hbuf.trans hzero.symm)
  obtain ⟨hcompletes, -, -⟩ := exec_gen_of_inRange hidle hshaped (by simpa [hzero] using hin)
  exact hcompletes hzero

theorem meetsEngineRegs_eq_false {c : Config} {a n : Nat}
    (hapart : ∀ r ∈ c.engineRegs, ∀ x, r.base ≤ x → x < r.base + r.size → ¬ (a ≤ x ∧ x < a + n)) :
    meetsEngineRegs c a n = false := by
  rw [Bool.eq_false_iff, ne_eq, meetsEngineRegs_iff]
  rintro ⟨r, hr, x, ⟨hlo, hhi⟩, hx⟩
  exact hapart r hr x hlo hhi hx

/-- Settles O18: every check passes, and the latched blocks cover the range exactly. -/
theorem genIsAccepted : Obligations.GenIsAccepted := by
  intro s hidle hvalid hne hlen hbuf hin hapart
  obtain ⟨-, -, haccepted⟩ := exec_gen_of_inRange hidle (genShaped_of hvalid hlen hbuf) hin
  refine ⟨_, haccepted hne (meetsEngineRegs_eq_false hapart), rfl, rfl, fun g hgen hexists => ?_⟩
  have hrange : blockBytes * (s.len.toNat / 128) = s.len.toNat := by
    rw [blockBytes]
    omega
  exact engineTurn_of_gen rfl hgen (by rw [hrange]; exact hexists)

/-- Settles O19: an address in both ranges makes them meet, and an empty range has none. -/
theorem genMeetingEngineRegistersIsRefused : Obligations.GenMeetingEngineRegistersIsRefused := by
  intro s r a hidle hvalid hlen hbuf hin hr hlo hhi halo hahi
  have hne : s.len ≠ 0#64 := by
    intro hzero
    simp only [hzero, BitVec.toNat_ofNat] at hahi
    omega
  obtain ⟨-, hrefused, -⟩ := exec_gen_of_inRange hidle (genShaped_of hvalid hlen hbuf) hin
  exact hrefused hne ((meetsEngineRegs_iff _ _ _).mpr ⟨r, hr, a, ⟨hlo, hhi⟩, halo, hahi⟩)

/-- Settles O20: `BUF_LEN` and `DST_ADDR` enter no check of `SKIP`, and its completion writes the generator state alone. -/
theorem skipRunsToCompletion : Obligations.SkipRunsToCompletion := by
  intro s g hidle hgen hne hlen
  have hvalid : s.stateValid = true := by simp [State.stateValid, hgen]
  have hnone : s.latch = none := by simpa [State.busy] using hidle
  refine ⟨_, exec_skip_of_accepted hidle hvalid hlen hne, rfl, rfl, ?_⟩
  simp [engineTurn, engineEnabled, complete, hgen, completeSkip, State.withGen, State.withLatch, State.withErr,
    State.withOvr, hnone]

/-- Settles O10: no variant has the identifier 3. -/
theorem selectOfReservedIdIsIllegal : Obligations.SelectOfReservedIdIsIllegal := by
  intro s hidle
  rw [exec, execSelect, accept_idle _ hidle, (ofId?_eq_none_iff 3#2).mpr rfl, raise]

/-- Settles O21: of the effects of a command only a latched one writes `L`, and only a selection writes `ENGINE` and the
state; none writes an operand register, memory or an agent. -/
theorem acceptanceFrame : Obligations.AcceptanceFrame := by
  intro i s t h
  rcases exec_next h with ⟨-, rfl⟩ | ⟨-, code, rfl⟩ | ⟨-, x, rfl, hx⟩ | ⟨-, v, rfl, -, rfl⟩ <;>
    refine ⟨⟨rfl, rfl, rfl, rfl⟩, ⟨rfl, rfl, rfl, rfl, rfl, rfl⟩, fun _ => rfl, ?_, ?_⟩
  · exact fun _ => ⟨rfl, rfl⟩
  · exact fun _ _ _ => rfl
  · exact fun _ => ⟨rfl, rfl⟩
  · exact fun _ _ _ => rfl
  · exact fun _ => ⟨rfl, rfl⟩
  · intro hinit hgen hskip
    rcases hx with ⟨hi, -⟩ | ⟨hi, -⟩ | ⟨hi, -⟩
    · exact absurd hi hinit
    · exact absurd hi hgen
    · exact absurd hi hskip
  · exact fun hselect => absurd rfl (hselect v.id)
  · exact fun _ _ _ => rfl

-- The step that issues a command

/-- A 64-bit write at the offset of `CMD` is a command word (10_state.md R33). -/
theorem hostOp_write_cmd {h : Nat} {addr v : Word} (haddr : windowOffset? s.cfg addr = some 0x00#8) :
    hostOp h (.write 8 addr v) s = cmdWrite v s := by
  simp [hostOp, hostWrite, haddr, accessOk, windowWrite]

theorem cmdWrite_of_decode {v : Word} {i : Instr} (hdecode : decode v = .ok i) : cmdWrite v s = exec i s := by
  rw [cmdWrite, hdecode]

/-- Settles O5: the host's turn takes its next access off its program and performs it. -/
theorem stepRunsDecodedCommand : Obligations.StepRunsDecodedCommand := by
  intro s h addr v p i hprog hfault haddr hdecode
  refine ⟨fun q hsched => ?_, fun hsched henabled hfirst => ?_⟩
  · rw [step_of_sched hsched, takeTurn, hostTurn_of_next (s := s.withSched q) hprog hfault,
      hostOp_write_cmd (by exact haddr), cmdWrite_of_decode hdecode]
    rfl
  · rw [step_of_unscheduled_host henabled hsched hfirst hfault hprog, hostOp_write_cmd (by exact haddr),
      cmdWrite_of_decode hdecode]

/-- Settles O6: the word stands first in the program of host 0, whose turn is the next. -/
theorem fetchedWordIsAcceptedNext : Obligations.FetchedWordIsAcceptedNext := by
  intro s v
  have hword : BitVec.ofNat 64 (v.toNat % 2 ^ 64) = v := by
    rw [Nat.mod_eq_of_lt v.isLt, BitVec.ofNat_toNat, BitVec.setWidth_eq]
  rw [State.withFetchWord, hword, step_of_sched (u := .host 0) (q := s.sched) rfl, takeTurn,
    hostTurn_of_next (op := commandOp s.cfg v) (p := (s.host 0).prog) rfl rfl, commandOp]
  refine (hostOp_write_cmd ?_).trans ?_
  · exact windowOffset?_base s.cfg
  · exact congrArg (cmdWrite v) (setHost_setHost s 0 _ _)

end Sys2Proof.Machine
end

section
/-! PROOFS. What completions and reset leave, and the position in the stream (42_generate.md sections 1, 2 and 4,
43_initialize.md sections 2 and 3, 70_reset_and_hazards.md section 1). -/
namespace Sys2Proof.Machine

variable {s t : State} {g : GenState} {nblk : Nat} {dst : Word}

-- Frames

/-- A completion changes no operand register. -/
theorem complete_keeps_operands (h : complete s = .next t) : sameOperandRegs s t := by
  rcases complete_next h with ⟨-, rfl⟩ | ⟨seed, -, rfl⟩ | ⟨n, dst, g, -, -, rfl⟩ | ⟨n, g, -, -, rfl⟩ <;>
    exact ⟨rfl, rfl, rfl, rfl⟩

theorem complete_keeps_mem_hosts (hnotGen : ∀ nblk dst, s.latch ≠ some (.gen nblk dst)) (h : complete s = .next t) :
    t.mem = s.mem ∧ t.hosts = s.hosts := by
  rcases complete_next h with ⟨-, rfl⟩ | ⟨seed, -, rfl⟩ | ⟨n, dst, g, hgen, -, -⟩ | ⟨n, g, -, -, rfl⟩
  · exact ⟨rfl, rfl⟩
  · exact ⟨rfl, rfl⟩
  · exact absurd hgen (hnotGen n dst)
  · exact ⟨rfl, rfl⟩

/-- Settles O23: an engine turn is a completion or changes nothing, and a completion writes the range in flight alone. -/
theorem completionFrame : Obligations.CompletionFrame := by
  intro s t hlatch h
  rcases engineTurn_next h with ⟨-, h⟩ | ⟨-, rfl⟩
  · obtain ⟨hcfg, hengine⟩ := complete_keeps_cfg_engine h
    obtain ⟨herr, hovr⟩ := complete_keeps_err_ovr h
    obtain ⟨hsched, hobserved, -⟩ := complete_keeps_turns h
    exact ⟨complete_keeps_operands h, hcfg, hengine, hovr, herr, hsched, hobserved, complete_keeps_host h,
      fun a hout => memRead_complete_of_not_inFlight hlatch (not_inFlight_iff.mpr hout) h,
      fun hnotGen => complete_keeps_mem_hosts hnotGen h⟩
  · exact ⟨⟨rfl, rfl, rfl, rfl⟩, rfl, rfl, rfl, rfl, rfl, rfl, fun _ => ⟨rfl, rfl, rfl⟩, fun _ _ => rfl,
      fun _ => ⟨rfl, rfl⟩⟩

/-- Settles O32: reset draws a free value for each existing byte of the range in flight and writes no other. -/
theorem resetAbortsTheCommand : Obligations.ResetAbortsTheCommand := by
  intro s q hsched
  refine ⟨applyReset (s.withSched q), step_of_sched hsched, rfl, rfl, fun i hi hexists => ?_, fun a hout => ?_⟩
  · exact ⟨s.fresh + i, Nat.le_add_right _ _, Nat.add_lt_add_left hi _, scramble_read _ _ _ _ _ _ hi hexists⟩
  · exact memRead_applyReset_of_not_inFlight (s := s.withSched q) (not_inFlight_iff.mpr hout)

/-- Settles O30: every register of the reset state is 0, and its mask is 7. -/
theorem resetStateReads : Obligations.ResetStateReads :=
  ⟨by decide, by decide, rfl, rfl, rfl, rfl⟩

-- The stream

theorem completeGen_mem_of_untouched (huntouched : s.touched = []) :
    (completeGen nblk dst g s).mem = genBlocks nblk dst.toNat g s.mem := by
  rw [completeGen_mem, huntouched, scrambleEach]

/-- Settles O25: rounds and runs of blocks compose, the second `GEN` starting where the first one ended. -/
theorem chunkedGenEqualsOneGen : Obligations.ChunkedGenEqualsOneGen := by
  intro s g m n dst dst' huntouched haddr
  refine ⟨rfl, congrArg some (rounds_add m n g).symm, ?_⟩
  simp only [completeGen_mem_of_untouched huntouched, completeGen_mem_of_untouched (completeGen_touched ..)]
  rw [genBlocks_add, haddr]

/-- Byte x of a run of blocks that no other agent wrote is that of its block's pending output. -/
theorem memRead_completeGen (huntouched : s.touched = []) {b x : Nat} (hb : b < nblk) (hx : x < 128) :
    memRead (completeGen nblk dst g s).mem (dst.toNat + 128 * b + x) = (blockBytesOf (rounds b g).o)[x]? :=
  memRead_completeGen_of_untouched hb hx (by simp [huntouched])

/-- Settles O26: block b behind the skipped ones is block m + b of the longer `GEN`. -/
theorem skipThenGenEqualsLongerGen : Obligations.SkipThenGenEqualsLongerGen := by
  intro s g m n x dst dst' huntouched
  refine ⟨rfl, congrArg some (rounds_add m n g).symm, fun hx => ?_⟩
  have hblock : x / 128 < n := by omega
  have hbyte : x % 128 < 128 := Nat.mod_lt _ (by decide)
  have hsecond : dst'.toNat + x = dst'.toNat + 128 * (x / 128) + x % 128 := by omega
  have hwhole : dst.toNat + 128 * m + x = dst.toNat + 128 * (m + x / 128) + x % 128 := by omega
  rw [hsecond, hwhole, memRead_completeGen (s := completeSkip m g s) huntouched hblock hbyte,
    memRead_completeGen huntouched (Nat.add_lt_add_left hblock m) hbyte, rounds_add]

/-- A streaming command completes on the state it finds, runs one round per block, and leaves no byte noted. -/
theorem engineTurn_of_streams {l : Latch} (hgen : s.gen = some g) (huntouched : s.touched = [])
    (hstreams : l.streams s.cfg = true) :
    ∃ t, engineTurn (s.withLatch (some l)) = .next t ∧ t.gen = some (rounds l.blocks g) ∧ t.touched = []
      ∧ t.cfg = s.cfg := by
  cases l with
  | init seed => simp [Latch.streams] at hstreams
  | gen nblk dst => exact ⟨_, engineTurn_of_gen rfl hgen hstreams, rfl, rfl, rfl⟩
  | skip nblk =>
    refine ⟨completeSkip nblk g (s.withLatch (some (.skip nblk))), ?_, rfl, huntouched, rfl⟩
    simp [engineTurn, engineEnabled, complete, hgen]

theorem completeEach_cons {l : Latch} {work : List Latch} (h : engineTurn (s.withLatch (some l)) = .next t) :
    completeEach (l :: work) s = completeEach work t := by
  rw [completeEach, h]

theorem rounds_sum_cons (l : Latch) (work : List Latch) (n : Nat) (g : GenState) :
    rounds (((l :: work).map Latch.blocks).sum + n) g = rounds ((work.map Latch.blocks).sum + n) (rounds l.blocks g) := by
  rw [List.map_cons, List.sum_cons, Nat.add_assoc, rounds_add]

/-- Streaming commands one after the other run as many rounds as they have blocks. -/
theorem completeEach_append_gen {work : List Latch} {n : Nat} (hgen : s.gen = some g) (huntouched : s.touched = [])
    (hstreams : ∀ l ∈ work, l.streams s.cfg = true) (hexists : rangeExists s.cfg dst.toNat (128 * n) = true) :
    ∃ t, completeEach (work ++ [.gen n dst]) s = .next t
      ∧ t.gen = some (rounds ((work.map Latch.blocks).sum + n) g)
      ∧ ∀ b x, b < n → x < 128 →
          memRead t.mem (dst.toNat + 128 * b + x)
            = (blockBytesOf (rounds ((work.map Latch.blocks).sum + b) g).o)[x]? := by
  induction work generalizing s g with
  | nil =>
    refine ⟨completeGen n dst g (s.withLatch (some (.gen n dst))), ?_, ?_, fun b x hb hx => ?_⟩
    · rw [List.nil_append, completeEach_cons (engineTurn_of_gen rfl hgen hexists), completeEach]
    · simp
    · rw [memRead_completeGen (s := s.withLatch (some (.gen n dst))) huntouched hb hx]
      simp
  | cons l work ih =>
    obtain ⟨t, hturn, hgen', huntouched', hcfg⟩ := engineTurn_of_streams hgen huntouched (hstreams l List.mem_cons_self)
    obtain ⟨u, heach, hgenu, hread⟩ := ih hgen' huntouched'
      (fun l hl => hcfg ▸ hstreams l (List.mem_cons_of_mem _ hl)) (hcfg ▸ hexists)
    simp only [rounds_sum_cons]
    exact ⟨u, (completeEach_cons hturn).trans heach, hgenu, hread⟩

/-- Settles O27: `INIT` completes to the state built from the seed, and the commands behind it stream from that state. -/
theorem streamPositionCountsBlocks : Obligations.StreamPositionCountsBlocks := by
  intro s seed work n dst huntouched hstreams hexists
  have hinit : engineTurn (s.withLatch (some (.init seed))) = .next (completeInit seed (s.withLatch (some (.init seed)))) :=
    rfl
  rw [completeEach_cons hinit]
  exact completeEach_append_gen rfl huntouched hstreams hexists

-- The counter and the seeded state

/-- Settles O55: one round adds the increment, and a multiple of it is that many additions. -/
theorem counterAdvancesLinearly : Obligations.CounterAdvancesLinearly := by
  intro n g j
  induction n generalizing g with
  | zero => simp [rounds]
  | succ n ih =>
    rw [rounds, ih, roundFn_c, wadd, nth_zipWith, BitVec.ofNat_add, BitVec.add_mul, BitVec.one_mul,
      BitVec.add_assoc, BitVec.add_comm (inc.nth j)]

theorem diffuse_add (m n : Nat) (g : GenState) : diffuse (m + n) g = diffuse n (diffuse m g) := by
  induction m generalizing g with
  | zero => rw [Nat.zero_add, diffuse]
  | succ m ih => rw [Nat.succ_add, diffuse, ih, diffuse]

/-- Diffusion ends with the shuffle of the round's pending output (43_initialize.md R235). -/
theorem diffuse_succ_s (n : Nat) (g : GenState) : (diffuse (n + 1) g).s = lshuf (diffuse (n + 1) g).o := by
  rw [diffuse_add]
  rfl

/-- Each round of diffusion advances the counter once, whatever the working state. -/
theorem diffuse_c (n : Nat) (g : GenState) : (diffuse n g).c = advanceCounter^[n] g.c := by
  induction n generalizing g with
  | zero => rfl
  | succ n ih => rw [diffuse, ih, Function.iterate_succ_apply]; rfl

/-- Settles O28: the last of the 13 rounds shuffles, and the counter goes up from `C_INIT` 13 times. -/
theorem initLeavesShuffledOutput : Obligations.InitLeavesShuffledOutput := by
  have hcounter : advanceCounter^[roundsInit] cInit = ⟨91#64, 65#64, 39#64, 13#64⟩ := by decide
  exact fun c seed => ⟨diffuse_succ_s 12 _, (diffuse_c roundsInit (seededState c seed)).trans hcounter⟩

theorem nth_seedState (c : Config) (seed : Quad Word) (k j : Fin 4) :
    ((seedState c seed).nth k).nth j = seedWord seed ((c.seedMap.nth k).nth j) ((c.phi.nth k).nth j) := by
  rw [seedState, nth_zipWith, nth_zipWith]

/-- A well-formed map seeds two words of every double-lane (43_initialize.md R231). -/
theorem countP_seeded {c : Config} (hwf : configWf c = true) (k : Fin 4) :
    (c.seedMap.nth k).toList.countP Option.isSome = 2 := by
  simp only [configWf, seedMapWf, Bool.and_eq_true, List.all_eq_true, beq_iff_eq] at hwf
  obtain ⟨⟨⟨⟨⟨-, hrows⟩, -⟩, -⟩, -⟩, -⟩ := hwf
  refine hrows _ ?_
  fin_cases k <;> simp [Quad.toList, Quad.nth]

theorem toList_eq_map_nth {α : Type} (q : Quad α) : q.toList = (List.finRange 4).map q.nth := rfl

/-- Settles O29: a word the map leaves out is its constant, and a row of four with two seeded words leaves out two. -/
theorem seedingKeepsHalfTheConstants : Obligations.SeedingKeepsHalfTheConstants := by
  refine fun c seed k => ⟨fun j => ?_, fun hwf => ?_⟩
  · rw [nth_seedState]
    rfl
  · have hseeded := countP_seeded hwf k
    rw [toList_eq_map_nth, List.countP_map] at hseeded
    have hall := List.length_eq_countP_add_countP (Option.isSome ∘ (c.seedMap.nth k).nth) (l := List.finRange 4)
    rw [List.length_finRange, hseeded] at hall
    have hkept : ∀ j ∈ List.finRange 4, (decide ¬ (Option.isSome ∘ (c.seedMap.nth k).nth) j = true) = true →
        (((seedState c seed).nth k).nth j == (c.phi.nth k).nth j) = true := by
      intro j _ hj
      have hnone : (c.seedMap.nth k).nth j = none := by simpa using hj
      rw [nth_seedState, hnone, seedWord, beq_self_eq_true]
    exact le_trans (by omega) (List.countP_mono_left hkept)

end Sys2Proof.Machine
end

section
/-! PROOFS. What the registers of the window read, and what reads and register writes leave alone (10_state.md section 3,
20_memory.md section 4). -/
namespace Sys2Proof.Machine

variable {s t : State} {off x : BitVec 8}

-- The fields of `STATUS` and `CAP` (10_state.md R34, R35)

theorem statusWord_getLsbD_ovr (s : State) : (statusWord s).getLsbD 2 = s.ovr := by
  rw [statusWord]
  iterate 3 rw [BitVec.getLsbD_append]
  simp

theorem statusWord_getLsbD_three (s : State) : (statusWord s).getLsbD 3 = false := by
  rw [statusWord]
  iterate 4 rw [BitVec.getLsbD_append]
  simp

theorem statusWord_extract_err (s : State) : (statusWord s).extractLsb' 4 4 = s.err.code := by
  rw [statusWord]
  iterate 4 rw [BitVec.extractLsb'_append_eq_of_le (by decide)]
  exact BitVec.extractLsb'_append_eq_right

theorem statusWord_extract_reserved (s : State) : (statusWord s).extractLsb' 10 54 = 0#54 := by
  rw [statusWord]
  iterate 6 rw [BitVec.extractLsb'_append_eq_of_le (by decide)]
  exact BitVec.extractLsb'_eq_self

theorem capWord_getLsbD (s : State) {e : Nat} (he : e < 3) : (capWord s).getLsbD e = s.cfg.capMask.getLsbD e := by
  rw [capWord, BitVec.getLsbD_setWidth, decide_eq_true (by omega), Bool.true_and]

theorem capWord_extract_high (s : State) : (capWord s).extractLsb' 3 61 = 0#61 := by
  refine BitVec.eq_of_getLsbD_eq fun i hi => ?_
  rw [capWord, BitVec.getLsbD_extractLsb', BitVec.getLsbD_setWidth, BitVec.getLsbD_of_ge _ _ (by omega)]
  simp

/-- `CMD` and the reserved aligned offsets read 0 (10_state.md R33, R40). -/
theorem readReg_reserved (s : State) (hoff : off = 0x00#8 ∨ off = 0x18#8 ∨ 0x58 ≤ off.toNat) : readReg s off = 0#64 := by
  rcases hoff with rfl | rfl | hhigh
  · rfl
  · rfl
  · have hne : ∀ y : BitVec 8, y.toNat < 0x58 → off ≠ y := by
      rintro y hy rfl
      omega
    simp [readReg, hne]

/-- Settles O33: the register read is chosen by its offset, and each field of `STATUS` and `CAP` by its place. -/
theorem statusAndCapFields : Obligations.StatusAndCapFields := fun s =>
  ⟨⟨rfl, rfl, rfl, rfl, rfl, rfl, rfl, rfl, rfl, fun _ _ hoff => readReg_reserved s hoff⟩,
    statusWord_getLsbD_busy s, statusWord_getLsbD_valid s, statusWord_getLsbD_ovr s, statusWord_getLsbD_three s,
    statusWord_extract_err s, statusWord_extract_engine s, statusWord_extract_reserved s,
    fun _ he => capWord_getLsbD s he, capWord_extract_high s⟩

-- Register writes

theorem statusWord_writeReg (s : State) (off : BitVec 8) (v : Word) : statusWord (writeReg s off v) = statusWord s := by
  simp only [statusWord, writeReg_engine, writeReg_err, writeReg_ovr, writeReg_stateValid, writeReg_busy]

theorem capWord_writeReg (s : State) (off : BitVec 8) (v : Word) : capWord (writeReg s off v) = capWord s := by
  simp only [capWord, writeReg_cfg]

/-- The operand registers keep each other. -/
theorem readReg_writeReg_other (s : State) (v : Word) (halign : off.toNat % 8 = 0) (hlo : 0x20 ≤ off.toNat)
    (hhi : off.toNat ≤ 0x50) (hne : x ≠ off) : readReg (writeReg s off v) x = readReg s x := by
  simp only [readReg, statusWord_writeReg, capWord_writeReg]
  rcases operandOffset_cases halign hlo hhi with rfl | rfl | rfl | rfl | rfl | rfl | rfl <;> simp [writeReg, hne]

/-- Settles O35: of the seven operand registers a write replaces the one at its offset. -/
theorem writtenRegisterReadsBack : Obligations.WrittenRegisterReadsBack := by
  refine fun s off v halign => ⟨fun ⟨hlo, hhi⟩ => ?_, fun hout => ?_⟩
  · have hcmd : off ≠ 0x00#8 := by
      rintro rfl
      simp at hlo
    exact ⟨_, windowWrite_of_ne_cmd v s hcmd, writeReg_eq s off v, readReg_writeReg_same s v halign hlo hhi,
      fun x hne => readReg_writeReg_other s v halign hlo hhi hne⟩
  · have hcmd : off ≠ 0x00#8 := by
      rintro rfl
      simp at hout
    rw [windowWrite_of_ne_cmd v s hcmd, writeReg_of_not_operand s v (hout.imp_left And.right)]

-- Reads

theorem sameEngine_withHosts_observe (s : State) (l : List HostAgent) (o : Observation) :
    sameEngine s ((s.withHosts l).observe o) :=
  ⟨rfl, rfl, rfl, rfl, rfl, ⟨rfl, rfl, rfl, rfl⟩, rfl, rfl, rfl⟩

theorem sameEngine_setHost (s : State) (h : Nat) (a : HostAgent) : sameEngine s (s.setHost h a) :=
  ⟨rfl, rfl, rfl, rfl, rfl, ⟨rfl, rfl, rfl, rfl⟩, rfl, rfl, rfl⟩

/-- Settles O36: every access of a host but a write changes hosts, observations and the free values drawn. -/
theorem readsHaveNoSideEffects : Obligations.ReadsHaveNoSideEffects := by
  intro s t h op hwrite hstore hop
  cases op with
  | write bytes addr v => exact absurd rfl (hwrite bytes addr v)
  | read bytes addr =>
    obtain ⟨off, -, ⟨-, rfl⟩ | ⟨-, rfl⟩⟩ := hostRead_next hop
    · exact sameEngine_windowRead h off s
    · exact sameEngine_setHost s h _
  | loadMem a n =>
    obtain ⟨-, rfl⟩ := agentLoad_next hop
    exact ⟨rfl, rfl, rfl, rfl, rfl, ⟨rfl, rfl, rfl, rfl⟩, rfl, rfl, rfl⟩
  | storeMem a b => exact absurd rfl (hstore a b)
  | poll =>
    cases hop
    rw [hostPoll_eq]
    exact sameEngine_withHosts_observe s _ _
  | checkErr code =>
    cases hop
    rw [hostCheckErr_eq]
    exact sameEngine_withHosts_observe s _ _
  | fence =>
    cases hop
    exact sameEngine_setHost s h _

end Sys2Proof.Machine
end

section
/-! PROOFS. Reads and writes of destination bytes by hosts and other agents (20_memory.md sections 3 to 5,
70_reset_and_hazards.md section 3). -/
namespace Sys2Proof.Machine

variable {s t : State} {who : Agent} {a n f : Nat} {b : Byte}

-- Writes, one equation per outcome

/-- The byte lies in no range that the agent, if it is a host, has yet to see ended (R326). -/
def SeenEnded (s : State) (who : Agent) (a : Nat) : Prop :=
  ∀ h, who = .host h → ∀ r ∈ (s.host h).unseen, inRegion r a = false

theorem unseenBy_iff {h : Nat} : unseenBy s h a = true ↔ ∃ r ∈ (s.host h).unseen, inRegion r a = true := by
  rw [unseenBy, List.any_eq_true]

theorem storeOpen_eq_false (hseen : SeenEnded s who a) : storeOpen s who a = false := by
  cases who with
  | other => rfl
  | host h =>
    rw [Bool.eq_false_iff]
    intro hopen
    obtain ⟨r, hr, hin⟩ := unseenBy_iff.mp hopen
    simp [hseen h rfl r hr] at hin

theorem agentStore_of_inFlight (hexists : byteExists s.cfg a = true) (hflight : inFlight s a = true) :
    agentStore s who a b = .next (s.withTouched (if a ∈ s.touched then s.touched else a :: s.touched)) := by
  simp [agentStore, hexists, hflight]

theorem agentStore_of_open (hexists : byteExists s.cfg a = true) (hout : inFlight s a = false)
    (hopen : storeOpen s who a = true) :
    agentStore s who a b = .next ((s.withMem (memWrite s.mem a (Config.freeByte s.fresh))).withFresh (s.fresh + 1)) := by
  simp [agentStore, hexists, hout, hopen]

theorem agentStore_of_ordinary (hexists : byteExists s.cfg a = true) (hout : inFlight s a = false)
    (hclosed : storeOpen s who a = false) : agentStore s who a b = .next (s.withMem (memWrite s.mem a b)) := by
  simp [agentStore, hexists, hout, hclosed]

theorem agentStore_of_absent (habsent : byteExists s.cfg a = false) :
    agentStore s who a b =
      if inFlight s a || storeOpen s who a then .next s else .fault (.dstAbsent a) := by
  simp [agentStore, habsent]

/-- A noted byte holds one of the free values that the completion draws (R68). -/
theorem memRead_completed_touched {nblk : Nat} {dst : Word} (hlatch : s.latch = some (.gen nblk dst))
    (henabled : engineEnabled s = true) (h : engineTurn s = .next t) (ha : a ∈ s.touched) :
    ∃ n, s.fresh ≤ n ∧ n < t.fresh ∧ memRead t.mem a = some (Config.freeByte n) := by
  rcases engineTurn_next h with ⟨-, h⟩ | ⟨hdisabled, -⟩
  · rcases complete_of_enabled henabled h with ⟨seed, hl, -⟩ | ⟨nblk, dst, g, -, -, rfl⟩ | ⟨nblk, g, hl, -⟩
    · simp [hlatch] at hl
    · exact scrambleEach_read _ _ _ _ ha
    · simp [hlatch] at hl
  · simp [henabled] at hdisabled

/-- Settles O24: whether the byte exists, is in flight, and is yet to be seen ended chooses the outcome of the write. -/
theorem touchedBytesAreUnspecified : Obligations.TouchedBytesAreUnspecified := by
  refine ⟨fun s who a b hexists hout hseen => ?_, fun s who a b hexists hflight => ?_,
    fun s h r a b hexists hout hr hin => ?_, fun s who a b habsent => ⟨fun hopen => ?_, fun hout hseen => ?_⟩,
    fun s t nblk dst a hlatch henabled h ha => memRead_completed_touched hlatch henabled h ha⟩
  · exact ⟨_, agentStore_of_ordinary hexists hout (storeOpen_eq_false hseen), rfl, memRead_memWrite_same _ _ _,
      fun x hx => memRead_memWrite_other _ _ _ _ hx⟩
  · refine ⟨_, agentStore_of_inFlight hexists hflight, rfl, fun x => ?_⟩
    rw [withTouched_touched]
    split <;> simp_all
  · exact ⟨_, agentStore_of_open hexists hout (unseenBy_iff.mpr ⟨r, hr, hin⟩), rfl, memRead_memWrite_same _ _ _,
      fun x hx => memRead_memWrite_other _ _ _ _ hx⟩
  · have hopen' : (inFlight s a || storeOpen s who a) = true := by
      rw [Bool.or_eq_true]
      refine hopen.imp_right ?_
      rintro ⟨h, r, rfl, hr, hin⟩
      exact unseenBy_iff.mpr ⟨r, hr, hin⟩
    rw [agentStore_of_absent habsent, if_pos hopen']
  · simp [agentStore_of_absent habsent, hout, storeOpen_eq_false hseen]

-- Reads

/-- A read looks at memory only where the byte is not open to the agent. -/
theorem loadBytes_congr (hopen : ∀ x, openTo t who x = openTo s who x)
    (hmem : ∀ x, openTo s who x = false → memRead t.mem x = memRead s.mem x) (a f n : Nat) :
    loadBytes t who a f n = loadBytes s who a f n := by
  induction n generalizing a f with
  | zero => rfl
  | succ n ih =>
    cases h : openTo s who a
    · simp [loadBytes, hopen, h, ih, hmem a h]
    · simp [loadBytes, hopen, h, ih]

theorem rangeReadable_congr (hopen : ∀ x, openTo t who x = openTo s who x) (hcfg : t.cfg = s.cfg) (a n : Nat) :
    rangeReadable t who a n = rangeReadable s who a n := by
  simp only [rangeReadable, readable, hopen, hcfg]

/-- A read of one open byte returns the next free value. -/
theorem agentLoad_of_open (hopen : openTo s who a = true) :
    ∃ t, agentLoad s who a 1 = .next t ∧ t.observed = .bytes who a [Config.freeByte s.fresh] :: s.observed := by
  refine ⟨(s.withFresh (s.fresh + 1)).observe (.bytes who a [Config.freeByte s.fresh]), ?_, rfl⟩
  rw [agentLoad, if_pos (rangeReadable_of_open hopen)]
  simp [loadBytes, hopen]

theorem openTo_of_inFlight (hflight : inFlight s a = true) : openTo s who a = true := by
  simp [openTo, hflight]

theorem not_inFlight_of_closed (hclosed : openTo s who a = false) : inFlight s a = false := by
  rw [Bool.eq_false_iff] at hclosed ⊢
  exact mt openTo_of_inFlight hclosed

/-- Settles O51: a byte in flight is open to every agent, so its memory is not looked at. -/
theorem inFlightBytesReadAsAnyValue : Obligations.InFlightBytesReadAsAnyValue := by
  refine fun s m who a n hmem => ⟨?_, fun hflight => agentLoad_of_open (openTo_of_inFlight hflight)⟩
  have hload := loadBytes_congr (s := s) (t := s.withMem m) (who := who) (fun _ => rfl)
    (fun x hclosed => hmem x (not_inFlight_of_closed hclosed)) a s.fresh n
  have hreadable := rangeReadable_congr (s := s) (t := s.withMem m) (who := who) (fun _ => rfl) rfl a n
  rw [agentLoad, agentLoad, hreadable, withMem_fresh, hload]
  split <;> rfl

/-- The byte needs no fence of the agent, if it is a host (R74). -/
def Fenced (s : State) (who : Agent) (a : Nat) : Prop :=
  ∀ h, who = .host h → s.cfg.fenceNeeded = true → ∀ r ∈ (s.host h).unfenced, inRegion r a = false

theorem unfencedBy_iff {h : Nat} :
    unfencedBy s h a = true ↔ s.cfg.fenceNeeded = true ∧ ∃ r ∈ (s.host h).unfenced, inRegion r a = true := by
  rw [unfencedBy, Bool.and_eq_true, List.any_eq_true]

theorem openTo_eq_false (hout : inFlight s a = false) (hseen : SeenEnded s who a) (hfenced : Fenced s who a) :
    openTo s who a = false := by
  cases who with
  | other => simp [openTo, hout]
  | host h =>
    have hunseen : unseenBy s h a = false := storeOpen_eq_false hseen
    have hunfenced : unfencedBy s h a = false := by
      rw [Bool.eq_false_iff]
      intro hopen
      obtain ⟨hneeded, r, hr, hin⟩ := unfencedBy_iff.mp hopen
      simp [hfenced h rfl hneeded r hr] at hin
    simp [openTo, hout, hunseen, hunfenced]

/-- A read of bytes that are not open returns memory and draws no free value. -/
theorem loadBytes_of_closed {bs : List Byte}
    (h : ∀ i, i < bs.length → openTo s who (a + i) = false ∧ memRead s.mem (a + i) = bs[i]?) :
    loadBytes s who a f bs.length = (bs, f) := by
  induction bs generalizing a with
  | nil => rfl
  | cons b bs ih =>
    obtain ⟨hclosed, hread⟩ := h 0 (by simp)
    have htail : loadBytes s who (a + 1) f bs.length = (bs, f) := by
      refine ih fun i hi => ?_
      have hnext := h (i + 1) (by simpa using hi)
      rwa [show a + (i + 1) = a + 1 + i by omega, List.getElem?_cons_succ] at hnext
    rw [Nat.add_zero] at hclosed hread
    simp [loadBytes, hclosed, hread, htail]

theorem agentLoad_of_closed {bs : List Byte} (hexists : rangeExists s.cfg a bs.length = true)
    (h : ∀ i, i < bs.length → openTo s who (a + i) = false ∧ memRead s.mem (a + i) = bs[i]?) :
    agentLoad s who a bs.length = .next (s.observe (.bytes who a bs)) := by
  rw [agentLoad, if_pos (rangeReadable_of_exists hexists), loadBytes_of_closed h]
  rfl

theorem agentLoad_of_absent {i : Nat} (hi : i < n) (habsent : byteExists s.cfg (a + i) = false)
    (hclosed : openTo s who (a + i) = false) : agentLoad s who a n = .fault (.dstAbsent a) := by
  have hunreadable : ¬ rangeReadable s who a n = true := by
    rw [rangeReadable, List.all_eq_true]
    intro hall
    have := hall i (List.mem_range.mpr hi)
    simp [readable, habsent, hclosed] at this
  rw [agentLoad, if_neg hunreadable]

/-- A read of `STATUS` moves the reader's unseen ranges when it shows `BUSY = 0`, and changes no host otherwise (R326). -/
theorem windowRead_status_host (h : Nat) (s : State) :
    (s.busy = false → ((windowRead h 0x08#8 s).host h).unseen = []
        ∧ ((windowRead h 0x08#8 s).host h).unfenced = (s.host h).unseen ++ (s.host h).unfenced)
      ∧ (s.busy = true → (windowRead h 0x08#8 s).host h = s.host h) := by
  have hread : windowRead h 0x08#8 s = (s.seeStatus h).observe (.reg h 0x08#8 (readReg s 0x08#8)) := rfl
  rw [hread, observe_host]
  refine ⟨fun hidle => ?_, fun hbusy => ?_⟩
  · rw [State.seeStatus, if_neg (by simp [hidle]), setHost_host_same]
    exact ⟨rfl, rfl⟩
  · rw [State.seeStatus, if_pos hbusy]

/-- Settles O52: a byte neither in flight nor in an unseen or unfenced range is closed, and a closed byte reads memory. -/
theorem fencedReadReturnsMemory : Obligations.FencedReadReturnsMemory := by
  refine ⟨fun s who a bs hexists hbytes hhost => ?_, fun s h r a hin hr => ?_,
    fun s who a n i hi habsent hout hhost => ?_, fun s h nblk dst g hlatch hgen hexists hlisted => ?_,
    fun s h => ?_, fun s h => ?_⟩
  · refine agentLoad_of_closed hexists fun i hi => ⟨?_, (hbytes i hi).right⟩
    exact openTo_eq_false (hbytes i hi).left (fun h hw => (hhost h hw i hi).left) (fun h hw => (hhost h hw i hi).right)
  · have hopen : (unseenBy s h a || unfencedBy s h a) = true := by
      rw [Bool.or_eq_true]
      exact hr.imp (fun hr => unseenBy_iff.mpr ⟨r, hr, hin⟩) (fun ⟨hneeded, hr⟩ => unfencedBy_iff.mpr ⟨hneeded, r, hr, hin⟩)
    exact agentLoad_of_open (by simp [openTo, hopen])
  · exact agentLoad_of_absent hi habsent
      (openTo_eq_false hout (fun h hw => (hhost h hw).left) (fun h hw => (hhost h hw).right))
  · refine ⟨_, engineTurn_of_gen hlatch hgen hexists, ?_⟩
    rw [completeGen_host, hostGet_endRange, if_pos hlisted]
    rfl
  · exact ⟨_, hostOp_read_of_accessOk (off := 0x08#8) h (by decide), windowRead_status_host h s⟩
  · exact ⟨_, rfl, sameEngine_setHost s h _, setHost_host_same _ _ _, fun k hk => setHost_host_other _ _ _ _ hk⟩

end Sys2Proof.Machine
end

section
/-! PROOFS. The values of `S`, `O`, `C` and the variant enter no result but their own: one family of lemmas for the change
of both tags, with the two noninterference rules as its instances (10_state.md section 1, 41_engine_variants.md
section 1). -/
namespace Sys2Proof.Machine

/-- The generator state changed by `γ` and `ENGINE` by `ε`. -/
def State.retag (γ : Option GenState → Option GenState) (ε : Variant → Variant) (s : State) : State :=
  (s.withGen (γ s.gen)).withEngine (ε s.engine)

variable {γ : Option GenState → Option GenState} {ε : Variant → Variant} {s : State} {f : State → State}

@[simp] theorem retag_cfg : (s.retag γ ε).cfg = s.cfg := rfl
@[simp] theorem retag_err : (s.retag γ ε).err = s.err := rfl
@[simp] theorem retag_fresh : (s.retag γ ε).fresh = s.fresh := rfl
@[simp] theorem retag_busy : (s.retag γ ε).busy = s.busy := rfl
@[simp] theorem retag_host (h : Nat) : (s.retag γ ε).host h = s.host h := rfl

/-- A view passes through a check. -/
theorem viewed_ite (c : Prop) [Decidable c] (o p : Host.Outcome State Fault Refusal) :
    viewed f (if c then o else p) = if c then viewed f o else viewed f p := apply_ite (viewed f) c o p

-- Operations that commute with the change of tags

theorem agentStore_retag (who : Agent) (a : Nat) (b : Byte) :
    agentStore (s.retag γ ε) who a b = viewed (State.retag γ ε) (agentStore s who a b) := by
  simp only [agentStore, viewed_ite]
  rfl

theorem agentLoad_retag (who : Agent) (a n : Nat) :
    agentLoad (s.retag γ ε) who a n = viewed (State.retag γ ε) (agentLoad s who a n) := by
  have hload := loadBytes_congr (s := s) (t := s.retag γ ε) (who := who) (fun _ => rfl) (fun _ _ => rfl) a s.fresh n
  have hreadable := rangeReadable_congr (s := s) (t := s.retag γ ε) (who := who) (fun _ => rfl) rfl a n
  rw [agentLoad, hreadable, retag_fresh, hload, agentLoad, viewed_ite]
  rfl

theorem writeReg_retag (off : BitVec 8) (v : Word) :
    writeReg (s.retag γ ε) off v = (writeReg s off v).retag γ ε := by
  unfold writeReg
  split_ifs <;> rfl

theorem accept_retag {handle : State → Host.Outcome State Fault Refusal}
    (h : handle ((s.withOvr false).retag γ ε) = viewed (State.retag γ ε) (handle (s.withOvr false))) :
    accept (s.retag γ ε) handle = viewed (State.retag γ ε) (accept s handle) := by
  cases hbusy : s.busy
  · rw [accept_idle _ hbusy, accept_idle handle (s := s.retag γ ε) hbusy]
    exact h
  · rw [accept_busy _ hbusy, accept_busy handle (s := s.retag γ ε) hbusy]
    rfl

section
variable (hγ : ∀ x, (γ x).isSome = x.isSome)
include hγ

theorem retag_stateValid : (s.retag γ ε).stateValid = s.stateValid := hγ s.gen

theorem acceptGen_retag : acceptGen (s.retag γ ε) = viewed (State.retag γ ε) (acceptGen s) := by
  simp only [acceptGen, retag_stateValid hγ, viewed_ite]
  rfl

theorem acceptSkip_retag : acceptSkip (s.retag γ ε) = viewed (State.retag γ ε) (acceptSkip s) := by
  simp only [acceptSkip, retag_stateValid hγ, viewed_ite]
  rfl

theorem exec_retag {i : Instr} (hi : ∀ e, i ≠ .select e) :
    exec i (s.retag γ ε) = viewed (State.retag γ ε) (exec i s) := by
  cases i with
  | nop => exact accept_retag (handle := fun t => .next (t.withErr .ok)) rfl
  | init => exact accept_retag (handle := fun t => .next ((t.withErr .ok).withLatch (some (initOperands t)))) rfl
  | gen => exact accept_retag (acceptGen_retag hγ)
  | skip => exact accept_retag (acceptSkip_retag hγ)
  | select e => exact absurd rfl (hi e)

end

-- Through a view that does not see the tags

theorem viewed_next_congr {t u : State} (h : f t = f u) : viewed f (.next t) = viewed f (.next u) :=
  congrArg Host.Outcome.next h

/-- A view that does not see a change of states does not see it in an outcome. -/
theorem viewed_viewed {φ : State → State} (hf : ∀ t, f (φ t) = f t) (o : Host.Outcome State Fault Refusal) :
    viewed f (viewed φ o) = viewed f o := by
  cases o with
  | next t => exact viewed_next_congr (hf t)
  | fault r => rfl
  | refused r => rfl

/-- An accepted `SELECT` overwrites both tags, and a rejected one changes neither. -/
theorem viewed_acceptSelect (hf : ∀ t, f (State.retag γ ε t) = f t) (v : Variant) :
    viewed f (acceptSelect (s.retag γ ε) v) = viewed f (acceptSelect s v) := by
  rw [acceptSelect, acceptSelect, retag_cfg]
  split_ifs
  · rfl
  · exact viewed_next_congr (hf (s.withErr .cap))

theorem viewed_exec_select (hf : ∀ t, f (State.retag γ ε t) = f t) (e : BitVec 2) :
    viewed f (exec (.select e) (s.retag γ ε)) = viewed f (exec (.select e) s) := by
  cases hbusy : s.busy
  · simp only [exec, execSelect]
    rw [accept_idle _ hbusy, accept_idle _ (s := s.retag γ ε) hbusy]
    cases Variant.ofId? e with
    | none => exact viewed_next_congr (hf ((s.withOvr false).withErr .illegal))
    | some v => exact viewed_acceptSelect (s := s.withOvr false) hf v
  · rw [exec_of_busy hbusy, exec_of_busy (s := s.retag γ ε) hbusy]
    exact viewed_next_congr (hf (s.withOvr true))

theorem viewed_exec (hγ : ∀ x, (γ x).isSome = x.isSome) (hf : ∀ t, f (State.retag γ ε t) = f t) (i : Instr) :
    viewed f (exec i (s.retag γ ε)) = viewed f (exec i s) := by
  cases i with
  | select e => exact viewed_exec_select hf e
  | nop | init | gen | skip => rw [exec_retag hγ (by simp), viewed_viewed hf]

theorem viewed_cmdWrite (hγ : ∀ x, (γ x).isSome = x.isSome) (hf : ∀ t, f (State.retag γ ε t) = f t) (v : Word) :
    viewed f (cmdWrite v (s.retag γ ε)) = viewed f (cmdWrite v s) := by
  unfold cmdWrite
  cases decode v with
  | ok i => exact viewed_exec hγ hf i
  | error e =>
    have hcommutes : acceptIllegal (s.retag γ ε) = viewed (State.retag γ ε) (acceptIllegal s) := accept_retag rfl
    simp only [hcommutes, viewed_viewed hf]

theorem viewed_windowWrite (hγ : ∀ x, (γ x).isSome = x.isSome) (hf : ∀ t, f (State.retag γ ε t) = f t)
    (off : BitVec 8) (v : Word) : viewed f (windowWrite off v (s.retag γ ε)) = viewed f (windowWrite off v s) := by
  by_cases hoff : off = 0x00#8
  · rw [hoff, windowWrite_cmd, windowWrite_cmd, viewed_cmdWrite hγ hf]
  · rw [windowWrite_of_ne_cmd _ _ hoff, windowWrite_of_ne_cmd _ _ hoff, writeReg_retag]
    exact viewed_next_congr (hf _)

theorem viewed_hostWrite (hγ : ∀ x, (γ x).isSome = x.isSome) (hf : ∀ t, f (State.retag γ ε t) = f t) (h bytes : Nat)
    (addr v : Word) : viewed f (hostWrite h bytes addr v (s.retag γ ε)) = viewed f (hostWrite h bytes addr v s) := by
  rw [hostWrite, hostWrite, retag_cfg]
  cases windowOffset? s.cfg addr with
  | none => rfl
  | some off =>
    dsimp only
    split_ifs
    · exact viewed_windowWrite hγ hf off v
    · exact viewed_next_congr (hf (recordFault h (.busError bytes off) s))

-- Register reads

theorem seeStatus_retag (h : Nat) : (s.retag γ ε).seeStatus h = (s.seeStatus h).retag γ ε := by
  rw [State.seeStatus, State.seeStatus, apply_ite (State.retag γ ε)]
  rfl

/-- A register read commutes with the change of tags but for the value it observes. -/
theorem windowRead_retag (h : Nat) (off : BitVec 8) :
    windowRead h off (s.retag γ ε)
      = ((windowRead h off s).retag γ ε).withObserved (.reg h off (readReg (s.retag γ ε) off) :: s.observed) := by
  unfold windowRead
  split_ifs
  · rw [seeStatus_retag, seeStatus_eq]
    rfl
  · rfl

theorem hostPoll_retag (h : Nat) :
    hostPoll h (s.retag γ ε)
      = ((hostPoll h s).retag γ ε).withObserved (.reg h 0x08#8 (readReg (s.retag γ ε) 0x08#8) :: s.observed) := by
  rw [hostPoll, hostPoll, windowRead_retag, retag_busy]
  split_ifs <;> rfl

theorem hostCheckErr_retag (h : Nat) (code : BitVec 4) :
    hostCheckErr h code (s.retag γ ε)
      = ((hostCheckErr h code s).retag γ ε).withObserved
          (.reg h 0x08#8 (readReg (s.retag γ ε) 0x08#8) :: s.observed) := by
  rw [hostCheckErr, hostCheckErr, windowRead_retag]
  simp only [statusWord_extract_err, retag_err]
  split_ifs <;> rfl

/-- The access reads the register at that offset of the window. -/
def ReadsOffset (c : Config) (off : BitVec 8) : HostOp → Prop
  | .read bytes addr => bytes = 8 ∧ windowOffset? c addr = some off
  | .poll => off = 0x08#8
  | .checkErr _ => off = 0x08#8
  | _ => False

/-- The view does not see the change of tags in a state that has just observed the register at that offset. -/
def BlindRead (f : State → State) (γ : Option GenState → Option GenState) (ε : Variant → Variant) (s : State)
    (off : BitVec 8) : Prop :=
  ∀ (t : State) (h : Nat), t.observed = .reg h off (readReg s off) :: s.observed →
    f ((t.retag γ ε).withObserved (.reg h off (readReg (s.retag γ ε) off) :: s.observed)) = f t

theorem blindRead_of_same {off : BitVec 8} (hf : ∀ t, f (State.retag γ ε t) = f t)
    (hread : readReg (s.retag γ ε) off = readReg s off) : BlindRead f γ ε s off := by
  intro t h hobserved
  rw [hread, ← hobserved]
  exact hf t

/-- Every access of a host, seen through a view that is blind to the tags and to what the access observes of them. -/
theorem viewed_hostOp (hγ : ∀ x, (γ x).isSome = x.isSome) (hf : ∀ t, f (State.retag γ ε t) = f t) (h : Nat)
    (op : HostOp) (hblind : ∀ off, ReadsOffset s.cfg off op → BlindRead f γ ε s off) :
    viewed f (hostOp h op (s.retag γ ε)) = viewed f (hostOp h op s) := by
  cases op with
  | write bytes addr v => exact viewed_hostWrite hγ hf h bytes addr v
  | read bytes addr =>
    rw [hostOp, hostOp, hostRead, hostRead, retag_cfg]
    cases hwindow : windowOffset? s.cfg addr with
    | none => rfl
    | some off =>
      dsimp only
      refine viewed_next_congr ?_
      split_ifs with hok
      · obtain ⟨hbytes, -⟩ := (accessOk_iff bytes off).mp hok
        rw [windowRead_retag]
        exact hblind off ⟨hbytes, hwindow⟩ _ h (windowRead_observed h off s)
      · exact hf (recordFault h (.busError bytes off) s)
  | loadMem a n => simp only [hostOp, agentLoad_retag, viewed_viewed hf]
  | storeMem a b => simp only [hostOp, agentStore_retag, viewed_viewed hf]
  | poll =>
    have hobserved : (hostPoll h s).observed = .reg h 0x08#8 (readReg s 0x08#8) :: s.observed := by rw [hostPoll_eq]; rfl
    rw [hostOp, hostOp, hostPoll_retag]
    exact viewed_next_congr (hblind _ rfl _ h hobserved)
  | checkErr code =>
    have hobserved : (hostCheckErr h code s).observed = .reg h 0x08#8 (readReg s 0x08#8) :: s.observed := by
      rw [hostCheckErr_eq]; rfl
    rw [hostOp, hostOp, hostCheckErr_retag]
    exact viewed_next_congr (hblind _ rfl _ h hobserved)
  | fence => exact viewed_next_congr (hf (hostFence h s))

theorem readReg_retag_of_ne_status {off : BitVec 8} (hoff : off ≠ 0x08#8) :
    readReg (s.retag γ ε) off = readReg s off := by
  simp only [readReg, if_neg hoff]
  rfl

theorem applyReset_retag : applyReset (s.retag γ ε) = applyReset s := rfl

-- The values of S, O and C (10_state.md R24)

/-- The generator state, where there is one, is `g`. -/
def putGen (g : GenState) (x : Option GenState) : Option GenState := x.map (fun _ => g)

theorem putGen_isSome (g : GenState) (x : Option GenState) : (putGen g x).isSome = x.isSome := Option.isSome_map

theorem hideGen_retag_putGen (g : GenState) (t : State) : hideGen (t.retag (putGen g) id) = hideGen t := by
  have hsome : (putGen g t.gen).map (fun _ => hiddenGen) = t.gen.map (fun _ => hiddenGen) := Option.map_map _ _ _
  exact congrArg t.withGen hsome

theorem readReg_retag_putGen (g : GenState) (off : BitVec 8) : readReg (s.retag (putGen g) id) off = readReg s off := by
  by_cases hoff : off = 0x08#8
  · subst hoff
    have hvalid : (s.retag (putGen g) id).stateValid = s.stateValid := retag_stateValid (putGen_isSome g)
    change statusWord _ = statusWord s
    rw [statusWord, hvalid]
    rfl
  · exact readReg_retag_of_ne_status hoff

theorem viewed_hostTurn_putGen (g : GenState) (h : Nat) :
    viewed hideGen (hostTurn h (s.retag (putGen g) id)) = viewed hideGen (hostTurn h s) := by
  cases hprog : (s.host h).prog with
  | nil => simpa [hostTurn, hprog] using viewed_next_congr (hideGen_retag_putGen g s)
  | cons op p =>
    cases hfault : (s.host h).fault with
    | some _ => simp [hostTurn, hprog, hfault]
    | none =>
      rw [hostTurn_of_next hprog hfault, hostTurn_of_next (s := s.retag (putGen g) id) hprog hfault]
      exact viewed_hostOp (s := s.setHost h { s.host h with prog := p }) (putGen_isSome g) (hideGen_retag_putGen g) h op
        (fun off _ => blindRead_of_same (hideGen_retag_putGen g) (readReg_retag_putGen g off))

/-- Settles O49: two states that differ in the values alone are one state with the values put in, and hiding them undoes
that in every turn but the engine's. -/
theorem generatorStateIsOpaque : Obligations.GeneratorStateIsOpaque := by
  intro s g h u hu
  have hput : s.withGen (some g) = (s.withGen (some h)).retag (putGen g) id := rfl
  have hhide := hideGen_retag_putGen g
  rw [hput]
  cases u with
  | host k => exact viewed_hostTurn_putGen g k
  | engine => exact absurd rfl hu
  | reset => rfl
  | otherWrite a b => simp only [takeTurn, agentStore_retag, viewed_viewed hhide]
  | otherRead a n => simp only [takeTurn, agentLoad_retag, viewed_viewed hhide]

-- The selected variant (41_engine_variants.md R160)

theorem withEngine_eq_retag (v : Variant) : s.withEngine v = s.retag id (fun _ => v) := rfl

theorem engineTurn_withEngine (v : Variant) :
    engineTurn (s.withEngine v) = viewed (fun t => t.withEngine v) (engineTurn s) := by
  have hcomplete : complete (s.withEngine v) = viewed (fun t => t.withEngine v) (complete s) := by
    simp only [complete, withEngine_latch, withEngine_gen]
    rcases s.latch with _ | _ | _ | _ <;> rcases s.gen with _ | _ <;> rfl
  have henabled : engineEnabled (s.withEngine v) = engineEnabled s := rfl
  rw [engineTurn, engineTurn, henabled, hcomplete]
  split_ifs <;> rfl

/-- Only bits 9:8 of `STATUS` show the variant (10_state.md R34). -/
theorem statusWord_withEngine_getLsbD (v : Variant) {b : Nat} (hb : ¬ (8 ≤ b ∧ b ≤ 9)) :
    (statusWord (s.withEngine v)).getLsbD b = (statusWord s).getLsbD b := by
  simp only [statusWord, withEngine_engine, withEngine_err, withEngine_ovr, withEngine_stateValid, withEngine_busy,
    BitVec.getLsbD_append]
  split_ifs
  iterate 5 · rfl
  · omega
  · rfl

/-- Settles O50: the variant is a tag that no operation but `SELECT`, reset and a read of `STATUS` looks at. -/
theorem variantNeverChangesAResult : Obligations.VariantNeverChangesAResult := by
  intro s v
  have hscalar : ∀ t : State, (t.retag id (fun _ => v)).withEngine .scalar = t.withEngine .scalar := fun _ => rfl
  rw [withEngine_eq_retag]
  refine ⟨fun i hi => exec_retag (fun _ => rfl) hi, fun u hhost hreset => ?_, fun h op hpoll hcheck hstatus => ?_,
    fun h op => ?_, fun off => readReg_retag_of_ne_status, fun b => statusWord_withEngine_getLsbD v,
    fun e => viewed_exec_select hscalar e, rfl⟩
  · cases u with
    | host h => exact absurd rfl (hhost h)
    | engine => exact engineTurn_withEngine v
    | reset => exact absurd rfl hreset
    | otherWrite a b => exact agentStore_retag .other a b
    | otherRead a n => exact agentLoad_retag .other a n
  · refine viewed_hostOp (fun _ => rfl) hscalar h op fun off hreads =>
      blindRead_of_same hscalar (readReg_retag_of_ne_status ?_)
    rintro rfl
    cases op with
    | read bytes addr =>
      obtain ⟨rfl, hwindow⟩ := hreads
      exact hstatus addr rfl hwindow
    | poll => exact hpoll rfl
    | checkErr code => exact hcheck code rfl
    | write | loadMem | storeMem | fence => exact hreads
  · exact viewed_hostOp (fun _ => rfl) (fun _ => rfl) h op (fun off _ t k _ => rfl)

end Sys2Proof.Machine
end

section
/-! PROOFS. The datapath of each variant on its own registers computes the logical round, shuffle and flush, so the
variants make the same stream (41_engine_variants.md sections 1 to 4). -/
namespace Sys2Proof.Machine

theorem ofFn_nth {α : Type} (q : Quad α) : Quad.ofFn q.nth = q := rfl

-- Little-endian bytes of a register made of words (20_memory.md R62)

/-- The bytes of a register are those of its low word and then those of the rest. -/
theorem bytes_append {w : Nat} (x : BitVec w) (y : Word) (n : Nat) :
    (List.range (8 + n)).map (fun i => (x ++ y).extractLsb' (8 * i) 8)
      = bytesLE 8 y ++ (List.range n).map (fun i => x.extractLsb' (8 * i) 8) := by
  have hlow : ∀ i ∈ List.range 8, (x ++ y).extractLsb' (8 * i) 8 = y.extractLsb' (8 * i) 8 := by
    intro i hi
    rw [List.mem_range] at hi
    exact BitVec.extractLsb'_append_eq_of_add_le (by omega)
  have hhigh : ∀ i, (x ++ y).extractLsb' (8 * (8 + i)) 8 = x.extractLsb' (8 * i) 8 := by
    intro i
    rw [BitVec.extractLsb'_append_eq_of_le (by omega)]
    congr 1
    omega
  rw [List.range_add, List.map_append, List.map_map, bytesLE, List.map_congr_left hlow]
  simp only [Function.comp_def, hhigh]

theorem laneBytes_eq (d : DoubleLane) :
    laneBytes d = bytesLE 8 d.e0 ++ (bytesLE 8 d.e1 ++ (bytesLE 8 d.e2 ++ bytesLE 8 d.e3)) := by
  simp [laneBytes, Quad.toList]

/-- The 32 bytes of a `V256` register are those of its double-lane. -/
theorem bytes_pack256 (d : DoubleLane) :
    (List.range 32).map (fun i => (pack256 d).extractLsb' (8 * i) 8) = laneBytes d := by
  rw [laneBytes_eq, pack256]
  exact (bytes_append _ _ 24).trans (congrArg _ ((bytes_append _ _ 16).trans (congrArg _ (bytes_append _ _ 8))))

/-- The 16 bytes of each `V128` register of a double-lane, the low half first. -/
theorem bytes_half128 (d : DoubleLane) :
    (List.range 16).map (fun i => (half128 d 0).extractLsb' (8 * i) 8)
      ++ (List.range 16).map (fun i => (half128 d 1).extractLsb' (8 * i) 8) = laneBytes d := by
  rw [laneBytes_eq, half128_zero, half128_one]
  rw [show 16 = 8 + 8 from rfl, bytes_append, bytes_append, List.append_assoc]
  rfl

/-- The logical round of the block `i` with the counter injected, and `c` advanced, double-lane by double-lane
(40_datapath_units.md R126 to R130). -/
def roundLanes (i : Block) (c : DoubleLane) : GenState where
  s := ⟨wadd (permA i.e0) (wshr i.e0 1), wadd (permB i.e1) (wshr i.e1 3), wadd (permA i.e2) (wshr i.e2 1),
    wadd (permB i.e3) (wshr i.e3 3)⟩
  o := ⟨wxor (wshr i.e0 1) (permB i.e1), wxor (wshr i.e2 1) (permB i.e3),
    wxor (wadd (permA i.e0) (wshr i.e0 1)) (wadd (permB i.e3) (wshr i.e3 3)),
    wxor (wadd (permA i.e2) (wshr i.e2 1)) (wadd (permB i.e1) (wshr i.e1 3))⟩
  c := c

theorem roundFn_eq (g : GenState) : roundFn g = roundLanes (injectCounter g.s g.c) (advanceCounter g.c) := rfl

-- V256 (R162 to R164)

theorem shr256_pack256 (a : DoubleLane) (n : Nat) : shr256 (pack256 a) n = pack256 (wshr a n) :=
  lanes256_pack256 _ a a

theorem xor256_pack256 (a b : DoubleLane) : xor256 (pack256 a) (pack256 b) = pack256 (wxor a b) :=
  lanes256_pack256 _ a b

/-- The gathers of `V256` are permutations A and B (R162). -/
theorem vperm32_idxA (a : DoubleLane) : vperm32 (pack256 a) idxA = pack256 (permA a) := (permsAgreeV256_all a).left

theorem vperm32_idxB (a : DoubleLane) : vperm32 (pack256 a) idxB = pack256 (permB a) := (permsAgreeV256_all a).right

/-- The registers by their double-lanes. Rewriting under this name spares the size proofs of the vectors. -/
def regsV256 (s o : Quad (BitVec 256)) (c : BitVec 256) : V256Regs where
  ps := #v[s.e0, s.e1, s.e2, s.e3]
  po := #v[o.e0, o.e1, o.e2, o.e3]
  pc := c

theorem layoutV256_eq_regs (g : GenState) :
    layoutV256 g = regsV256 (g.s.map pack256) (g.o.map pack256) (pack256 g.c) := rfl

theorem getElem_four {α : Type} (a b c d : α) :
    #v[a, b, c, d][0] = a ∧ #v[a, b, c, d][1] = b ∧ #v[a, b, c, d][2] = c ∧ #v[a, b, c, d][3] = d :=
  ⟨rfl, rfl, rfl, rfl⟩

/-- The round of the registers `s0` to `s3` with the counter injected, and `c` advanced (R163, R164). -/
def roundRegsV256 (s0 s1 s2 s3 c : BitVec 256) : V256Regs :=
  regsV256
    ⟨add256 (vperm32 s0 idxA) (shr256 s0 1), add256 (vperm32 s1 idxB) (shr256 s1 3),
      add256 (vperm32 s2 idxA) (shr256 s2 1), add256 (vperm32 s3 idxB) (shr256 s3 3)⟩
    ⟨xor256 (shr256 s0 1) (vperm32 s1 idxB), xor256 (shr256 s2 1) (vperm32 s3 idxB),
      xor256 (add256 (vperm32 s0 idxA) (shr256 s0 1)) (add256 (vperm32 s3 idxB) (shr256 s3 3)),
      xor256 (add256 (vperm32 s2 idxA) (shr256 s2 1)) (add256 (vperm32 s1 idxB) (shr256 s1 3))⟩ c

theorem roundV256_eq (r : V256Regs) :
    roundV256 r = roundRegsV256 (injectV256 r).ps[0] (injectV256 r).ps[1] (injectV256 r).ps[2] (injectV256 r).ps[3]
      (advanceV256 r).pc := rfl

theorem roundRegsV256_pack256 (i : Block) (c : DoubleLane) :
    roundRegsV256 (pack256 i.e0) (pack256 i.e1) (pack256 i.e2) (pack256 i.e3) (pack256 c)
      = layoutV256 (roundLanes i c) := by
  simp only [roundRegsV256, roundLanes, layoutV256_eq_regs, Quad.map, shr256_pack256, vperm32_idxA, vperm32_idxB,
    add256_pack256, xor256_pack256]

theorem layoutV256_ps (g : GenState) :
    (layoutV256 g).ps[0] = pack256 g.s.e0 ∧ (layoutV256 g).ps[1] = pack256 g.s.e1
      ∧ (layoutV256 g).ps[2] = pack256 g.s.e2 ∧ (layoutV256 g).ps[3] = pack256 g.s.e3 := by
  rw [layoutV256_eq]
  exact getElem_four _ _ _ _

theorem roundV256_layoutV256 (g : GenState) : roundV256 (layoutV256 g) = layoutV256 (roundFn g) := by
  obtain ⟨h0, h1, h2, h3⟩ := layoutV256_ps { g with s := injectCounter g.s g.c }
  rw [roundFn_eq, ← roundRegsV256_pack256, roundV256_eq, injectV256_layoutV256, advanceV256_layoutV256, h0, h1,
    h2, h3]
  rfl

theorem flushV256_layoutV256 (g : GenState) : flushV256 (layoutV256 g) = blockBytesOf g.o := by
  have hpo : (layoutV256 g).po.toList = g.o.toList.map pack256 := rfl
  rw [flushV256, hpo, List.flatMap_map, blockBytesOf]
  simp only [bytes_pack256]

theorem logicalV256_layoutV256 (g : GenState) : logicalV256 (layoutV256 g) = g := by
  simp only [logicalV256, layoutV256, Fin.getElem_fin, Vector.getElem_ofFn, unpack256_pack256]
  rfl

/-- Settles O56: each operation on packed double-lanes is the packed logical one. -/
theorem v256RefinesTheRound : Obligations.V256RefinesTheRound := fun g =>
  ⟨roundV256_layoutV256 g, shuffleV256_layoutV256 g, flushV256_layoutV256 g, logicalV256_layoutV256 g⟩

-- V128 (R165 to R168)

/-- The two halves of a double-lane. -/
def halves (d : DoubleLane) : BitVec 128 × BitVec 128 := (half128 d 0, half128 d 1)

theorem shr128_half128 (a : DoubleLane) (n q : Nat) : shr128 (half128 a q) n = half128 (wshr a n) q :=
  lanes128_half128 _ a a q

/-- Both halves shifted. -/
def shrBoth128 (a : BitVec 128 × BitVec 128) (n : Nat) : BitVec 128 × BitVec 128 := (shr128 a.1 n, shr128 a.2 n)

theorem permA128_halves (a : DoubleLane) : permA128 (halves a).1 (halves a).2 = halves (permA a) := permA128_half128 a

theorem permB128_halves (a : DoubleLane) : permB128 (halves a).1 (halves a).2 = halves (permB a) := permB128_half128 a

theorem add128_halves (a b : DoubleLane) : both128 add128 (halves a) (halves b) = halves (wadd a b) :=
  Prod.ext (lanes128_half128 _ a b 0) (lanes128_half128 _ a b 1)

theorem xor128_halves (a b : DoubleLane) : both128 xor128 (halves a) (halves b) = halves (wxor a b) :=
  Prod.ext (lanes128_half128 _ a b 0) (lanes128_half128 _ a b 1)

theorem shrBoth128_halves (a : DoubleLane) (n : Nat) : shrBoth128 (halves a) n = halves (wshr a n) :=
  congrArg₂ Prod.mk (shr128_half128 a n 0) (shr128_half128 a n 1)

/-- The registers by the halves of their double-lanes. -/
def regsV128 (s o : Quad (BitVec 128 × BitVec 128)) (c : Vector (BitVec 128) 2) : V128Regs where
  ps := #v[s.e0.1, s.e0.2, s.e1.1, s.e1.2, s.e2.1, s.e2.2, s.e3.1, s.e3.2]
  po := #v[o.e0.1, o.e0.2, o.e1.1, o.e1.2, o.e2.1, o.e2.2, o.e3.1, o.e3.2]
  pc := c

theorem layoutV128_eq_regs (g : GenState) :
    layoutV128 g = regsV128 (g.s.map halves) (g.o.map halves) #v[half128 g.c 0, half128 g.c 1] := rfl

/-- The round of the pairs of registers `s0` to `s3` with the counter injected, and `c` advanced (R166 to R168). -/
def roundRegsV128 (s0 s1 s2 s3 : BitVec 128 × BitVec 128) (c : Vector (BitVec 128) 2) : V128Regs :=
  regsV128
    ⟨both128 add128 (permA128 s0.1 s0.2) (shrBoth128 s0 1), both128 add128 (permB128 s1.1 s1.2) (shrBoth128 s1 3),
      both128 add128 (permA128 s2.1 s2.2) (shrBoth128 s2 1), both128 add128 (permB128 s3.1 s3.2) (shrBoth128 s3 3)⟩
    ⟨both128 xor128 (shrBoth128 s0 1) (permB128 s1.1 s1.2), both128 xor128 (shrBoth128 s2 1) (permB128 s3.1 s3.2),
      both128 xor128 (both128 add128 (permA128 s0.1 s0.2) (shrBoth128 s0 1))
        (both128 add128 (permB128 s3.1 s3.2) (shrBoth128 s3 3)),
      both128 xor128 (both128 add128 (permA128 s2.1 s2.2) (shrBoth128 s2 1))
        (both128 add128 (permB128 s1.1 s1.2) (shrBoth128 s1 3))⟩ c

theorem roundV128_eq (r : V128Regs) :
    roundV128 r = roundRegsV128 ((injectV128 r).ps[0], (injectV128 r).ps[1])
      ((injectV128 r).ps[2], (injectV128 r).ps[3])
      ((injectV128 r).ps[4], (injectV128 r).ps[5])
      ((injectV128 r).ps[6], (injectV128 r).ps[7]) (advanceV128 r).pc := rfl

theorem roundRegsV128_halves (i : Block) (c : DoubleLane) :
    roundRegsV128 (halves i.e0) (halves i.e1) (halves i.e2) (halves i.e3) #v[half128 c 0, half128 c 1]
      = layoutV128 (roundLanes i c) := by
  simp only [roundRegsV128, roundLanes, layoutV128_eq_regs, Quad.map, shrBoth128_halves, permA128_halves,
    permB128_halves, add128_halves, xor128_halves]

theorem getElem_eight_pairs {α : Type} (a b c d e f g h : α) :
    (#v[a, b, c, d, e, f, g, h][0], #v[a, b, c, d, e, f, g, h][1]) = (a, b)
      ∧ (#v[a, b, c, d, e, f, g, h][2], #v[a, b, c, d, e, f, g, h][3]) = (c, d)
      ∧ (#v[a, b, c, d, e, f, g, h][4], #v[a, b, c, d, e, f, g, h][5]) = (e, f)
      ∧ (#v[a, b, c, d, e, f, g, h][6], #v[a, b, c, d, e, f, g, h][7]) = (g, h) :=
  ⟨rfl, rfl, rfl, rfl⟩

theorem layoutV128_ps (g : GenState) :
    ((layoutV128 g).ps[0], (layoutV128 g).ps[1]) = halves g.s.e0
      ∧ ((layoutV128 g).ps[2], (layoutV128 g).ps[3]) = halves g.s.e1
      ∧ ((layoutV128 g).ps[4], (layoutV128 g).ps[5]) = halves g.s.e2
      ∧ ((layoutV128 g).ps[6], (layoutV128 g).ps[7]) = halves g.s.e3 := by
  rw [layoutV128_eq]
  exact getElem_eight_pairs _ _ _ _ _ _ _ _

theorem roundV128_layoutV128 (g : GenState) : roundV128 (layoutV128 g) = layoutV128 (roundFn g) := by
  obtain ⟨h0, h1, h2, h3⟩ := layoutV128_ps { g with s := injectCounter g.s g.c }
  rw [roundFn_eq, ← roundRegsV128_halves, roundV128_eq, injectV128_layoutV128, advanceV128_layoutV128, h0, h1,
    h2, h3]
  rfl

theorem flushV128_layoutV128 (g : GenState) : flushV128 (layoutV128 g) = blockBytesOf g.o := by
  have hpo : (layoutV128 g).po.toList = g.o.toList.flatMap (fun d => [half128 d 0, half128 d 1]) := rfl
  rw [flushV128, hpo, List.flatMap_assoc, blockBytesOf]
  simp only [List.flatMap_cons, List.flatMap_nil, List.append_nil, bytes_half128]

theorem join128_half128 (d : DoubleLane) : join128 (half128 d 0) (half128 d 1) = d := by
  simp only [join128, half128_zero, half128_one, word128_append_low, word128_append_high]
  rfl

theorem logicalV128_layoutV128 (g : GenState) : logicalV128 (layoutV128 g) = g := by
  have hlow : ∀ k, 2 * k / 2 = k := by omega
  have hhigh : ∀ k, (2 * k + 1) / 2 = k := by omega
  have heven : ∀ k, 2 * k % 2 = 0 := by omega
  have hodd : ∀ k, (2 * k + 1) % 2 = 1 := by omega
  simp only [logicalV128, layoutV128, Vector.getElem_ofFn, hlow, hhigh, heven, hodd, join128_half128]
  rfl

/-- Settles O57: each operation on halves is the half of the logical one. -/
theorem v128RefinesTheRound : Obligations.V128RefinesTheRound := fun g =>
  ⟨roundV128_layoutV128 g, shuffleV128_layoutV128 g, flushV128_layoutV128 g, logicalV128_layoutV128 g⟩

-- SCALAR (R169 to R171)

/-- The registers by the words of their double-lanes. -/
def regsScalar (s o : Quad (Vector Word 4)) (c : Vector Word 4) : ScalarRegs where
  ps := joinScalar s.e0 s.e1 s.e2 s.e3
  po := joinScalar o.e0 o.e1 o.e2 o.e3
  pc := c

theorem layoutScalar_eq_regs (g : GenState) :
    layoutScalar g = regsScalar (g.s.map wordsScalar) (g.o.map wordsScalar) (wordsScalar g.c) := rfl

/-- The shift of each word. -/
def shrScalar (a : Vector Word 4) (n : Nat) : Vector Word 4 := zipScalar (fun x _ => x >>> n) a a

theorem shrScalar_wordsScalar (a : DoubleLane) (n : Nat) : shrScalar (wordsScalar a) n = wordsScalar (wshr a n) :=
  zipScalar_wordsScalar _ a a

theorem permScalar_tableA (a : DoubleLane) : permScalar (wordsScalar a) tableA = wordsScalar (permA a) :=
  permScalar_wordsScalar a tableA

theorem permScalar_tableB (a : DoubleLane) : permScalar (wordsScalar a) tableB = wordsScalar (permB a) :=
  permScalar_wordsScalar a tableB

/-- `+` of R169 and R170, word by word. -/
def addScalar (a b : Vector Word 4) : Vector Word 4 := zipScalar (fun x y => x + y) a b

/-- `^` of R169, word by word. -/
def xorScalar (a b : Vector Word 4) : Vector Word 4 := zipScalar (fun x y => x ^^^ y) a b

theorem addScalar_wordsScalar (a b : DoubleLane) : addScalar (wordsScalar a) (wordsScalar b) = wordsScalar (wadd a b) :=
  zipScalar_wordsScalar _ a b

theorem xorScalar_wordsScalar (a b : DoubleLane) : xorScalar (wordsScalar a) (wordsScalar b) = wordsScalar (wxor a b) :=
  zipScalar_wordsScalar _ a b

/-- The round of the lanes `s0` to `s3` with the counter injected, and `c` advanced (R169, R170). -/
def roundRegsScalar (s0 s1 s2 s3 c : Vector Word 4) : ScalarRegs :=
  regsScalar
    ⟨addScalar (permScalar s0 tableA) (shrScalar s0 1), addScalar (permScalar s1 tableB) (shrScalar s1 3),
      addScalar (permScalar s2 tableA) (shrScalar s2 1), addScalar (permScalar s3 tableB) (shrScalar s3 3)⟩
    ⟨xorScalar (shrScalar s0 1) (permScalar s1 tableB), xorScalar (shrScalar s2 1) (permScalar s3 tableB),
      xorScalar (addScalar (permScalar s0 tableA) (shrScalar s0 1)) (addScalar (permScalar s3 tableB) (shrScalar s3 3)),
      xorScalar (addScalar (permScalar s2 tableA) (shrScalar s2 1)) (addScalar (permScalar s1 tableB) (shrScalar s1 3))⟩ c

theorem roundScalar_eq (r : ScalarRegs) :
    roundScalar r = roundRegsScalar (laneScalar (injectScalar r).ps 0) (laneScalar (injectScalar r).ps 1)
      (laneScalar (injectScalar r).ps 2) (laneScalar (injectScalar r).ps 3) (advanceScalar r).pc := rfl

theorem roundRegsScalar_wordsScalar (i : Block) (c : DoubleLane) :
    roundRegsScalar (wordsScalar i.e0) (wordsScalar i.e1) (wordsScalar i.e2) (wordsScalar i.e3) (wordsScalar c)
      = layoutScalar (roundLanes i c) := by
  simp only [roundRegsScalar, roundLanes, layoutScalar_eq_regs, Quad.map, shrScalar_wordsScalar, permScalar_tableA,
    permScalar_tableB, addScalar_wordsScalar, xorScalar_wordsScalar]

theorem roundScalar_layoutScalar (g : GenState) : roundScalar (layoutScalar g) = layoutScalar (roundFn g) := by
  rw [roundFn_eq, ← roundRegsScalar_wordsScalar, roundScalar_eq, injectScalar_layoutScalar, advanceScalar_layoutScalar,
    laneScalar_layoutScalar, laneScalar_layoutScalar, laneScalar_layoutScalar, laneScalar_layoutScalar]
  rfl

theorem toList_wordsScalar (a : DoubleLane) : (wordsScalar a).toList = a.toList := rfl

theorem toList_joinScalar (l0 l1 l2 l3 : Vector Word 4) :
    (joinScalar l0 l1 l2 l3).toList = l0.toList ++ l1.toList ++ l2.toList ++ l3.toList := by
  simp only [joinScalar, Vector.toList_append]

theorem flushScalar_layoutScalar (g : GenState) : flushScalar (layoutScalar g) = blockBytesOf g.o := by
  simp only [flushScalar, layoutScalar_eq_regs, regsScalar, toList_joinScalar, Quad.map, toList_wordsScalar,
    List.flatMap_append]
  rfl

theorem logicalScalar_layoutScalar (g : GenState) : logicalScalar (layoutScalar g) = g := by
  have hlane : ∀ k j : Fin 4, (4 * k.val + j.val) / 4 = k := by omega
  have hword : ∀ k j : Fin 4, (4 * k.val + j.val) % 4 = j := by omega
  simp only [logicalScalar, layoutScalar, Fin.getElem_fin, Vector.getElem_ofFn, hlane, hword, Fin.eta, ofFn_nth]

/-- Settles O58: each operation on the words of a double-lane is the logical one. -/
theorem scalarRefinesTheRound : Obligations.ScalarRefinesTheRound := fun g =>
  ⟨roundScalar_layoutScalar g, shuffleScalar_layoutScalar g, flushScalar_layoutScalar g, logicalScalar_layoutScalar g⟩

-- The three variants alike (R160)

theorem roundPhysical_layout (v : Variant) (g : GenState) : roundPhysical (layout v g) = layout v (roundFn g) := by
  cases v with
  | scalar => exact congrArg _ (roundScalar_layoutScalar g)
  | v128 => exact congrArg _ (roundV128_layoutV128 g)
  | v256 => exact congrArg _ (roundV256_layoutV256 g)

theorem shufflePhysical_layout (v : Variant) (g : GenState) :
    shufflePhysical (layout v g) = layout v { g with s := lshuf g.o } := by
  cases v with
  | scalar => exact congrArg _ (shuffleScalar_layoutScalar g)
  | v128 => exact congrArg _ (shuffleV128_layoutV128 g)
  | v256 => exact congrArg _ (shuffleV256_layoutV256 g)

theorem flushPhysical_layout (v : Variant) (g : GenState) : flushPhysical (layout v g) = blockBytesOf g.o := by
  cases v with
  | scalar => exact flushScalar_layoutScalar g
  | v128 => exact flushV128_layoutV128 g
  | v256 => exact flushV256_layoutV256 g

theorem logical_layout (v : Variant) (g : GenState) : logical (layout v g) = g := by
  cases v with
  | scalar => exact logicalScalar_layoutScalar g
  | v128 => exact logicalV128_layoutV128 g
  | v256 => exact logicalV256_layoutV256 g

theorem diffusePhysical_layout (v : Variant) (n : Nat) (g : GenState) :
    diffusePhysical n (layout v g) = layout v (diffuse n g) := by
  induction n generalizing g with
  | zero => rfl
  | succ n ih => rw [diffusePhysical, roundPhysical_layout, shufflePhysical_layout, ← diffuseOnce, ih, ← diffuse]

/-- The stream is flushed from the logical state, which the layout does not enter. -/
theorem streamPhysical_layout (v w : Variant) (n : Nat) (g : GenState) :
    streamPhysical n (layout v g) = streamPhysical n (layout w g) := by
  induction n generalizing g with
  | zero => rfl
  | succ n ih =>
    simp only [streamPhysical, flushPhysical_layout, roundPhysical_layout]
    rw [ih]

/-- Settles O60: the physical registers stay the layout of one logical state through diffusion and the stream. -/
theorem variantsMakeTheSameStream : Obligations.VariantsMakeTheSameStream := by
  intro c seed v w n
  simp only [diffusePhysical_layout, logical_layout]
  exact ⟨streamPhysical_layout v w n _, rfl⟩

end Sys2Proof.Machine
end
